-- ==== Sys2Proof/Word.lean ====
section
/-! DEFINITION. The word widths of the MDB block: bytes, 16-bit samples and stream words, 32-bit registers,
64-bit command words (00_scope.md R6, R8). -/

namespace Sys2Proof

/-- A byte of IBUF or PIX: "A byte is 8 bits" (R8). -/
abbrev Byte := BitVec 8

/-- A BitReader word (BR_WORD_BITS = 16, R6), a PCM sample (PCM_BITS = 16, R6) or a 16-bit coordinate (R91). -/
abbrev Half := BitVec 16

/-- A control register (CR_BITS = 32, R6) or a COEF or SPAT element (WORK_BITS = 32, R6). -/
abbrev Word := BitVec 32

/-- A command word (CMD_BITS = 64, R6, R90). -/
abbrev CommandWord := BitVec 64

end Sys2Proof
end

