-- ==== Sys2Proof/Config.lean ====
section
/-! DEFINITION. The open configuration parameters of rule R7 as one record of plain data, and the free values:
constants without a body for what the spec leaves without a value. -/

namespace Sys2Proof

/-- What a key of a code table stands for (R7, R101, R102): a (run, value) pair, the escape prefix of a wider
code, or no code at all. -/
inductive EntryKind where
  | pair
  | escapePrefix
  | invalid
deriving DecidableEq, Repr

/-- One entry of a code table (R7, R101): how many bits of the key the code has, and the pair it decodes to. -/
structure TableEntry where
  kind  : EntryKind
  len   : Nat
  run   : Nat
  value : Int
deriving DecidableEq, Repr

/-- LUMA for blocks 0 to 3, CHROMA for blocks 4 and 5 (R12). -/
inductive Plane where
  | luma
  | chroma
deriving DecidableEq, Repr

/-- The pair of 64-entry step tables that one legal quantisation scale selects (R108), indexed by scan position. -/
structure QuantTable where
  scale  : Nat
  luma   : List Nat
  chroma : List Nat
deriving DecidableEq, Repr

/-- The configuration record of R7. QDOM is the list of scales that have a QuantTable, and QSTEP is what those
tables hold, so the two cannot disagree about which scales are legal. -/
structure Config where
  tableA      : List TableEntry
  wB          : Nat
  tableB      : List TableEntry
  escSentinel : Int
  rawBits     : Nat
  dcBits      : Nat
  quant       : List QuantTable
  zigzag      : List Nat
  ibufSize    : Nat
  pixSize     : Nat
deriving DecidableEq, Repr

/-- FREE VALUE. What an IBUF byte holds that the host has not written since reset (R62, U4): an arbitrary content,
one for each reset (first argument: how many soft resets there were) and offset. Log entry 2. -/
opaque Config.freeIbufByte : Nat → Nat → Byte

/-- FREE VALUE. What the host reads from a PIX byte that holds no defined value (R63, R260, U6), one for each
such read. Log entry 3. -/
opaque Config.freePixByte : Nat → Byte

/-- FREE VALUE. What the host reads from a control register other than STATUS while BUSY = 1 (R37, U5), one for
each such read. Log entry 4. -/
opaque Config.freeCrWord : Nat → Word

end Sys2Proof
end

