-- ==== Sys2Proof/Syntax.lean ====
section
/-! DEFINITION. The fourteen commands of the opcode map (30_encoding.md R92), one constructor per row of
spec/opcode_table.json, in the table's order. An operand has exactly the width of its field (R90, R93), so every
term of this type is a command some word encodes; the range checks of R274 belong to the commands' meanings. -/

namespace Sys2Proof

/-- A command ("Instruction means command", R13). The fields stand in the order of the encoding's operands
(A before B, W and MBX in the low half of B before H and MBY), not in the assembler's order (R96). -/
inductive Instr where
  /-- `NOP` (R250). -/
  | nop
  /-- `CFG.FRAME w, h` (R251). -/
  | cfgFrame (w h : Half)
  /-- `CFG.AUDIO channels` (R252). -/
  | cfgAudio (channels : Word)
  /-- `BR.INIT base, len` (R121). -/
  | brInit (len : BitVec 24) (base : Word)
  /-- `BR.PEEK n` (R122). -/
  | brPeek (n : Word)
  /-- `BR.CONSUME n` (R123). -/
  | brConsume (n : Word)
  /-- `BR.REFILL` (R124). -/
  | brRefill
  /-- `VLD.HDR` (R141). -/
  | vldHdr
  /-- `VLD.MB` (R142). -/
  | vldMb
  /-- `IDCT.BLK b` (R183). -/
  | idctBlk (b : Word)
  /-- `IDCT.MB` (R184). -/
  | idctMb
  /-- `CSC.MB mbx, mby` (R206). -/
  | cscMb (mbx mby : Half)
  /-- `ADPCM.INIT` (R227). -/
  | adpcmInit
  /-- `ADPCM.DEC base, groups` (R226). -/
  | adpcmDec (groups : BitVec 24) (base : Word)
deriving DecidableEq, Repr

end Sys2Proof
end

