-- ==== Sys2Proof/WellFormed.lean ====
section
/-! DEFINITION. Well-formedness: of a command word (R91, R94: which bits a word must leave zero) and of a
configuration (R7, last column). Every `Instr` is well formed by its operand types (see Syntax.lean), so the
checks stand here on the two things that can be ill formed. -/

namespace Sys2Proof

/-! ### Command words -/

/-- The operand bits a word with this opcode may set, `none` for an opcode that is not defined: formats Z, N and
XY must have A = 0, format Z also B = 0, format SL uses both fields (R91, R92). -/
def operandMask (op : Byte) : Option CommandWord :=
  if op ∈ [0x00#8, 0x13#8, 0x20#8, 0x21#8, 0x31#8, 0x50#8] then some 0x0000000000000000#64
  else if op ∈ [0x01#8, 0x02#8, 0x11#8, 0x12#8, 0x30#8, 0x40#8] then some 0x00000000FFFFFFFF#64
  else if op ∈ [0x10#8, 0x51#8] then some 0x00FFFFFFFFFFFFFF#64
  else none

/-- The opcode is one of the fourteen of R92 (else R94: cause OPCODE). -/
def opcodeDefined (cw : CommandWord) : Bool := (operandMask (cw.extractLsb' 56 8)).isSome

/-- Every field the format requires to be zero is zero (else R94: cause RESERVED_FIELD). -/
def reservedZero (cw : CommandWord) : Bool :=
  match operandMask (cw.extractLsb' 56 8) with
  | some m => cw &&& 0x00FFFFFFFFFFFFFF#64 &&& ~~~m == 0#64
  | none   => true

/-- The word is one of the encodings of R91 and R92. -/
def wordWellFormed (cw : CommandWord) : Bool := opcodeDefined cw && reservedZero cw

/-! ### Configurations (R7) -/

/-- A run of 0 to 63 and a 16-bit signed value. -/
def TableEntry.fieldsInRange (e : TableEntry) : Bool :=
  e.run ≤ 63 && -32768 ≤ e.value && e.value ≤ 32767

/-- A TABLE_A entry: PAIR and PREFIX entries have 1 ≤ len ≤ 8. -/
def TableEntry.okA (e : TableEntry) : Bool :=
  e.fieldsInRange && (e.kind == .invalid || (1 ≤ e.len && e.len ≤ 8))

/-- A TABLE_B entry: only PAIR (1 ≤ len ≤ W_B) and INVALID. -/
def TableEntry.okB (wB : Nat) (e : TableEntry) : Bool :=
  e.fieldsInRange && (e.kind == .invalid || (e.kind == .pair && 1 ≤ e.len && e.len ≤ wB))

/-- The sharing condition for one key of a table of `2^width` entries: all keys that share the top `len` bits of
`key` hold the same entry. -/
def sharesFrom (table : List TableEntry) (width key : Nat) : Bool :=
  match table[key]? with
  | none   => true
  | some e =>
    e.kind == .invalid ||
      (List.range (2 ^ (width - e.len))).all fun j =>
        table[key / 2 ^ (width - e.len) * 2 ^ (width - e.len) + j]? == some e

/-- The sharing condition for a whole table. -/
def tableShares (table : List TableEntry) (width : Nat) : Bool :=
  (List.range (2 ^ width)).all (sharesFrom table width)

/-- TABLE_A: 256 entries, each legal, sharing. -/
def Config.tableAOk (c : Config) : Bool :=
  c.tableA.length == 256 && c.tableA.all TableEntry.okA && tableShares c.tableA 8

/-- W_B and TABLE_B: 1 ≤ W_B ≤ 16, 2^W_B entries, each legal, sharing. -/
def Config.tableBOk (c : Config) : Bool :=
  1 ≤ c.wB && c.wB ≤ 16 && c.tableB.length == 2 ^ c.wB && c.tableB.all (TableEntry.okB c.wB) &&
    tableShares c.tableB c.wB

/-- ESC_SENTINEL is a signed 16-bit number. -/
def Config.escSentinelOk (c : Config) : Bool := -32768 ≤ c.escSentinel && c.escSentinel ≤ 32767

/-- 1 ≤ RAW_BITS ≤ 16. -/
def Config.rawBitsOk (c : Config) : Bool := 1 ≤ c.rawBits && c.rawBits ≤ 16

/-- 1 ≤ DC_BITS ≤ 16. -/
def Config.dcBitsOk (c : Config) : Bool := 1 ≤ c.dcBits && c.dcBits ≤ 16

/-- 64 steps, each 1 to 65535. -/
def stepsOk (l : List Nat) : Bool := l.length == 64 && l.all fun q => 1 ≤ q && q ≤ 65535

/-- QDOM is non-empty and below 65536, no scale has two tables, and every QSTEP is 1 to 65535. -/
def Config.quantOk (c : Config) : Bool :=
  !c.quant.isEmpty && (c.quant.map QuantTable.scale).Nodup &&
    c.quant.all fun t => t.scale < 65536 && stepsOk t.luma && stepsOk t.chroma

/-- ZIGZAG is a permutation of 0..63 that begins with 0. -/
def Config.zigzagOk (c : Config) : Bool :=
  c.zigzag.length == 64 && c.zigzag.head? == some 0 && (List.range 64).all fun i => c.zigzag.contains i

/-- 1 ≤ IBUF_SIZE ≤ 2^32. -/
def Config.ibufSizeOk (c : Config) : Bool := 1 ≤ c.ibufSize && c.ibufSize ≤ 2 ^ 32

/-- PIX_SIZE ≥ 4. -/
def Config.pixSizeOk (c : Config) : Bool := 4 ≤ c.pixSize

/-- "A `Config` is well formed when every constraint in the last column holds" (R7). -/
def Config.wellFormed (c : Config) : Bool :=
  c.tableAOk && c.tableBOk && c.escSentinelOk && c.rawBitsOk && c.dcBitsOk && c.quantOk && c.zigzagOk &&
    c.ibufSizeOk && c.pixSizeOk

end Sys2Proof
end

