-- ==== Sys2Proof/Decode.lean ====
section
/-! DEFINITION. Decoding a command word (R95, total) and encoding a command (R90 to R93). -/

namespace Sys2Proof

/-! ### The layout of a command word (R90) -/

/-- `OP = cw[63:56]`. -/
def cwOp (cw : CommandWord) : Byte := cw.extractLsb' 56 8

/-- `A = cw[55:32]`. -/
def cwA (cw : CommandWord) : BitVec 24 := cw.extractLsb' 32 24

/-- `B = cw[31:0]`. -/
def cwB (cw : CommandWord) : Word := cw.extractLsb' 0 32

/-- The first coordinate of format XY: `B[15:0]` (R91). -/
def xyFirst (b : Word) : Half := b.extractLsb' 0 16

/-- The second coordinate of format XY: `B[31:16]` (R91). -/
def xySecond (b : Word) : Half := b.extractLsb' 16 16

/-! ### Formats and the opcode map (R91, R92) -/

/-- The four formats of R91. -/
inductive Format where
  | z
  | n
  | xy
  | sl
deriving DecidableEq, Repr

/-- The format of an opcode, `none` for the opcodes R92 does not define. -/
def formatOf (op : Byte) : Option Format :=
  match op.toNat with
  | 0x00 => some .z
  | 0x01 => some .xy
  | 0x02 => some .n
  | 0x10 => some .sl
  | 0x11 => some .n
  | 0x12 => some .n
  | 0x13 => some .z
  | 0x20 => some .z
  | 0x21 => some .z
  | 0x30 => some .n
  | 0x31 => some .z
  | 0x40 => some .xy
  | 0x50 => some .z
  | 0x51 => some .sl
  | _    => none

/-- Whether the operand fields leave zero what the format requires to be zero (R91, R95). -/
def formatAdmits (f : Format) (a : BitVec 24) (b : Word) : Bool :=
  match f with
  | .z  => a == 0#24 && b == 0#32
  | .n  => a == 0#24
  | .xy => a == 0#24
  | .sl => true

/-- The command an opcode and its operand fields stand for (R92, R93: every operand is the unsigned value of its
field, used as is). -/
def buildInstr (op : Byte) (a : BitVec 24) (b : Word) : Option Instr :=
  match op.toNat with
  | 0x00 => some .nop
  | 0x01 => some (.cfgFrame (xyFirst b) (xySecond b))
  | 0x02 => some (.cfgAudio b)
  | 0x10 => some (.brInit a b)
  | 0x11 => some (.brPeek b)
  | 0x12 => some (.brConsume b)
  | 0x13 => some .brRefill
  | 0x20 => some .vldHdr
  | 0x21 => some .vldMb
  | 0x30 => some (.idctBlk b)
  | 0x31 => some .idctMb
  | 0x40 => some (.cscMb (xyFirst b) (xySecond b))
  | 0x50 => some .adpcmInit
  | 0x51 => some (.adpcmDec a b)
  | _    => none

/-- Why a word does not decode (R94, R275). -/
inductive IllegalCause where
  | opcode
  | reservedField
deriving DecidableEq, Repr

/-- The two answers of R95's decode. -/
inductive Decoded where
  | command (i : Instr)
  | illegal (c : IllegalCause)
deriving DecidableEq, Repr

/-- Decoding a command word (R95): the opcode is examined before the reserved fields. -/
def decode (cw : CommandWord) : Decoded :=
  match formatOf (cwOp cw), buildInstr (cwOp cw) (cwA cw) (cwB cw) with
  | some f, some i => if formatAdmits f (cwA cw) (cwB cw) then .command i else .illegal .reservedField
  | _, _           => .illegal .opcode

/-- The command of a decoded word, if there is one. -/
def Decoded.command? : Decoded → Option Instr
  | .command i => some i
  | .illegal _ => none

/-! ### Encoding (R90 to R93) -/

/-- The OP field of a command (R92). -/
def Instr.opcode : Instr → Byte
  | .nop          => 0x00#8
  | .cfgFrame _ _ => 0x01#8
  | .cfgAudio _   => 0x02#8
  | .brInit _ _   => 0x10#8
  | .brPeek _     => 0x11#8
  | .brConsume _  => 0x12#8
  | .brRefill     => 0x13#8
  | .vldHdr       => 0x20#8
  | .vldMb        => 0x21#8
  | .idctBlk _    => 0x30#8
  | .idctMb       => 0x31#8
  | .cscMb _ _    => 0x40#8
  | .adpcmInit    => 0x50#8
  | .adpcmDec _ _ => 0x51#8

/-- The A field of a command: its length or count in format SL, 0 in the others (R91). -/
def Instr.fieldA : Instr → BitVec 24
  | .brInit len _      => len
  | .adpcmDec groups _ => groups
  | .nop | .cfgFrame _ _ | .cfgAudio _ | .brPeek _ | .brConsume _ | .brRefill | .vldHdr | .vldMb
  | .idctBlk _ | .idctMb | .cscMb _ _ | .adpcmInit => 0#24

/-- The B field of a command (R91): 0 in format Z, the second coordinate above the first in format XY. -/
def Instr.fieldB : Instr → Word
  | .cfgFrame w h      => h ++ w
  | .cfgAudio channels => channels
  | .brInit _ base     => base
  | .brPeek n          => n
  | .brConsume n       => n
  | .idctBlk b         => b
  | .cscMb mbx mby     => mby ++ mbx
  | .adpcmDec _ base   => base
  | .nop | .brRefill | .vldHdr | .vldMb | .idctMb | .adpcmInit => 0#32

/-- The word of a command: OP, A and B from the most significant end (R90). -/
def encode (i : Instr) : CommandWord := (i.opcode ++ i.fieldA) ++ i.fieldB

/-! ### The host's question about one row of the opcode table -/

/-- The command this decoder reads from a word given as a number of `nbits` bits; every bit above them is 0. A
command is one 64-bit value with no byte order (R67), so there is nothing to lay out. -/
def decodeTableWord (nbits w : Nat) : Option Instr := (decode (BitVec.ofNat 64 (w % 2 ^ nbits))).command?

end Sys2Proof
end

