-- ==== Sys2Proof/Machine/Tables.lean ====
section
/-! DEFINITION. Reading the configuration's tables (R7, R101, R102, R107, R108), the decided zig-zag table (R107),
and the test configuration T0 of 95_test_vectors.md section 2. -/

namespace Sys2Proof

/-! ### Lookups

Each is total. Outside a well-formed configuration (R7, U8) a missing entry is INVALID, a missing step or index 0:
no statement rests on those values (log entry 11). -/

/-- An entry that is no code. -/
def TableEntry.none : TableEntry := { kind := .invalid, len := 0, run := 0, value := 0 }

/-- `TABLE_A[k]` (R101). -/
def Config.entryA (c : Config) (k : Nat) : TableEntry := c.tableA[k]?.getD TableEntry.none

/-- `TABLE_B[k]` (R102). -/
def Config.entryB (c : Config) (k : Nat) : TableEntry := c.tableB[k]?.getD TableEntry.none

/-- `ZIGZAG[k]` (R107). -/
def Config.zigzagAt (c : Config) (k : Nat) : Nat := c.zigzag[k]?.getD 0

/-- The legal quantisation scales (R7, R99). -/
def Config.qdom (c : Config) : List Nat := c.quant.map QuantTable.scale

/-- The steps of one plane. -/
def QuantTable.steps (t : QuantTable) : Plane → List Nat
  | .luma   => t.luma
  | .chroma => t.chroma

/-- `QSTEP(q, plane, k)` (R7, R108). -/
def Config.qstep (c : Config) (q : Nat) (p : Plane) (k : Nat) : Nat :=
  match c.quant.find? fun t => t.scale == q with
  | some t => (t.steps p)[k]?.getD 0
  | none   => 0

/-! ### The decided zig-zag scan (R107) -/

/-- The table of R107, eight scan positions a line. -/
def zigzagTable : List Nat :=
  [ 0,  1,  8, 16,  9,  2,  3, 10] ++
  [17, 24, 32, 25, 18, 11,  4,  5] ++
  [12, 19, 26, 33, 40, 48, 41, 34] ++
  [27, 20, 13,  6,  7, 14, 21, 28] ++
  [35, 42, 49, 56, 57, 50, 43, 36] ++
  [29, 22, 15, 23, 30, 37, 44, 51] ++
  [58, 59, 52, 45, 38, 31, 39, 46] ++
  [53, 60, 61, 54, 47, 55, 62, 63]

/-! ### The test configuration T0 (95_test_vectors.md section 2)

A fixture of the spec, "not a claim about the DDV format". It is the configuration of `State.reset` (log entry 1). -/

/-- `n` keys that stand for one PAIR entry. -/
def pairKeys (n len run : Nat) (value : Int) : List TableEntry :=
  List.replicate n { kind := .pair, len := len, run := run, value := value }

/-- T0's escape codes `0011rrrx`: run rrr + 1, the sentinel as value. -/
def t0Escapes : List TableEntry := (List.range 8).flatMap fun r => pairKeys 2 7 (r + 1) (-32768)

/-- T0's TABLE_A, one line of the spec's table after the other. -/
def t0TableA : List TableEntry :=
  List.replicate 32 TableEntry.none ++
  List.replicate 16 { kind := .escapePrefix, len := 4, run := 0, value := 0 } ++
  t0Escapes ++
  pairKeys 8 5 3 1 ++ pairKeys 8 5 3 (-1) ++
  pairKeys 8 5 2 1 ++ pairKeys 8 5 2 (-1) ++
  pairKeys 16 4 1 2 ++ pairKeys 16 4 1 (-2) ++
  pairKeys 64 2 0 0 ++
  pairKeys 32 3 1 1 ++ pairKeys 32 3 1 (-1)

/-- T0's TABLE_B: k = 0 to 62 are pairs of run floor(k / 2) + 1 and value 3 or −3, k = 63 is INVALID. -/
def t0TableB : List TableEntry :=
  ((List.range 63).flatMap fun k => pairKeys 1 6 (k / 2 + 1) (if k % 2 = 0 then 3 else -3)) ++ [TableEntry.none]

/-- T0's step tables: QDOM = {1, ..., 100}, step 8 at position 0 and q elsewhere, in both planes. -/
def t0Quant : List QuantTable :=
  (List.range 100).map fun i =>
    { scale := i + 1, luma := 8 :: List.replicate 63 (i + 1), chroma := 8 :: List.replicate 63 (i + 1) }

/-- The test configuration T0. -/
def Config.t0 : Config where
  tableA      := t0TableA
  wB          := 6
  tableB      := t0TableB
  escSentinel := -32768
  rawBits     := 10
  dcBits      := 10
  quant       := t0Quant
  zigzag      := zigzagTable
  ibufSize    := 4096
  pixSize     := 4096

end Sys2Proof
end

