-- ==== Sys2Proof/Machine/State.lean ====
section
/-! DEFINITION. The state of one MDB instance (10_state.md R20 to R32), the host's side of a run (45_system.md
R256 to R264), the reasons a step can stop, and the state after reset (R39). -/

namespace Sys2Proof.Machine

/-- A memory: the bytes that hold a value, as (offset, byte) pairs with strictly rising offsets. An unlisted
offset holds no value (20_memory.md R62, R63). -/
abbrev Memory := List Host.Cell

/-- One 8×8 block of 64 signed 32-bit elements (R21, R22). -/
abbrev Block := Vector Word 64

/-- VSTATE (R27, R140): the three named states of the source and an idle value. -/
inductive VldState where
  | idle
  | readRunValue
  | readEscape
  | endOfBlock
deriving DecidableEq, Repr

/-- CHANNELS (R29): 1 mono, 2 stereo. -/
inductive ChannelLayout where
  | mono
  | stereo
deriving DecidableEq, Repr

/-- What the host can do at the block's ports (45_system.md R256 to R263). -/
inductive HostMove where
  /-- Write a 64-bit word to the command port (R256). -/
  | issue (cw : CommandWord)
  /-- Write one byte of IBUF (R257). -/
  | writeIbuf (offset : Nat) (b : Byte)
  /-- Write control register `n`: CR11 stores (R258), CR12 acts (R262), the others ignore it (R259). -/
  | writeCr (n : Fin 16) (v : Word)
  /-- Read control register `n` (R259). -/
  | readCr (n : Fin 16)
  /-- Read one byte of PIX (R260). -/
  | readPix (offset : Nat)
  /-- Take up to `k` samples from the front of PCMOUT (R261). -/
  | drainPcm (k : Nat)
deriving DecidableEq, Repr

/-- What a host read returns. -/
inductive HostReply where
  | cr (v : Word)
  | pixel (b : Byte)
  | samples (l : List Half)
deriving DecidableEq, Repr

/-- The complete state of one instance (R20), its configuration (R7), and the model's own fields. -/
structure State where
  /-- The configuration record (R7): read-only, no step changes it (log entry 1). -/
  cfg : Config
  /-- COEF (R21). -/
  coef : Vector Block 6
  /-- SPAT (R22). -/
  spat : Vector Block 6
  /-- RESULT (R23). -/
  result : Word
  /-- CMDCNT (R24). -/
  cmdcnt : Word
  /-- BR_ACTIVE (R25). -/
  brActive : Bool
  /-- BR_BASE (R25). -/
  brBase : Word
  /-- BR_NBITS (R25). -/
  brNbits : Word
  /-- BITPOS (R25). -/
  bitpos : Word
  /-- ACC, hidden (R26). -/
  acc : BitVec 48
  /-- NVALID, hidden, 0 to 47 (R26). -/
  nvalid : Nat
  /-- WPTR, hidden (R26). -/
  wptr : Word
  /-- HDR_OK (R27). -/
  hdrOk : Bool
  /-- QSCALE (R27). -/
  qscale : Half
  /-- VSTATE (R27). -/
  vstate : VldState
  /-- BLK (R27). -/
  blk : BitVec 3
  /-- POS (R27). -/
  pos : BitVec 6
  /-- ACCNT (R27). -/
  accnt : BitVec 7
  /-- ESCRUN (R27). -/
  escrun : BitVec 6
  /-- FRAME_W (R28). -/
  frameW : Half
  /-- FRAME_H (R28). -/
  frameH : Half
  /-- CHANNELS (R29). -/
  channels : ChannelLayout
  /-- PREV1[0..1] (R29). -/
  prev1 : Vector Half 2
  /-- PREV2[0..1] (R29). -/
  prev2 : Vector Half 2
  /-- PCMCNT (R30). -/
  pcmcnt : Word
  /-- BUSY (R31). -/
  busy : Bool
  /-- ERR_CODE (R31): 0 when not faulted. -/
  errCode : Byte
  /-- ERR_CAUSE (R31). -/
  errCause : Byte
  /-- ERR_OP (R31). -/
  errOp : Byte
  /-- ERRCMD (R31). -/
  errCmd : Word
  /-- ERRINFO (R31). -/
  errInfo : Word
  /-- IBUF_LEN (R32). -/
  ibufLen : Word
  /-- IBUF (R60 to R62): the bytes the host wrote since reset. -/
  ibuf : Memory
  /-- PIX (R60, R63): the bytes CSC.MB wrote since reset. -/
  pix : Memory
  /-- PCMOUT (R60, R64), oldest sample first. -/
  pcmout : List Half
  /-- MODEL: the PIX offsets written since FRAME_W last changed, strictly rising (R63, R260; log entry 3). -/
  pixFresh : List Nat
  /-- MODEL: the host moved input under the active slice since BR.INIT (R323; log entry 7). -/
  sliceRewritten : Bool
  /-- MODEL: the number of soft resets, index of the arbitrary IBUF content (R62; log entry 2). -/
  ibufEpoch : Nat
  /-- MODEL: the index of the next free value a host read takes (log entries 3 and 4). -/
  freeNext : Nat
  /-- MODEL: the host's moves still to come (R263, R264; log entry 5). -/
  moves : List HostMove
  /-- MODEL: what the host's reads returned so far, oldest first (log entry 12). -/
  replies : List HostReply
deriving DecidableEq, Repr

/-- The reasons the model stops with a fault. No command raises one: the block's own exceptions are next states
(60_exceptions.md R280). -/
inductive Fault where
  /-- Raised by a host write of IBUF at an offset from IBUF_SIZE up, which does "not exist" (R257). Safe: the
  hardware has no such access (log entry 8). -/
  | noSuchIbufOffset
  /-- Raised by a host read of PIX at an offset from PIX_SIZE up (R60, R260). Safe (log entry 8). -/
  | noSuchPixOffset
deriving DecidableEq, Repr

/-- The reasons the model refuses a run. -/
inductive Refusal where
  /-- Raised by `exec` for an instruction that has no meaning yet. Safe. No arm uses it. -/
  | notModelled (mnemonic : String)
  /-- Raised by a command that uses the slice after the host rewrote its bytes or lowered IBUF_LEN below its end
  (R323: "a model refuses a run that does"). Safe (log entry 7). -/
  | sliceRewritten
  /-- Raised by a host write of IBUF or CR11 while BUSY = 1 (R322, refuse). Safe; BUSY = 1 is not reached. -/
  | inputWriteWhileBusy
  /-- Raised by a host drain of PCMOUT while BUSY = 1 (R328, refuse). Safe; BUSY = 1 is not reached. -/
  | drainWhileBusy
deriving DecidableEq, Repr

/-- What a step or a meaning answers. -/
abbrev StepResult := Host.Outcome State Fault Refusal

/-- The state after power-on of an instance with configuration `c` (R39, R310). -/
def State.resetWith (c : Config) : State where
  cfg := c
  coef := Vector.replicate 6 (Vector.replicate 64 0#32)
  spat := Vector.replicate 6 (Vector.replicate 64 0#32)
  result := 0#32
  cmdcnt := 0#32
  brActive := false
  brBase := 0#32
  brNbits := 0#32
  bitpos := 0#32
  acc := 0#48
  nvalid := 0
  wptr := 0#32
  hdrOk := false
  qscale := 0#16
  vstate := .idle
  blk := 0#3
  pos := 0#6
  accnt := 0#7
  escrun := 0#6
  frameW := 0#16
  frameH := 0#16
  channels := .stereo
  prev1 := Vector.replicate 2 0#16
  prev2 := Vector.replicate 2 0#16
  pcmcnt := 0#32
  busy := false
  errCode := 0#8
  errCause := 0#8
  errOp := 0#8
  errCmd := 0#32
  errInfo := 0#32
  ibufLen := 0#32
  ibuf := []
  pix := []
  pcmout := []
  pixFresh := []
  sliceRewritten := false
  ibufEpoch := 0
  freeNext := 0
  moves := []
  replies := []

/-- The state after reset (R39): an instance with the spec's test configuration T0, no host move placed yet
(log entries 1 and 5). -/
def State.reset : State := State.resetWith Config.t0

end Sys2Proof.Machine
end

