-- ==== Sys2Proof/Machine/Ops.lean ====
section
/-! DEFINITION. The named operations over memory and registers, the exceptions with their codes (60_exceptions.md
R270 to R276), taking one (R280), clearing it (R283), and the completion of a command (R256). -/

namespace Sys2Proof.Machine

/-! ### Memory: one canonical form -/

/-- The byte listed at offset `a`, if the offset holds a value. -/
def Memory.read? (m : Memory) (a : Nat) : Option Byte :=
  match m with
  | []          => none
  | (k, v) :: t => if a = k then some v else Memory.read? t a

/-- The memory with byte `b` at offset `a`. -/
def Memory.write (m : Memory) (a : Nat) (b : Byte) : Memory :=
  match m with
  | []          => [(a, b)]
  | (k, v) :: t =>
    if a < k then (a, b) :: (k, v) :: t
    else if a = k then (a, b) :: t
    else (k, v) :: Memory.write t a b

/-- The canonical form: offsets strictly rising. (An unlisted offset holds no value, so no entry can equal what an
unlisted offset reads as.) -/
def Memory.wf (m : Memory) : Bool :=
  match m with
  | []               => true
  | [_]              => true
  | (k, _) :: c :: t => k < c.1 && Memory.wf (c :: t)

/-- The rising list of offsets with `a` in it. -/
def offsetInsert (l : List Nat) (a : Nat) : List Nat :=
  match l with
  | []     => [a]
  | k :: t => if a < k then a :: k :: t else if a = k then k :: t else k :: offsetInsert t a

/-- `IbufRead(a)` (00_scope.md R10, 20_memory.md R66): the byte the host wrote there; the arbitrary content where
it wrote none since reset (R62, U4; log entry 2). -/
def State.ibufRead (s : State) (a : Nat) : Byte :=
  (Memory.read? s.ibuf a).getD (Config.freeIbufByte s.ibufEpoch a)

/-- `PixWrite(o, v)` (R10, R70): a plain store; the offset now holds a value for the host (R63). -/
def State.pixWrite (s : State) (o : Nat) (v : Byte) : State :=
  { s with pix := Memory.write s.pix o v, pixFresh := offsetInsert s.pixFresh o }

/-- `PcmEmit(s)` and the count of it (R10, R30, 44_adpcm.md R220). -/
def State.pcmEmit (s : State) (v : Half) : State :=
  { s with pcmout := s.pcmout ++ [v], pcmcnt := s.pcmcnt + 1#32 }

/-! ### Work arrays and predictors: signed registers (R21, R22, R29) -/

/-- Element `i` of a block, read as signed. -/
def blockGet (b : Block) (i : Nat) : Int := (b[i]?.getD 0#32).toInt

/-- `COEF[b]`. -/
def State.coefBlock (s : State) (b : Nat) : Block := s.coef[b]?.getD (Vector.replicate 64 0#32)

/-- `COEF[b][i]` (R21). -/
def State.coefAt (s : State) (b i : Nat) : Int := blockGet (s.coefBlock b) i

/-- `SPAT[b]`. -/
def State.spatBlock (s : State) (b : Nat) : Block := s.spat[b]?.getD (Vector.replicate 64 0#32)

/-- `SPAT[b][i]` (R22). -/
def State.spatAt (s : State) (b i : Nat) : Int := blockGet (s.spatBlock b) i

/-- `COEF[b][i] <- v`. -/
def State.setCoef (s : State) (b i : Nat) (v : Int) : State :=
  { s with coef := s.coef.setIfInBounds b ((s.coefBlock b).setIfInBounds i (BitVec.ofInt 32 v)) }

/-- `SPAT[b][i] <- S[i]` for i = 0..63. -/
def State.setSpatBlock (s : State) (b : Nat) (blk : Block) : State :=
  { s with spat := s.spat.setIfInBounds b blk }

/-- `PREV1[c]`, read as signed. -/
def State.prev1At (s : State) (c : Nat) : Int := (s.prev1[c]?.getD 0#16).toInt

/-- `PREV2[c]`, read as signed. -/
def State.prev2At (s : State) (c : Nat) : Int := (s.prev2[c]?.getD 0#16).toInt

/-- `PREV2[c] <- PREV1[c]; PREV1[c] <- v` (44_adpcm.md R220). -/
def State.pushPrev (s : State) (c : Nat) (v : Half) : State :=
  { s with
    prev2 := s.prev2.setIfInBounds c (s.prev1[c]?.getD 0#16)
    prev1 := s.prev1.setIfInBounds c v }

/-! ### Exceptions (R270 to R276) -/

/-- The exceptions a command can raise, one constructor per cause. UnsupportedFormat and AudioUnderflow are the
host's and never raised (R271). -/
inductive Exc where
  | eosBits | eosSlice | eosAudio
  | corruptCode | corruptAcCount | corruptAcPos | corruptBudget | corruptCoefRange | corruptQscale
  | corruptAdpcmRange
  | illegalOpcode | illegalReservedField
  | operandNRange | operandBlkRange | operandGroupsZero | operandChannels | operandFrameSize
  | sequenceBrInactive | sequenceNoHdr | sequenceHdrDone
deriving DecidableEq, Repr

/-- ERR_CODE of an exception (R270). -/
def excCode : Exc → Byte
  | .eosBits | .eosSlice | .eosAudio => 2#8
  | .corruptCode | .corruptAcCount | .corruptAcPos | .corruptBudget | .corruptCoefRange | .corruptQscale
  | .corruptAdpcmRange => 3#8
  | .illegalOpcode | .illegalReservedField => 5#8
  | .operandNRange | .operandBlkRange | .operandGroupsZero | .operandChannels | .operandFrameSize => 6#8
  | .sequenceBrInactive | .sequenceNoHdr | .sequenceHdrDone => 7#8

/-- ERR_CAUSE of an exception (R272 to R276). -/
def excCause : Exc → Byte
  | .eosBits              => 1#8
  | .eosSlice             => 2#8
  | .eosAudio             => 3#8
  | .corruptCode          => 1#8
  | .corruptAcCount       => 2#8
  | .corruptAcPos         => 3#8
  | .corruptBudget        => 4#8
  | .corruptCoefRange     => 5#8
  | .corruptQscale        => 6#8
  | .corruptAdpcmRange    => 7#8
  | .illegalOpcode        => 1#8
  | .illegalReservedField => 2#8
  | .operandNRange        => 1#8
  | .operandBlkRange      => 2#8
  | .operandGroupsZero    => 3#8
  | .operandChannels      => 4#8
  | .operandFrameSize     => 5#8
  | .sequenceBrInactive   => 1#8
  | .sequenceNoHdr        => 2#8
  | .sequenceHdrDone      => 3#8

/-- The exception of a word that does not decode (R94, R275). -/
def excOfIllegal : IllegalCause → Exc
  | .opcode        => .illegalOpcode
  | .reservedField => .illegalReservedField

/-- TAKING AN EXCEPTION: `Fault(E, cause, info)` of R280, for a command whose OP field is `op`. Nothing else is
saved or changed; what the command had written stays written, and CMDCNT is not incremented. -/
def State.takeFault (s : State) (op : Byte) (e : Exc) (info : Word) : State :=
  { s with
    errCode  := excCode e
    errCause := excCause e
    errOp    := op
    errCmd   := s.cmdcnt
    errInfo  := info
    busy     := false }

/-- The counterpart of a return: `ClearFault()` of R283, and nothing else. -/
def State.clearFault (s : State) : State :=
  { s with errCode := 0#8, errCause := 0#8, errOp := 0#8, errCmd := 0#32, errInfo := 0#32 }

/-- The completion of a command: `cmdcnt <- cmdcnt + 1`, modulo 2^32 (R24, R256). -/
def State.complete (s : State) : State := { s with cmdcnt := s.cmdcnt + 1#32 }

/-! ### A command's pseudocode: steps that go on or raise (R10) -/

/-- How a piece of a command's pseudocode ends: with a value and the state so far, or at a `raise E(cause, info)`
with the state as it then is ("no statement after it runs", R10). -/
inductive Flow (α : Type) where
  | ok (a : α) (s : State)
  | raised (e : Exc) (info : Word) (s : State)
deriving DecidableEq

/-- One piece after the other; a raise skips the rest. -/
def flowBind {α β : Type} (f : Flow α) (k : α → State → Flow β) : Flow β :=
  match f with
  | .ok a s          => k a s
  | .raised e info s => .raised e info s

/-- The end of a command whose OP field is `op`: `cmdcnt <- cmdcnt + 1`, or the fault (R256, R280). -/
def finish {α : Type} (op : Byte) (f : Flow α) : StepResult :=
  match f with
  | .ok _ s          => .next s.complete
  | .raised e info s => .next (s.takeFault op e info)

end Sys2Proof.Machine
end

