-- ==== Sys2Proof/Machine/Operands.lean ====
section
/-! DEFINITION. The number forms of R9, the addressing forms of 45_system.md R254, and the operand range checks of
60_exceptions.md R274. -/

namespace Sys2Proof.Machine

/-! ### Numbers (R9) -/

/-- `sext_N(v)`: an N-bit pattern read as two's complement. -/
def sext (n v : Nat) : Int := if v.testBit (n - 1) then (v : Int) - 2 ^ n else v

/-- `asr(v, s) = floor(v / 2^s)`. -/
def asr (v : Int) (s : Nat) : Int := v / 2 ^ s

/-- `clamp(v, lo, hi)`. -/
def clamp (v lo hi : Int) : Int := if v < lo then lo else if hi < v then hi else v

/-! ### Addressing forms (R254) -/

/-- IBUF offset of the low byte of word `k` of the slice (R65, R120). -/
def sliceWordOffset (s : State) (k : Nat) : Nat := s.brBase.toNat + 2 * k

/-- The IBUF offset just after the usable bits of the slice (R323: `BR_BASE + BR_NBITS / 8`). -/
def sliceEnd (s : State) : Nat := s.brBase.toNat + s.brNbits.toNat / 8

/-- IBUF offset of sound group `n` of `ADPCM.DEC base, groups` (R226). -/
def groupOffset (base : Word) (n : Nat) : Nat := base.toNat + 128 * n

/-- PIX offset of the first byte of the pixel at column `x` and row `y` (R63, R205). -/
def pixelOffset (s : State) (x y : Nat) : Nat := 4 * (y * s.frameW.toNat + x)

/-! ### Operand range checks: the complete list of R274 -/

/-- N_RANGE: `n > 32`. -/
def nOutOfRange (n : Word) : Bool := 32 < n.toNat

/-- BLK_RANGE: `b > 5`. -/
def blkOutOfRange (b : Word) : Bool := 5 < b.toNat

/-- GROUPS_ZERO: `groups = 0`. -/
def groupsZero (groups : BitVec 24) : Bool := groups.toNat = 0

/-- CHANNELS: the layout that an operand of 1 or 2 declares, none for every other value. -/
def channelsOf (channels : Word) : Option ChannelLayout :=
  if channels.toNat = 1 then some .mono
  else if channels.toNat = 2 then some .stereo
  else none

/-- FRAME_SIZE: `4 × w × h > PIX_SIZE`, on mathematical integers. -/
def frameTooLarge (s : State) (w h : Half) : Bool := s.cfg.pixSize < 4 * w.toNat * h.toNat

end Sys2Proof.Machine
end

