-- ==== Sys2Proof/Machine/Flags.lean ====
section
/-! DEFINITION. The block has no condition codes (10_state.md R38). What takes their place: the bits that gate a
command, the status images STATUS and ERR (R34, R35), the `irq` line (60_exceptions.md R285), and what the host
reads in CR0 to CR15 (R33). -/

namespace Sys2Proof.Machine

/-- "the block is faulted" means ERR_CODE ≠ 0 (R31). -/
def State.faulted (s : State) : Bool := s.errCode != 0#8

/-- The level of the output line `irq`: (ERR_CODE ≠ 0), the same as STATUS bit 1 (R285). -/
def State.irq (s : State) : Bool := s.faulted

/-- A command word is accepted when the block is neither busy nor faulted (45_system.md R256). -/
def State.accepts (s : State) : Bool := !s.busy && !s.faulted

/-- The 2-bit code of VSTATE (R27). -/
def vstateCode : VldState → BitVec 2
  | .idle         => 0#2
  | .readRunValue => 1#2
  | .readEscape   => 2#2
  | .endOfBlock   => 3#2

/-- CHANNELS − 1 (R34). -/
def channelsBit : ChannelLayout → BitVec 1
  | .mono   => 0#1
  | .stereo => 1#1

/-- CR1 STATUS (R34), from bit 31 down to bit 0. -/
def statusWord (s : State) : Word :=
  0#15 ++ channelsBit s.channels ++ 0#1 ++ s.pos ++ s.blk ++ vstateCode s.vstate ++ BitVec.ofBool s.hdrOk ++
    BitVec.ofBool s.brActive ++ BitVec.ofBool s.faulted ++ BitVec.ofBool s.busy

/-- CR2 ERR (R35), from bit 31 down to bit 0. -/
def errWord (s : State) : Word := 0#8 ++ s.errOp ++ s.errCause ++ s.errCode

/-- The value of control register `n` (R33): CR12 is write-only and reads 0; the last arm is CR15. -/
def readCr (s : State) (n : Fin 16) : Word :=
  match n.val with
  | 0  => 0x4D444201#32
  | 1  => statusWord s
  | 2  => errWord s
  | 3  => s.errCmd
  | 4  => s.errInfo
  | 5  => s.result
  | 6  => s.bitpos
  | 7  => s.cmdcnt
  | 8  => s.brNbits
  | 9  => s.qscale.setWidth 32
  | 10 => s.frameH ++ s.frameW
  | 11 => s.ibufLen
  | 12 => 0#32
  | 13 => (s.prev2[0] : Half) ++ (s.prev1[0] : Half)
  | 14 => (s.prev2[1] : Half) ++ (s.prev1[1] : Half)
  | _  => s.pcmcnt

/-- PCMOUT samples as a byte run: each sample low byte first (20_memory.md R64). -/
def pcmBytes : List Half → List Byte
  | []     => []
  | v :: t => v.extractLsb' 0 8 :: v.extractLsb' 8 8 :: pcmBytes t

end Sys2Proof.Machine
end

