-- ==== Sys2Proof/Machine/BitReader.lean ====
section
/-! DEFINITION. The BitReader: the bit sequence of a slice (40_bitreader.md R120), the primitives (R125), the hidden
accumulator (R126), and the four commands (R121 to R124). -/

namespace Sys2Proof.Machine

/-! ### The bit sequence of a slice (R65, R120) -/

/-- 16-bit little-endian word `k` of the slice. -/
def sliceWord (s : State) (k : Nat) : Half :=
  s.ibufRead (sliceWordOffset s k + 1) ++ s.ibufRead (sliceWordOffset s k)

/-- `Bit(i)`: most significant bit of a word first. -/
def sliceBit (s : State) (i : Nat) : Bool := (sliceWord s (i / 16)).getLsbD (15 - i % 16)

/-- `PadBit(i)`: zeros past the end of the slice (R125). -/
def padBit (s : State) (i : Nat) : Bool := if i < s.brNbits.toNat then sliceBit s i else false

/-- `Σ_{t=0}^{n−1} bit(start + t) × 2^(n−1−t)`: the first bit is the most significant. -/
def bitsValue (bit : Nat → Bool) (start n : Nat) : Nat :=
  match n with
  | 0     => 0
  | n + 1 => 2 * bitsValue bit start n + (bit (start + n)).toNat

/-! ### The hidden accumulator (R126) -/

/-- `NWORDS = BR_NBITS / 16`. -/
def sliceWords (s : State) : Nat := s.brNbits.toNat / 16

/-- `Pull()`: `ACC <- (ACC << 16) + w`, NVALID + 16, WPTR + 1. -/
def pull (s : State) : State :=
  { s with
    acc    := (s.acc <<< 16) + (sliceWord s s.wptr.toNat).setWidth 48
    nvalid := s.nvalid + 16
    wptr   := s.wptr + 1#32 }

/-- `if WPTR < NWORDS: Pull()`. -/
def pullIfWords (s : State) : State := if s.wptr.toNat < sliceWords s then pull s else s

/-- `Refill()`: acts only with fewer than 16 valid bits, and then pulls one word or two. -/
def refill (s : State) : State := if s.nvalid < 16 then pullIfWords (pullIfWords s) else s

/-- `while NVALID < n and WPTR < NWORDS: Pull()`; every pull adds 16 valid bits, so `fuel = n` rounds are enough. -/
def pullUntil (n fuel : Nat) (s : State) : State :=
  match fuel with
  | 0        => s
  | fuel + 1 => if s.nvalid < n ∧ s.wptr.toNat < sliceWords s then pullUntil n fuel (pull s) else s

/-- `Ensure(n)`. -/
def ensure (n : Nat) (s : State) : State := pullUntil n n (refill s)

/-- The value the accumulator form of `BrPeek(n)` gives: `(ACC >> (NVALID − n))[n−1:0]` once `Ensure(n)` has run
and NVALID ≥ n. No command uses it: R128 says it is the value of R125, which the commands take (log entry 18). -/
def accumulatorPeek (n : Nat) (s : State) : Nat :=
  ((ensure n s).acc >>> ((ensure n s).nvalid - n)).toNat % 2 ^ n

/-- `BITPOS <- BITPOS + n` with its effect on the hidden state, `NVALID <- NVALID − n; ACC <- ACC mod 2^NVALID`. -/
def State.advance (s : State) (n : Nat) : State :=
  { s with
    bitpos := s.bitpos + BitVec.ofNat 32 n
    nvalid := s.nvalid - n
    acc    := s.acc &&& (BitVec.ofNat 48 (2 ^ (s.nvalid - n) - 1)) }

/-! ### The primitives (R125)

Each runs `Ensure(n)` first (R126) and decides on the architectural state. `short` is what "fail" raises: in a
BitReader command UnexpectedEndOfStream (BITS), in a VLD command CorruptFrame (BUDGET, 41_vld.md R152), with info
BITPOS either way. -/

/-- The test of "fail": more bits asked for than remain. -/
def bitsShort (s : State) (n : Nat) : Bool := s.brNbits.toNat < s.bitpos.toNat + n

/-- `BrPeek(n)`. -/
def brPeek (short : Exc) (n : Nat) (s : State) : Flow Nat :=
  if bitsShort s n then .raised short s.bitpos (ensure n s)
  else .ok (bitsValue (sliceBit s) s.bitpos.toNat n) (ensure n s)

/-- `BrConsume(n)`. -/
def brConsume (short : Exc) (n : Nat) (s : State) : Flow Unit :=
  if bitsShort s n then .raised short s.bitpos (ensure n s)
  else .ok () ((ensure n s).advance n)

/-- `BrRead(n)`: a peek, then a consume of the same bits. -/
def brRead (short : Exc) (n : Nat) (s : State) : Flow Nat :=
  flowBind (brPeek short n s) fun v s1 => flowBind (brConsume short n s1) fun _ s2 => .ok v s2

/-- `BrPeekPad(n)`: the value; it never fails. -/
def peekPadValue (n : Nat) (s : State) : Nat := bitsValue (padBit s) s.bitpos.toNat n

/-! ### The commands -/

/-- A slice is needed: `if BR_ACTIVE = 0: raise SequenceError(BR_INACTIVE, info)`. -/
def needSlice (info : Word) (s : State) : Flow Unit :=
  if s.brActive then .ok () s else .raised .sequenceBrInactive info s

/-- The operand of BR.PEEK and BR.CONSUME: `if B > 32: raise BadOperand(N_RANGE, info = B)`. -/
def needCount (n : Word) (s : State) : Flow Unit :=
  if nOutOfRange n then .raised .operandNRange n s else .ok () s

/-- The slice bytes `base` to `base + len − 1` as BR.INIT sets them up; an odd last byte is dropped (R68). -/
def State.setSlice (s : State) (base : Word) (len : Nat) : State :=
  { s with
    brBase := base, brNbits := BitVec.ofNat 32 (16 * (len / 2)), bitpos := 0#32, brActive := true
    acc := 0#48, nvalid := 0, wptr := 0#32
    hdrOk := false, vstate := .idle, blk := 0#3, pos := 0#6, accnt := 0#7, escrun := 0#6
    sliceRewritten := false }

/-- `BR.INIT base, len` (R121). -/
def execBrInit (len : BitVec 24) (base : Word) (s : State) : StepResult :=
  finish (Instr.brInit len base).opcode <|
    if s.ibufLen.toNat < base.toNat + len.toNat then .raised .eosSlice base s
    else .ok () (s.setSlice base len.toNat)

/-- `BR.PEEK n` (R122). -/
def execBrPeek (n : Word) (s : State) : StepResult :=
  finish (Instr.brPeek n).opcode <|
    flowBind (needCount n s) fun _ s1 =>
    flowBind (needSlice n s1) fun _ s2 =>
    flowBind (brPeek .eosBits n.toNat s2) fun v s3 =>
    .ok () { s3 with result := BitVec.ofNat 32 v }

/-- `BR.CONSUME n` (R123). -/
def execBrConsume (n : Word) (s : State) : StepResult :=
  finish (Instr.brConsume n).opcode <|
    flowBind (needCount n s) fun _ s1 =>
    flowBind (needSlice n s1) fun _ s2 =>
    brConsume .eosBits n.toNat s2

/-- `BR.REFILL` (R124). -/
def execBrRefill (s : State) : StepResult :=
  finish Instr.brRefill.opcode <|
    flowBind (needSlice 0#32 s) fun _ s1 => .ok () (refill s1)

end Sys2Proof.Machine
end

