-- ==== Sys2Proof/Machine/Adpcm.lean ====
section
/-! DEFINITION. The ADPCM decompressor (44_adpcm.md R220 to R231, 30_encoding.md R110 to R113): ADPCM.INIT and
ADPCM.DEC. -/

namespace Sys2Proof.Machine

/-! ### The sound group (R110 to R113) -/

/-- `par(u)`: `G[4 + u]` for u ≤ 3, `G[8 + u]` for u ≥ 4, of the group at IBUF offset `g`. -/
def unitParam (s : State) (g u : Nat) : Byte := s.ibufRead (g + (if u ≤ 3 then 4 + u else 8 + u))

/-- `nib(u, i) = (G[16 + 4i + floor(u/2)] >> (4 × (u mod 2)))[3:0]`. -/
def unitNibble (s : State) (g u i : Nat) : BitVec 4 :=
  (s.ibufRead (g + 16 + 4 * i + u / 2)).extractLsb' (4 * (u % 2)) 4

/-- `range = p[3:0]` (R111). -/
def paramRange (p : Byte) : Nat := (p.extractLsb' 0 4).toNat

/-- `filter = p[5:4]` (R111); `p[7:6]` is ignored. -/
def paramFilter (p : Byte) : Nat := (p.extractLsb' 4 2).toNat

/-- K0 and K1 of a filter, in units of 1/64 (R113). -/
def filterK (filter : Nat) : Int × Int :=
  match filter with
  | 0 => (0, 0)
  | 1 => (60, 0)
  | 2 => (115, -52)
  | _ => (98, -55)

/-! ### Decoding (R220 to R223) -/

/-- `pred` of R220, from the channel's two last samples. -/
def predict (filter : Nat) (prev1 prev2 : Int) : Int :=
  asr ((filterK filter).1 * prev1 + (filterK filter).2 * prev2 + 32) 6

/-- The sample of R220: `clamp((sext_4(nib) << (12 − range)) + pred, −32768, 32767)`. -/
def sampleValue (p : Byte) (nib : BitVec 4) (prev1 prev2 : Int) : Int :=
  clamp (nib.toInt * 2 ^ (12 - paramRange p) + predict (paramFilter p) prev1 prev2) (-32768) 32767

/-- One sample of channel `c` (R220): the predictor takes the clamped sample, and it is emitted. -/
def State.adpcmSample (s : State) (c : Nat) (p : Byte) (nib : BitVec 4) : State :=
  (s.pushPrev c (BitVec.ofInt 16 (sampleValue p nib (s.prev1At c) (s.prev2At c)))).pcmEmit
    (BitVec.ofInt 16 (sampleValue p nib (s.prev1At c) (s.prev2At c)))

/-- The samples of a group in output order, as (channel, unit, sample index) (R222, R223): in stereo four unit
pairs, even unit left, odd unit right, interleaved; in mono the eight units one after the other. -/
def groupOrder : ChannelLayout → List (Nat × Nat × Nat)
  | .stereo => (List.range 4).flatMap fun pair => (List.range 28).flatMap fun i =>
      [(0, 2 * pair, i), (1, 2 * pair + 1, i)]
  | .mono   => (List.range 8).flatMap fun u => (List.range 28).map fun i => (0, u, i)

/-- `sample(channel c, unit u, i)` of the group at `g` (R221, R223). -/
def State.groupSample (g : Nat) (s : State) (k : Nat × Nat × Nat) : State :=
  s.adpcmSample k.1 (unitParam s g k.2.1) (unitNibble s g k.2.1 k.2.2)

/-- Some parameter byte of the group has a reserved range, 13 to 15 (R111). -/
def groupReserved (s : State) (g : Nat) : Bool := (List.range 8).any fun u => 12 < paramRange (unitParam s g u)

/-- `DecodeGroup(g)` (R223): all eight parameter bytes are checked before the first sample is emitted. -/
def decodeGroup (g : Nat) (s : State) : Flow Unit :=
  if groupReserved s g then .raised .corruptAdpcmRange (BitVec.ofNat 32 g) s
  else .ok () ((groupOrder s.channels).foldl (State.groupSample g) s)

/-- `for n = 0 to A − 1: DecodeGroup(B + 128 × n)` (R226), from offset `g` on, `count` groups to go. -/
def decodeGroups (count g : Nat) (s : State) : Flow Unit :=
  match count with
  | 0         => .ok () s
  | count + 1 => flowBind (decodeGroup g s) fun _ s1 => decodeGroups count (g + 128) s1

/-! ### The commands -/

/-- `ADPCM.DEC base, groups` (R226): groups decoded before a raise stay decoded (R229). -/
def execAdpcmDec (groups : BitVec 24) (base : Word) (s : State) : StepResult :=
  finish (Instr.adpcmDec groups base).opcode <|
    if groupsZero groups then .raised .operandGroupsZero base s
    else if s.ibufLen.toNat < groupOffset base groups.toNat then .raised .eosAudio base s
    else decodeGroups groups.toNat (groupOffset base 0) s

/-- The predictors of a new stream (R227). -/
def State.zeroPredictors (s : State) : State :=
  { s with prev1 := Vector.replicate 2 0#16, prev2 := Vector.replicate 2 0#16 }

/-- `ADPCM.INIT` (R227). -/
def execAdpcmInit (s : State) : StepResult := finish Instr.adpcmInit.opcode (.ok () s.zeroPredictors : Flow Unit)

end Sys2Proof.Machine
end

