-- ==== Sys2Proof/Machine/Csc.lean ====
section
/-! DEFINITION. Colour conversion (43_csc.md R200 to R208): CSC.MB. -/

namespace Sys2Proof.Machine

/-! ### Geometry (R200, R201) -/

/-- `Ysamp(px, py)`: the luma blocks in raster order. -/
def ySample (s : State) (px py : Nat) : Int := s.spatAt (2 * (py / 8) + px / 8) (8 * (py % 8) + px % 8)

/-- `Cbsamp(px, py)`: each chroma sample covers a 2×2 square of pixels. -/
def cbSample (s : State) (px py : Nat) : Int := s.spatAt 4 (8 * (py / 2) + px / 2)

/-- `Crsamp(px, py)`. -/
def crSample (s : State) (px py : Nat) : Int := s.spatAt 5 (8 * (py / 2) + px / 2)

/-! ### Arithmetic (R202 to R204) -/

/-- `clamp(asr(sum + 32768, 16), 0, 255)` as a byte. -/
def channelByte (sum : Int) : Byte := BitVec.ofInt 8 (clamp (asr (sum + 32768) 16) 0 255)

/-- R of R203. -/
def redByte (y _cb cr : Int) : Byte := channelByte (y * 65536 + 91881 * cr)

/-- G of R203. -/
def greenByte (y cb cr : Int) : Byte := channelByte (y * 65536 - 22544 * cb - 46793 * cr)

/-- B of R203. -/
def blueByte (y cb _cr : Int) : Byte := channelByte (y * 65536 + 116130 * cb)

/-- ALPHA (R6, R204). -/
def alphaByte : Byte := 255#8

/-! ### Writing and clipping (R205, R206) -/

/-- The four bytes of one pixel at PIX offset `o`. -/
def State.storePixel (s : State) (o : Nat) (y cb cr : Int) : State :=
  (((s.pixWrite o (redByte y cb cr)).pixWrite (o + 1) (greenByte y cb cr)).pixWrite (o + 2)
    (blueByte y cb cr)).pixWrite (o + 3) alphaByte

/-- Macroblock pixel (px, py) of the macroblock at grid coordinates (mbx, mby): written if and only if it lies in
the frame. -/
def State.cscPixel (s : State) (mbx mby px py : Nat) : State :=
  if 16 * mbx + px < s.frameW.toNat ∧ 16 * mby + py < s.frameH.toNat then
    s.storePixel (pixelOffset s (16 * mbx + px) (16 * mby + py)) (ySample s px py) (cbSample s px py)
      (crSample s px py)
  else s

/-- The 256 pixels in the order of R206: py outer, px inner. -/
def State.cscMacroblock (s : State) (mbx mby : Nat) : State :=
  (List.range 256).foldl (fun s k => s.cscPixel mbx mby (k % 16) (k / 16)) s

/-- `CSC.MB mbx, mby` (R206). -/
def execCscMb (mbx mby : Half) (s : State) : StepResult :=
  finish (Instr.cscMb mbx mby).opcode (.ok () (s.cscMacroblock mbx.toNat mby.toNat) : Flow Unit)

end Sys2Proof.Machine
end

