-- ==== Sys2Proof/Machine/Idct.lean ====
section
/-! DEFINITION. The inverse DCT (42_idct.md R180 to R187): IDCT.BLK and IDCT.MB. Both passes are computed on
mathematical integers, as R185 allows. -/

namespace Sys2Proof.Machine

/-- The constant matrix K of R180, row x, column u. -/
def idctTable : List (List Int) :=
  [[2896,  4017,  3784,  3406,  2896,  2276,  1567,   799],
   [2896,  3406,  1567,  -799, -2896, -4017, -3784, -2276],
   [2896,  2276, -1567, -4017, -2896,   799,  3784,  3406],
   [2896,   799, -3784, -2276,  2896,  3406, -1567, -4017]] ++
  [[2896,  -799, -3784,  2276,  2896, -3406, -1567,  4017],
   [2896, -2276, -1567,  4017, -2896,  -799,  3784, -3406],
   [2896, -3406,  1567,   799, -2896,  4017, -3784,  2276],
   [2896, -4017,  3784, -3406,  2896, -2276,  1567,  -799]]

/-- `K[x][u]`. -/
def idctK (x u : Nat) : Int := (idctTable[x]?.getD [])[u]?.getD 0

/-- `Σ_{j=0}^{7} f(j)`. -/
def sum8 (f : Nat → Int) : Int := f 0 + f 1 + f 2 + f 3 + f 4 + f 5 + f 6 + f 7

/-- `T[8v + x]` of the row pass over the coefficients `F` (R181): shift 9, rounding constant 2^8. -/
def idctRow (F : Nat → Int) (v x : Nat) : Int := asr (sum8 (fun u => idctK x u * F (8 * v + u)) + 256) 9

/-- `S[8y + x]` of the column pass over T (R182): shift 17, rounding constant 2^16. -/
def idctCol (T : Nat → Nat → Int) (y x : Nat) : Int := asr (sum8 (fun v => idctK y v * T v x) + 65536) 17

/-- The sample at row `y`, column `x` of the transform of `F`. -/
def idctSample (F : Nat → Int) (y x : Nat) : Int := idctCol (idctRow F) y x

/-- The 64-sample spatial block of a coefficient block, row-major. -/
def idctBlock (blk : Block) : Block :=
  Vector.ofFn fun i : Fin 64 => BitVec.ofInt 32 (idctSample (blockGet blk) (i.val / 8) (i.val % 8))

/-- `SPAT[b] <-` column pass of row pass of `COEF[b]` (R183). -/
def State.transform (s : State) (b : Nat) : State := s.setSpatBlock b (idctBlock (s.coefBlock b))

/-- `IDCT.BLK b` (R183). -/
def execIdctBlk (b : Word) (s : State) : StepResult :=
  finish (Instr.idctBlk b).opcode <|
    if blkOutOfRange b then .raised .operandBlkRange b s
    else .ok () (s.transform b.toNat)

/-- `IDCT.MB` (R184). -/
def execIdctMb (s : State) : StepResult :=
  finish Instr.idctMb.opcode (.ok () ([0, 1, 2, 3, 4, 5].foldl State.transform s) : Flow Unit)

end Sys2Proof.Machine
end

