-- ==== Sys2Proof/Machine/System.lean ====
section
/-! DEFINITION. The system commands NOP, CFG.FRAME and CFG.AUDIO (45_system.md R250 to R252). -/

namespace Sys2Proof.Machine

/-- `NOP` (R250). -/
def execNop (s : State) : StepResult := finish Instr.nop.opcode (.ok () s : Flow Unit)

/-- The frame size as CFG.FRAME declares it. PIX is not cleared or rewritten (R251); when FRAME_W changes, no byte
written before holds a value for the host any more (R63, R329). -/
def State.setFrame (s : State) (w h : Half) : State :=
  { s with
    frameW   := w
    frameH   := h
    pixFresh := if w = s.frameW then s.pixFresh else [] }

/-- `CFG.FRAME w, h` (R251). -/
def execCfgFrame (w h : Half) (s : State) : StepResult :=
  finish (Instr.cfgFrame w h).opcode <|
    if frameTooLarge s w h then .raised .operandFrameSize (h ++ w) s
    else .ok () (s.setFrame w h)

/-- `CFG.AUDIO channels` (R252). -/
def execCfgAudio (channels : Word) (s : State) : StepResult :=
  finish (Instr.cfgAudio channels).opcode <|
    match channelsOf channels with
    | none   => .raised .operandChannels channels s
    | some c => .ok () { s with channels := c }

end Sys2Proof.Machine
end

