-- ==== Sys2Proof/Machine/Vld.lean ====
section
/-! DEFINITION. The entropy decoder (41_vld.md R140 to R156): VLD.HDR and VLD.MB. Inside it a BitReader primitive
that fails raises CorruptFrame with cause BUDGET (R152). -/

namespace Sys2Proof.Machine

/-- What "fail" raises in a VLD command (R152). -/
def vldShort : Exc := .corruptBudget

/-! ### The header (R141) -/

/-- `VLD.HDR`: nothing but the fault registers and the hidden accumulator changes before every test has passed. -/
def execVldHdr (s : State) : StepResult :=
  finish Instr.vldHdr.opcode <|
    flowBind (needSlice 0#32 s) fun _ s1 =>
    if s1.hdrOk then .raised .sequenceHdrDone 0#32 s1
    else
      flowBind (brPeek vldShort 16 s1) fun q s2 =>
      if q ∈ s2.cfg.qdom then
        flowBind (brConsume vldShort 16 s2) fun _ s3 =>
        .ok () { s3 with qscale := BitVec.ofNat 16 q, hdrOk := true }
      else .raised .corruptQscale (BitVec.ofNat 32 q) s2

/-! ### The steps of a block (R143 to R150) -/

/-- LUMA if b ≤ 3, else CHROMA (R142). -/
def planeOf (b : Nat) : Plane := if b ≤ 3 then .luma else .chroma

/-- `Deq(v, plane, k)` (R150): the plain product on mathematical integers. -/
def deq (s : State) (v : Int) (p : Plane) (k : Nat) : Int := v * s.cfg.qstep s.qscale.toNat p k

/-- `COEF[b][i] <- Deq(v, plane, k)`, or COEF_RANGE when no 16-bit register can hold it (R150). -/
def storeDeq (b i : Nat) (v : Int) (p : Plane) (k : Nat) (s : State) : Flow Unit :=
  if deq s v p k < -32768 ∨ 32767 < deq s v p k then .raised .corruptCoefRange s.bitpos s
  else .ok () (s.setCoef b i (deq s v p k))

/-- `StartBlock(b, plane)` (R143). -/
def startBlock (b : Nat) (p : Plane) (s : State) : Flow Unit :=
  flowBind (brRead vldShort s.cfg.dcBits s) fun dc s1 =>
  storeDeq b 0 (sext s1.cfg.dcBits dc) p 0 s1

/-- One level of a code: look `bits` bits up, zero-padded, in a table, and consume the entry's `len` (R144). The
entry is examined before its length is consumed: INVALID raises CODE. -/
def lookupCode (bits : Nat) (entry : Nat → TableEntry) (s : State) : Flow TableEntry :=
  match (entry (peekPadValue bits s)).kind with
  | .invalid => .raised .corruptCode s.bitpos (ensure bits s)
  | .pair | .escapePrefix =>
    flowBind (brConsume vldShort (entry (peekPadValue bits s)).len (ensure bits s)) fun _ s1 =>
    .ok (entry (peekPadValue bits s)) s1

/-- `DecodePair()`, state ReadRunValue (R144): table A, and table B behind a prefix. -/
def decodePair (s : State) : Flow TableEntry :=
  flowBind (lookupCode 8 s.cfg.entryA s) fun eA s1 =>
  match eA.kind with
  | .escapePrefix => lookupCode s1.cfg.wB s1.cfg.entryB s1
  | .pair | .invalid => .ok eA s1

/-- `ReadEscape(run)`, state ReadEscape (R147): the one raw code that replaces an escape sentinel. -/
def readEscape (run : Nat) (s : State) : Flow Int :=
  flowBind (brRead vldShort s.cfg.rawBits { s with vstate := .readEscape, escrun := BitVec.ofNat 6 run }) fun v s1 =>
  .ok (sext s1.cfg.rawBits v) { s1 with vstate := .readRunValue }

/-- `Place(b, plane, run, value)` (R146): AC_COUNT is tested before AC_POS. -/
def place (b : Nat) (p : Plane) (run : Nat) (value : Int) (s : State) : Flow Unit :=
  let s1 := { s with accnt := s.accnt + 1#7 }
  if 63 < s1.accnt.toNat then .raised .corruptAcCount s1.bitpos s1
  else if 63 < s1.pos.toNat + run then .raised .corruptAcPos s1.bitpos s1
  else
    let s2 := { s1 with pos := BitVec.ofNat 6 (s1.pos.toNat + run) }
    storeDeq b (s2.cfg.zigzagAt s2.pos.toNat) value p s2.pos.toNat s2

/-- The value of a pair whose run is not 0: the table's, or the raw code's behind the escape sentinel (R145). -/
def pairValue (e : TableEntry) (s : State) : Flow Int :=
  if e.value = s.cfg.escSentinel then readEscape e.run s else .ok e.value s

/-- One round of the loop of R142, from ReadRunValue (R140, R145): `true` when the block has ended (EndOfBlock),
`false` when a coefficient was placed. -/
def oneCode (b : Nat) (p : Plane) (s : State) : Flow Bool :=
  flowBind (decodePair s) fun e s1 =>
  if e.run = 0 then .ok true { s1 with vstate := .endOfBlock }
  else
    flowBind (pairValue e s1) fun v s2 =>
    flowBind (place b p e.run v s2) fun _ s3 => .ok false s3

/-- The loop of R142 with room for `room` more coefficients: with none left, the next code either ends the block or
raises (AC_COUNT, R146, R151), so the recursion needs no other end. -/
def codeLoop (b : Nat) (p : Plane) (room : Nat) (s : State) : Flow Unit :=
  match room with
  | 0        => flowBind (oneCode b p s) fun _ s1 => .ok () s1
  | room + 1 => flowBind (oneCode b p s) fun ended s1 => if ended then .ok () s1 else codeLoop b p room s1

/-- The registers at the start of block `b` (R142). -/
def State.openBlock (s : State) (b : Nat) : State :=
  { s with blk := BitVec.ofNat 3 b, pos := 0#6, accnt := 0#7, escrun := 0#6, vstate := .readRunValue }

/-- One block: at most 63 coefficients (MAX_AC) after the DC. -/
def decodeBlock (b : Nat) (s : State) : Flow Unit :=
  flowBind (startBlock b (planeOf b) (s.openBlock b)) fun _ s1 => codeLoop b (planeOf b) 63 s1

/-- The blocks of a list, one after the other. -/
def decodeBlocks (bs : List Nat) (s : State) : Flow Unit :=
  match bs with
  | []      => .ok () s
  | b :: bs => flowBind (decodeBlock b s) fun _ s1 => decodeBlocks bs s1

/-- Zero fill (R149). -/
def State.clearCoef (s : State) : State := { s with coef := Vector.replicate 6 (Vector.replicate 64 0#32) }

/-- `VLD.MB` (R142): what it had written when it raised stays written (R153). -/
def execVldMb (s : State) : StepResult :=
  finish Instr.vldMb.opcode <|
    flowBind (needSlice 0#32 s) fun _ s1 =>
    if s1.hdrOk then decodeBlocks [0, 1, 2, 3, 4, 5] s1.clearCoef
    else .raised .sequenceNoHdr 0#32 s1

end Sys2Proof.Machine
end

