-- ==== Sys2Proof/Machine/Dispatch.lean ====
section
/-! DEFINITION. `exec`: one arm per command of the opcode map (30_encoding.md R92). -/

namespace Sys2Proof.Machine

/-- The meaning of an accepted command (45_system.md R256: "run the command's rule"). -/
def exec (i : Instr) (s : State) : Host.Outcome State Fault Refusal :=
  match i with
  | .nop => Sys2Proof.Machine.execNop s
  | .cfgFrame w h => Sys2Proof.Machine.execCfgFrame w h s
  | .cfgAudio channels => Sys2Proof.Machine.execCfgAudio channels s
  | .brInit len base => Sys2Proof.Machine.execBrInit len base s
  | .brPeek n => Sys2Proof.Machine.execBrPeek n s
  | .brConsume n => Sys2Proof.Machine.execBrConsume n s
  | .brRefill => Sys2Proof.Machine.execBrRefill s
  | .vldHdr => Sys2Proof.Machine.execVldHdr s
  | .vldMb => Sys2Proof.Machine.execVldMb s
  | .idctBlk b => Sys2Proof.Machine.execIdctBlk b s
  | .idctMb => Sys2Proof.Machine.execIdctMb s
  | .cscMb mbx mby => Sys2Proof.Machine.execCscMb mbx mby s
  | .adpcmInit => Sys2Proof.Machine.execAdpcmInit s
  | .adpcmDec groups base => Sys2Proof.Machine.execAdpcmDec groups base s

end Sys2Proof.Machine
end

