-- ==== Sys2Proof/Machine/HostPort.lean ====
section
/-! DEFINITION. The host's moves (45_system.md R256 to R263): issuing a command word, loading input, the control
registers, reading pixels, draining PCM, reset (70_reset_and_hazards.md R310) and fault clear (R283). -/

namespace Sys2Proof.Machine

/-! ### Issuing a command (R256) -/

/-- Whether a command, in this state, goes on to use the bits of the active slice: what R323 speaks of. A command
that is turned away before it looks at the slice (R274, R276) does not. -/
def usesSlice (s : State) : Instr → Bool
  | .brPeek n    => s.brActive && !nOutOfRange n
  | .brConsume n => s.brActive && !nOutOfRange n
  | .brRefill    => s.brActive
  | .vldHdr      => s.brActive && !s.hdrOk
  | .vldMb       => s.brActive && s.hdrOk
  | .nop | .cfgFrame _ _ | .cfgAudio _ | .brInit _ _ | .idctBlk _ | .idctMb | .cscMb _ _ | .adpcmInit
  | .adpcmDec _ _ => false

/-- `BUSY <- 0` at the end of `Issue`. -/
def settle (r : StepResult) : StepResult :=
  match r with
  | .next s    => .next { s with busy := false }
  | .fault f   => .fault f
  | .refused x => .refused x

/-- `Issue(cw)` (R256): dropped when busy or faulted, else BUSY, decode (R95), and the fault of an illegal word
(R275) or the command's rule. A run in which a command uses a slice whose input the host moved is refused
(R323). -/
def issue (cw : CommandWord) (s : State) : StepResult :=
  if s.accepts then
    match decode cw with
    | .illegal c => settle (.next ({ s with busy := true }.takeFault (cwOp cw) (excOfIllegal c) (cwB cw)))
    | .command i =>
      if s.sliceRewritten && usesSlice s i then .refused .sliceRewritten
      else settle (exec i { s with busy := true })
  else .next s

/-! ### Input (R257, R258) -/

/-- The host's write of one IBUF byte. A write inside the active slice is what R323 forbids before a later use. -/
def State.loadByte (s : State) (offset : Nat) (b : Byte) : State :=
  { s with
    ibuf := Memory.write s.ibuf offset b
    sliceRewritten := s.sliceRewritten || (s.brActive && s.brBase.toNat ≤ offset && offset < sliceEnd s) }

/-- Load input (R257): no such offset from IBUF_SIZE up; not while busy (R322). -/
def hostWriteIbuf (offset : Nat) (b : Byte) (s : State) : StepResult :=
  if s.busy then .refused .inputWriteWhileBusy
  else if offset < s.cfg.ibufSize then .next (s.loadByte offset b)
  else .fault .noSuchIbufOffset

/-- A value above IBUF_SIZE stores IBUF_SIZE (R32). -/
def cappedLength (s : State) (v : Word) : Word :=
  if s.cfg.ibufSize < v.toNat then BitVec.ofNat 32 s.cfg.ibufSize else v

/-- `IBUF_LEN <- n`. Lowering it below the end of the active slice is what R323 forbids before a later use. -/
def State.declareLength (s : State) (n : Word) : State :=
  { s with
    ibufLen := n
    sliceRewritten :=
      s.sliceRewritten || (s.brActive && n.toNat < s.ibufLen.toNat && n.toNat < sliceEnd s) }

/-- Declare input length (R258): a write of CR11, not while busy (R322). -/
def hostDeclareLength (v : Word) (s : State) : StepResult :=
  if s.busy then .refused .inputWriteWhileBusy else .next (s.declareLength (cappedLength s v))

/-! ### Reset and CTRL (R36, R262, R283, R310) -/

/-- Reset by SRST (R310): every piece of state takes its value of R39. The configuration is no state (R311); the
host's side of the run goes on; IBUF gets another arbitrary content (log entries 2 and 16). -/
def State.softReset (s : State) : State :=
  { State.resetWith s.cfg with
    ibufEpoch := s.ibufEpoch + 1
    freeNext  := s.freeNext
    moves     := s.moves
    replies   := s.replies }

/-- A write of CR12 CTRL (R36): bit 0 SRST wins over bit 1 CLRERR; honoured also while busy or faulted. -/
def State.writeCtrl (s : State) (v : Word) : State :=
  if v.getLsbD 0 then s.softReset else if v.getLsbD 1 then s.clearFault else s

/-- A host write of control register `n`: CR11 stores, CR12 acts, every other one is read-only and ignores it
(R33, R259). -/
def hostWriteCr (n : Fin 16) (v : Word) (s : State) : StepResult :=
  if n = 11 then hostDeclareLength v s
  else if n = 12 then .next (s.writeCtrl v)
  else .next s

/-! ### Reads (R259 to R261) -/

/-- The reply reaches the host. -/
def State.reply (s : State) (r : HostReply) : State := { s with replies := s.replies ++ [r] }

/-- The reply is a free value: the next read of an undefined value takes another. -/
def State.replyFree (s : State) (r : HostReply) : State :=
  { s with replies := s.replies ++ [r], freeNext := s.freeNext + 1 }

/-- Read a control register (R37, R259): STATUS at any time; any other while BUSY = 1 gives an unspecified
value (log entry 4). A read changes no register. -/
def hostReadCr (n : Fin 16) (s : State) : StepResult :=
  if s.busy && n != 1 then .next (s.replyFree (.cr (Config.freeCrWord s.freeNext)))
  else .next (s.reply (.cr (readCr s n)))

/-- The byte of PIX that holds a defined value for the host: written since reset and since FRAME_W last changed
(R63, R260). -/
def State.pixDefined? (s : State) (offset : Nat) : Option Byte :=
  if s.pixFresh.contains offset then Memory.read? s.pix offset else none

/-- Read pixels (R260): no defined value where none is defined, nor while busy (R73; log entry 3). -/
def hostReadPix (offset : Nat) (s : State) : StepResult :=
  if offset < s.cfg.pixSize then
    match (if s.busy then none else s.pixDefined? offset) with
    | some b => .next (s.reply (.pixel b))
    | none   => .next (s.replyFree (.pixel (Config.freePixByte s.freeNext)))
  else .fault .noSuchPixOffset

/-- Drain PCM (R261): up to `k` samples from the front, in order; PCMCNT counts appends and stays. -/
def hostDrainPcm (k : Nat) (s : State) : StepResult :=
  if s.busy then .refused .drainWhileBusy
  else .next ({ s with pcmout := s.pcmout.drop k }.reply (.samples (s.pcmout.take k)))

/-! ### One move -/

/-- The move `m` of the host. -/
def hostMove (m : HostMove) (s : State) : StepResult :=
  match m with
  | .issue cw           => issue cw s
  | .writeIbuf offset b => hostWriteIbuf offset b s
  | .writeCr n v        => hostWriteCr n v s
  | .readCr n           => hostReadCr n s
  | .readPix offset     => hostReadPix offset s
  | .drainPcm k         => hostDrainPcm k s

/-- The next move of the run. With none left nothing changes: "nothing but a host move changes" the state
(60_exceptions.md R294), and a run ends when the host stops (R264; log entry 5). -/
def runHost (s : State) : StepResult :=
  match s.moves with
  | []      => .next s
  | m :: ms => hostMove m { s with moves := ms }

/-- The state in which the very next host move issues `cw` and the block accepts it and runs it. -/
def State.placeWord (s : State) (cw : CommandWord) : State :=
  { s with moves := .issue cw :: s.moves, busy := false, errCode := 0#8, sliceRewritten := false }

end Sys2Proof.Machine
end

