-- ==== Sys2Proof/Machine/Step.lean ====
section
/-! DEFINITION. One step of the machine: one host move, a command being one atomic step (20_memory.md R73,
70_reset_and_hazards.md R334). -/

namespace Sys2Proof.Machine

/-- One step (log entries 5 and 6). -/
def step (s : State) : Host.Outcome State Fault Refusal := runHost s

/-- `s` with the command word `w` (a number of `nbits` bits, the bits above them 0) as the host's next move, and the
block ready to accept it: not busy, not faulted, and the input of its slice in place. -/
def State.withFetchWord (s : State) (nbits w : Nat) : State := s.placeWord (BitVec.ofNat 64 (w % 2 ^ nbits))

end Sys2Proof.Machine
end

