-- ==== Sys2Proof/Machine/Bitstream.lean ====
section
/-! DEFINITION. The video bitstream as a writer of it (30_encoding.md R98 to R104): the bits of a code, a block and a
macroblock, and the coefficients they stand for. The entropy decoder never uses this file; the claims compare the two. -/

namespace Sys2Proof.Machine

/-- The first `len` bits of the `width`-bit number `key`, first bit of the stream first (R101). -/
def keyBits (width len key : Nat) : List Bool := (List.range len).map fun i => key.testBit (width - 1 - i)

/-- One code of the stream: a key of table A, behind an escape prefix a key of table B (R101, R102), and the raw
code that follows when the pair's value is the escape sentinel (R103). -/
structure CodedPair where
  keyA : Nat
  keyB : Nat
  raw  : Nat
deriving DecidableEq, Repr

/-- The code has a second level (R102). -/
def hasPrefix (c : Config) (p : CodedPair) : Bool := (c.entryA p.keyA).kind == .escapePrefix

/-- The entry the code decodes to. -/
def codeEntry (c : Config) (p : CodedPair) : TableEntry :=
  if hasPrefix c p then c.entryB p.keyB else c.entryA p.keyA

/-- The keys exist and stand for codes. -/
def codeLegal (c : Config) (p : CodedPair) : Bool :=
  p.keyA < 256 && (c.entryA p.keyA).kind != .invalid && (!hasPrefix c p || p.keyB < 2 ^ c.wB) &&
    (codeEntry c p).kind == .pair

/-- `codeA | prefixA codeB` (R98). -/
def codeBits (c : Config) (p : CodedPair) : List Bool :=
  keyBits 8 (c.entryA p.keyA).len p.keyA ++
    (if hasPrefix c p then keyBits c.wB (c.entryB p.keyB).len p.keyB else [])

/-- The pair's value is the escape sentinel, so a raw code follows (R103). -/
def hasRaw (c : Config) (p : CodedPair) : Bool := (codeEntry c p).value == c.escSentinel

/-- `pair := code [raw]` (R98). -/
def pairBits (c : Config) (p : CodedPair) : List Bool :=
  codeBits c p ++ (if hasRaw c p then keyBits c.rawBits c.rawBits p.raw else [])

/-- The value a pair stands for (R103). -/
def pairNumber (c : Config) (p : CodedPair) : Int :=
  if hasRaw c p then sext c.rawBits p.raw else (codeEntry c p).value

/-- A block of the stream: its DC field, its pairs, its end-of-block code (R98). -/
structure CodedBlock where
  dc    : Nat
  pairs : List CodedPair
  eob   : CodedPair
deriving DecidableEq, Repr

/-- The part of a block before its end-of-block code: `DC pair*` (R98, R100). -/
def startBits (c : Config) (b : CodedBlock) : List Bool :=
  keyBits c.dcBits c.dcBits b.dc ++ b.pairs.flatMap (pairBits c)

/-- `block := DC pair* eob` (R98). -/
def blockBits (c : Config) (b : CodedBlock) : List Bool := startBits c b ++ codeBits c b.eob

/-- `macroblock := block block block block block block` (R98): the bits of a list of blocks. -/
def blocksBits (c : Config) (bs : List CodedBlock) : List Bool := bs.flatMap (blockBits c)

/-- The scan positions of the pairs after position `pos`, each with its value: a run is the distance from the
coefficient before (R146). -/
def placedFrom (c : Config) (pos : Nat) : List CodedPair → List (Nat × Int)
  | []      => []
  | p :: ps => (pos + (codeEntry c p).run, pairNumber c p) :: placedFrom c (pos + (codeEntry c p).run) ps

/-- Every coefficient of a block by scan position, quantised: the DC at position 0, then the pairs. -/
def blockPlaced (c : Config) (b : CodedBlock) : List (Nat × Int) :=
  (0, sext c.dcBits b.dc) :: placedFrom c 0 b.pairs

/-- The coefficient a block has at row-major index `i`: dequantised where the stream names the position, 0
elsewhere (R149, R150). -/
def blockCoef (c : Config) (q : Nat) (pl : Plane) (b : CodedBlock) (i : Nat) : Int :=
  match (blockPlaced c b).find? fun kv => c.zigzagAt kv.1 == i with
  | some kv => kv.2 * c.qstep q pl kv.1
  | none    => 0

/-- The scan position a block ends at. -/
def lastPosition (c : Config) (b : CodedBlock) : Nat := (b.pairs.map fun p => (codeEntry c p).run).sum

/-- ESCRUN after the pairs of a block: the run of the last pair that had a raw code, 0 when none had one (R142, R147). -/
def escapeRun (c : Config) (b : CodedBlock) : Nat :=
  b.pairs.foldl (fun e p => if hasRaw c p then (codeEntry c p).run else e) 0

/-- A pair that stands in a block: a code with a run of 1 or more, and a raw number that fits its field. -/
def pairLegal (c : Config) (p : CodedPair) : Bool :=
  codeLegal c p && (codeEntry c p).run != 0 && p.raw < 2 ^ c.rawBits

/-- The dequantised number of a pair of the block fits 16 bits (R150). -/
def fitsCoef (c : Config) (q : Nat) (pl : Plane) (kv : Nat × Int) : Bool :=
  -32768 ≤ kv.2 * c.qstep q pl kv.1 && kv.2 * c.qstep q pl kv.1 ≤ 32767

/-- A block whose DC and pairs decode: its numbers fit their fields, its codes exist and have runs, no position is
past 63, and every product fits 16 bits (R105). -/
def startLegal (c : Config) (q : Nat) (pl : Plane) (b : CodedBlock) : Bool :=
  b.dc < 2 ^ c.dcBits && b.pairs.all (pairLegal c) && lastPosition c b ≤ 63 &&
    (blockPlaced c b).all (fitsCoef c q pl)

/-- A block that decodes to its end: its last code exists and has run 0. -/
def blockLegal (c : Config) (q : Nat) (pl : Plane) (b : CodedBlock) : Bool :=
  startLegal c q pl b && codeLegal c b.eob && (codeEntry c b.eob).run == 0

/-- The stream from BITPOS on begins with `bits`, inside the slice. -/
def streamBegins (s : State) (bits : List Bool) : Prop :=
  s.bitpos.toNat + bits.length ≤ s.brNbits.toNat ∧
    ∀ j < bits.length, sliceBit s (s.bitpos.toNat + j) = bits[j]?.getD false

end Sys2Proof.Machine
end

