-- ==== Sys2Proof/Safety.lean ====
section
/-! DEFINITION. What the claims call a legal state: the invariants the spec states of its registers and memories, and
runs of the machine. -/

namespace Sys2Proof.Machine

/-- Offsets strictly rising. -/
def offsetsRising : List Nat → Bool
  | []          => true
  | [_]         => true
  | a :: b :: t => a < b && offsetsRising (b :: t)

/-- The memories are in their canonical form, every listed offset exists (R60), every PIX offset the host may rely
on is listed (R63), the declared frame fits PIX (R63, R251) and IBUF_LEN is at most IBUF_SIZE (R32). -/
structure State.MemoryOk (s : State) : Prop where
  ibufForm   : Memory.wf s.ibuf = true
  ibufInside : ∀ c ∈ s.ibuf, c.1 < s.cfg.ibufSize
  pixForm    : Memory.wf s.pix = true
  pixInside  : ∀ c ∈ s.pix, c.1 < s.cfg.pixSize
  freshForm  : offsetsRising s.pixFresh = true
  freshKnown : ∀ o ∈ s.pixFresh, (Memory.read? s.pix o).isSome = true
  frameFits  : 4 * s.frameW.toNat * s.frameH.toNat ≤ s.cfg.pixSize
  lenCapped  : s.ibufLen.toNat ≤ s.cfg.ibufSize

/-- `0 ≤ BITPOS ≤ BR_NBITS`, BR_NBITS a multiple of 16 and below 2^28 (R25, R265); without a slice there are no bits
and no header. The accumulator holds exactly the next NVALID bits of the stream, oldest bit highest (R127), unless
the host moved the slice's input (R323). -/
structure State.BitReaderOk (s : State) : Prop where
  posInside  : s.bitpos.toNat ≤ s.brNbits.toNat
  wholeWords : s.brNbits.toNat % 16 = 0
  bounded    : s.brNbits.toNat < 2 ^ 28
  inactive   : s.brActive = false → s.brNbits = 0#32 ∧ s.hdrOk = false
  validMax   : s.nvalid ≤ 47
  pulled     : s.bitpos.toNat + s.nvalid = 16 * s.wptr.toNat
  pulledMax  : 16 * s.wptr.toNat ≤ s.brNbits.toNat
  accSmall   : s.acc.toNat < 2 ^ s.nvalid
  accBits    : s.sliceRewritten = false →
    ∀ t < s.nvalid, s.acc.getLsbD (s.nvalid - 1 - t) = sliceBit s (s.bitpos.toNat + t)

/-- BLK is 0 to 5, ACCNT 0 to 64, and a header that was read is legal (R27, R99, R141). -/
structure State.VldOk (s : State) : Prop where
  blkMax   : s.blk.toNat ≤ 5
  accntMax : s.accnt.toNat ≤ 64
  header   : s.hdrOk = true → s.qscale.toNat ∈ s.cfg.qdom

/-- Every COEF element is in −32768 to 32767 (R21) and every SPAT element in −228678 to 228678 (R22, R186). -/
structure State.ArraysOk (s : State) : Prop where
  coefRange : ∀ b < 6, ∀ i < 64, -32768 ≤ s.coefAt b i ∧ s.coefAt b i ≤ 32767
  spatRange : ∀ b < 6, ∀ i < 64, -228678 ≤ s.spatAt b i ∧ s.spatAt b i ≤ 228678

/-- The pairs of ERR_CODE and ERR_CAUSE the block can show (R270 to R276). -/
def legalFault (code cause : Byte) : Bool :=
  (code == 2#8 && 1 ≤ cause.toNat && cause.toNat ≤ 3) ||
  (code == 3#8 && 1 ≤ cause.toNat && cause.toNat ≤ 7) ||
  (code == 5#8 && 1 ≤ cause.toNat && cause.toNat ≤ 2) ||
  (code == 6#8 && 1 ≤ cause.toNat && cause.toNat ≤ 5) ||
  (code == 7#8 && 1 ≤ cause.toNat && cause.toNat ≤ 3)

/-- Not busy between steps (R73); the fault registers all 0 (not faulted) or a legal code and cause (R31, R270,
R271). -/
structure State.FaultOk (s : State) : Prop where
  idle  : s.busy = false
  fault : (s.errCode = 0#8 ∧ s.errCause = 0#8 ∧ s.errOp = 0#8 ∧ s.errCmd = 0#32 ∧ s.errInfo = 0#32) ∨
    legalFault s.errCode s.errCause = true

/-- `t` is reached from `s` by steps that answer a next state. -/
inductive Steps : State → State → Prop where
  | refl (s : State) : Steps s s
  | tail {s t u : State} : Steps s t → step t = .next u → Steps s u

/-- A state some run of the host reaches from the reset of an instance with configuration `c` (R264). -/
def Reachable (c : Config) (s : State) : Prop := ∃ ms, Steps { State.resetWith c with moves := ms } s

end Sys2Proof.Machine
end

