-- ==== Sys2Proof/Certificates/Slice0/Obligations.lean ====
section
/-! DEFINITION. The statements for the provers. Each says of every state (reachable or not) what a numbered rule of
spec/ says; codes, causes and formulas are written out here, not taken from the meanings. The fields of State that are
the model's own (pixFresh, sliceRewritten, ibufEpoch, freeNext, moves, replies) are named where they change: they are
bookkeeping for R63, R323, R62, R37 and R263, see log entries 2, 3, 4, 5, 7 and 12. -/

open Sys2Proof Sys2Proof.Machine

/-! ### Words the statements use -/

namespace Sys2Proof.Machine

/-- The command word with the three fields of R90. -/
def commandWord (op : Byte) (a : BitVec 24) (b : Word) : CommandWord := (op ++ a) ++ b

/-- `s` after fault entry (R280) of a command whose OP field is `op`. -/
def faultedAs (s : State) (op code cause : Byte) (info : Word) : State :=
  { s with errCode := code, errCause := cause, errOp := op, errCmd := s.cmdcnt, errInfo := info, busy := false }

/-- `s` with the hidden accumulator of `t` (R26). -/
def withHidden (s t : State) : State := { s with acc := t.acc, nvalid := t.nvalid, wptr := t.wptr }

/-- `Σ_{t=0}^{n−1} bit(start + t) × 2^(n−1−t)`, as a sum (R122). -/
def bitSum (bit : Nat → Bool) (start n : Nat) : Nat :=
  ∑ t ∈ Finset.range n, (bit (start + t)).toNat * 2 ^ (n - 1 - t)

/-- The 16-bit little-endian word `k` of the slice, as IBUF holds it (R126). -/
def wordAt (s : State) (k : Nat) : Nat :=
  (s.ibufRead (s.brBase.toNat + 2 * k)).toNat + 256 * (s.ibufRead (s.brBase.toNat + 2 * k + 1)).toNat

/-- Commands one after the other, as long as each answers a next state. -/
def runCommands : List Instr → State → Option State
  | [], s      => some s
  | i :: is, s =>
    match exec i s with
    | .next t    => runCommands is t
    | .fault _   => none
    | .refused _ => none

/-- The opcodes of format Z (R91, R92). -/
def opcodesZ : List Byte := [0x00#8, 0x13#8, 0x20#8, 0x21#8, 0x31#8, 0x50#8]

/-- The opcodes of formats N and XY (R91, R92). -/
def opcodesB : List Byte := [0x01#8, 0x02#8, 0x11#8, 0x12#8, 0x30#8, 0x40#8]

/-- The opcodes of format SL (R91, R92). -/
def opcodesAB : List Byte := [0x10#8, 0x51#8]

/-- The pairs of ERR_CODE and ERR_CAUSE each accepted command can leave (the matrix of R277). -/
def allowedFaults : Instr → List (Byte × Byte)
  | .nop           => []
  | .cfgFrame _ _  => [(6#8, 5#8)]
  | .cfgAudio _    => [(6#8, 4#8)]
  | .brInit _ _    => [(2#8, 2#8)]
  | .brPeek _      => [(6#8, 1#8), (7#8, 1#8), (2#8, 1#8)]
  | .brConsume _   => [(6#8, 1#8), (7#8, 1#8), (2#8, 1#8)]
  | .brRefill      => [(7#8, 1#8)]
  | .vldHdr        => [(7#8, 1#8), (7#8, 3#8), (3#8, 4#8), (3#8, 6#8)]
  | .vldMb         => [(7#8, 1#8), (7#8, 2#8), (3#8, 1#8), (3#8, 2#8), (3#8, 3#8), (3#8, 4#8), (3#8, 5#8)]
  | .idctBlk _     => [(6#8, 2#8)]
  | .idctMb        => []
  | .cscMb _ _     => []
  | .adpcmInit     => []
  | .adpcmDec _ _  => [(6#8, 3#8), (2#8, 3#8), (3#8, 7#8)]

/-- The commands of the audio path (R313). -/
def isAudio : Instr → Bool
  | .cfgAudio _ | .adpcmInit | .adpcmDec _ _ => true
  | .nop | .cfgFrame _ _ | .brInit _ _ | .brPeek _ | .brConsume _ | .brRefill | .vldHdr | .vldMb | .idctBlk _
  | .idctMb | .cscMb _ _ => false

/-- The commands of the video path (R313). -/
def isVideo : Instr → Bool
  | .cfgFrame _ _ | .brInit _ _ | .brPeek _ | .brConsume _ | .brRefill | .vldHdr | .vldMb | .idctBlk _ | .idctMb
  | .cscMb _ _ => true
  | .nop | .cfgAudio _ | .adpcmInit | .adpcmDec _ _ => false

/-- COEF[b][0..63] are all in −32768 to 32767 (R21). -/
def coefInRange (s : State) (b : Nat) : Prop := ∀ i < 64, -32768 ≤ s.coefAt b i ∧ s.coefAt b i ≤ 32767

/-- T of the row pass (R181). -/
def rowPass (s : State) (b v x : Nat) : Int :=
  asr ((∑ u ∈ Finset.range 8, idctK x u * s.coefAt b (8 * v + u)) + 256) 9

/-- S of the column pass (R182). -/
def columnPass (s : State) (b y x : Nat) : Int :=
  asr ((∑ v ∈ Finset.range 8, idctK y v * rowPass s b v x) + 65536) 17

/-- Block `b` holds the DC coefficient `d` and nothing else. -/
def dcOnly (s : State) (b : Nat) (d : Int) : Prop := s.coefAt b 0 = d ∧ ∀ i < 64, i ≠ 0 → s.coefAt b i = 0

/-- The sample a DC-only block transforms to (R187). -/
def dcSample (d : Int) : Int := asr (2896 * asr (2896 * d + 256) 9 + 65536) 17

/-- Macroblock pixel (px, py) lies in the frame (R205). -/
def inFrame (s : State) (mbx mby : Half) (px py : Nat) : Prop :=
  16 * mbx.toNat + px < s.frameW.toNat ∧ 16 * mby.toNat + py < s.frameH.toNat

/-- Its offset: `4 × (Yf × FRAME_W + X)` (R205). -/
def pixelStart (s : State) (mbx mby : Half) (px py : Nat) : Nat :=
  4 * ((16 * mby.toNat + py) * s.frameW.toNat + (16 * mbx.toNat + px))

/-- `clamp(asr(sum + 32768, 16), 0, 255)` (R203). -/
def channelValue (sum : Int) : Int := clamp (asr (sum + 32768) 16) 0 255

/-- The host reads at offset `o` the four bytes of the pixel of samples (y, cb, cr) (R203 to R205, R260). -/
def showsPixel (t : State) (o : Nat) (y cb cr : Int) : Prop :=
  ∃ r g b : Byte,
    t.pixDefined? o = some r ∧ (r.toNat : Int) = channelValue (y * 65536 + 91881 * cr) ∧
    t.pixDefined? (o + 1) = some g ∧ (g.toNat : Int) = channelValue (y * 65536 - 22544 * cb - 46793 * cr) ∧
    t.pixDefined? (o + 2) = some b ∧ (b.toNat : Int) = channelValue (y * 65536 + 116130 * cb) ∧
    t.pixDefined? (o + 3) = some 255#8

/-- `par(u)` of the group at `g` (R110). -/
def parByte (s : State) (g u : Nat) : Nat := (s.ibufRead (g + (if u ≤ 3 then 4 + u else 8 + u))).toNat

/-- `nib(u, i)` of the group at `g` (R110). -/
def nibbleOf (s : State) (g u i : Nat) : Nat := (s.ibufRead (g + 16 + 4 * i + u / 2)).toNat / 16 ^ (u % 2) % 16

/-- Every parameter byte of the group has a legal range (R111). -/
def groupLegal (s : State) (g : Nat) : Prop := ∀ u < 8, parByte s g u % 16 ≤ 12

/-- The sample of R220 from parameter byte `p`, nibble `nib` and the channel's two last samples. -/
def nextSample (p nib : Nat) (p1 p2 : Int) : Int :=
  clamp (sext 4 nib * 2 ^ (12 - p % 16) +
    asr (([0, 60, 115, 98][p / 16 % 4]?.getD 0) * p1 + ([0, 0, -52, -55][p / 16 % 4]?.getD 0) * p2 + 32) 6)
    (-32768) 32767

/-- What a channel puts out for a sequence of (parameter byte, nibble), and its PREV1 and PREV2 afterwards (R220). -/
def channelRun (p1 p2 : Int) : List (Nat × Nat) → List Int × Int × Int
  | []              => ([], p1, p2)
  | (p, nib) :: l =>
    (nextSample p nib p1 p2 :: (channelRun (nextSample p nib p1 p2) p1 l).1,
      (channelRun (nextSample p nib p1 p2) p1 l).2)

/-- The nibbles of the units `units` of `count` groups from `g` on, each with its parameter byte, in time order
(R221, R222). -/
def unitStream (s : State) (units : List Nat) (g count : Nat) : List (Nat × Nat) :=
  (List.range count).flatMap fun n => units.flatMap fun u => (List.range 28).map fun i =>
    (parByte s (g + 128 * n) u, nibbleOf s (g + 128 * n) u i)

/-- Left, right, left, right (R64). -/
def interleave : List Int → List Int → List Int
  | l :: ls, r :: rs => l :: r :: interleave ls rs
  | _, _             => []

/-- ADPCM.DEC may run: one group or more, all of them inside the valid bytes (R226). -/
def audioInside (s : State) (groups : BitVec 24) (base : Word) : Prop :=
  0 < groups.toNat ∧ base.toNat + 128 * groups.toNat ≤ s.ibufLen.toNat

/-- `s` after an ADPCM.DEC of `groups` groups that completes, with what it puts out taken from `t`. -/
def audioDone (s t : State) (groups : BitVec 24) : State :=
  { s with
    prev1 := t.prev1, prev2 := t.prev2, pcmout := t.pcmout
    pcmcnt := s.pcmcnt + BitVec.ofNat 32 (224 * groups.toNat), cmdcnt := s.cmdcnt + 1#32 }

/-- What VLD.MB can change, taken from `t` (R153, R281). -/
def vldWrites (s t : State) : State :=
  { s with
    coef := t.coef, bitpos := t.bitpos, acc := t.acc, nvalid := t.nvalid, wptr := t.wptr
    vstate := t.vstate, blk := t.blk, pos := t.pos, accnt := t.accnt, escrun := t.escrun }

/-- The first blocks of a macroblock are legal, each in its plane (R12). -/
def blocksLegal (s : State) (bs : List CodedBlock) : Prop :=
  ∀ k < bs.length, ∀ b, bs[k]? = some b → blockLegal s.cfg s.qscale.toNat (planeOf k) b = true

/-- COEF holds the blocks `done`, then what `part` had placed, then zeros (R153). -/
def coefHolds (s t : State) (done : List CodedBlock) (part : CodedBlock) : Prop :=
  ∀ k < 6, ∀ i < 64, t.coefAt k i =
    if k < done.length then blockCoef s.cfg s.qscale.toNat (planeOf k) (done[k]?.getD part) i
    else if k = done.length then blockCoef s.cfg s.qscale.toNat (planeOf k) part i
    else 0

/-- VLD.MB runs: a slice is set up and its header was read (R142). -/
def vldReady (s : State) : Prop := s.cfg.wellFormed = true ∧ s.brActive = true ∧ s.hdrOk = true

/-- COEF holds the blocks `done` and zeros (R149, R153). -/
def coefHoldsOnly (s t : State) (done : List CodedBlock) : Prop :=
  ∀ k < 6, ∀ i < 64, t.coefAt k i =
    match done[k]? with
    | some b => blockCoef s.cfg s.qscale.toNat (planeOf k) b i
    | none   => 0

/-- VLD.MB runs, and the stream from BITPOS on spells the blocks `done` and, of the next block, its DC and the pairs
of `part`, all of them legal (R98, R142). -/
def blockBegun (s : State) (done : List CodedBlock) (part : CodedBlock) : Prop :=
  vldReady s ∧ done.length < 6 ∧ blocksLegal s done ∧
    startLegal s.cfg s.qscale.toNat (planeOf done.length) part = true ∧
    streamBegins s (blocksBits s.cfg done ++ startBits s.cfg part)

/-- The stream position just after those. -/
def afterStart (s : State) (done : List CodedBlock) (part : CodedBlock) : Nat :=
  s.bitpos.toNat + (blocksBits s.cfg done ++ startBits s.cfg part).length

/-- The number the next `w` bits spell from stream position `start` on, zeros past the end of the slice (R125). -/
def paddedKey (s : State) (w start : Nat) : Nat :=
  bitSum (fun i => if i < s.brNbits.toNat then sliceBit s i else false) start w

/-- The entry of table A the padded key at `start` selects (R144). -/
def levelA (s : State) (start : Nat) : TableEntry := s.cfg.entryA (paddedKey s 8 start)

/-- The entry of table B the padded key at `start` selects (R144). -/
def levelB (s : State) (start : Nat) : TableEntry := s.cfg.entryB (paddedKey s s.cfg.wB start)

/-- VLD.MB raises CorruptFrame of cause `cause` inside block `done.length`, after the pairs of `part`: ERRINFO and
BITPOS are `stop`, VSTATE is `vstate`, ESCRUN is `run`, BLK, POS and ACCNT tell the place, COEF holds what was placed
(R153). -/
def stopsInBlock (s : State) (done : List CodedBlock) (part : CodedBlock) (cause : Byte) (stop : Nat)
    (vstate : VldState) (run : Nat) : Prop :=
  ∃ t, exec .vldMb s = .next t ∧ t = faultedAs (vldWrites s t) 0x21#8 3#8 cause t.bitpos ∧
    t.bitpos.toNat = stop ∧ t.vstate = vstate ∧ t.escrun.toNat = run ∧ t.blk.toNat = done.length ∧
    t.pos.toNat = lastPosition s.cfg part ∧ t.accnt.toNat = part.pairs.length ∧ coefHolds s t done part

/-- The state an accepted command runs in: BUSY is 1 and the move is taken (R256). -/
def accepted (s : State) (ms : List HostMove) : State := { s with moves := ms, busy := true }

end Sys2Proof.Machine

/-! ### Encoding -/

/-- Decoding the word of a command gives the command, for every operand (R90 to R93, R95). -/
def Obligations.DecodeOfEncodeIsTheCommand : Prop := ∀ i : Instr, decode (encode i) = .command i

/-- A word that decodes to a command is that command's word: no two words stand for one command (R95). -/
def Obligations.EncodeOfDecodeIsTheWord : Prop :=
  ∀ (w : CommandWord) (i : Instr), decode w = .command i → encode i = w

/-- The total function of R95, case by case, over every word. -/
def Obligations.DecodeIsTheTotalFunction : Prop :=
  ∀ (op : Byte) (a : BitVec 24) (b : Word),
    (op ∉ opcodesZ ++ opcodesB ++ opcodesAB → decode (commandWord op a b) = .illegal .opcode) ∧
    (op ∈ opcodesZ → a ≠ 0#24 ∨ b ≠ 0#32 → decode (commandWord op a b) = .illegal .reservedField) ∧
    (op ∈ opcodesB → a ≠ 0#24 → decode (commandWord op a b) = .illegal .reservedField) ∧
    ((op ∈ opcodesZ ∧ a = 0#24 ∧ b = 0#32) ∨ (op ∈ opcodesB ∧ a = 0#24) ∨ op ∈ opcodesAB →
      ∃ i, decode (commandWord op a b) = .command i ∧ i.opcode = op ∧ i.fieldA = a ∧ i.fieldB = b)

/-- The fourteen rows of R92, with every operand at every value. -/
def Obligations.OpcodeMapSelectsTheCommand : Prop :=
  decode (commandWord 0x00#8 0#24 0#32) = .command .nop ∧
  (∀ w h : Half, decode (commandWord 0x01#8 0#24 (h ++ w)) = .command (.cfgFrame w h)) ∧
  (∀ c : Word, decode (commandWord 0x02#8 0#24 c) = .command (.cfgAudio c)) ∧
  (∀ (len : BitVec 24) (base : Word), decode (commandWord 0x10#8 len base) = .command (.brInit len base)) ∧
  (∀ n : Word, decode (commandWord 0x11#8 0#24 n) = .command (.brPeek n)) ∧
  (∀ n : Word, decode (commandWord 0x12#8 0#24 n) = .command (.brConsume n)) ∧
  decode (commandWord 0x13#8 0#24 0#32) = .command .brRefill ∧
  decode (commandWord 0x20#8 0#24 0#32) = .command .vldHdr ∧
  decode (commandWord 0x21#8 0#24 0#32) = .command .vldMb ∧
  (∀ b : Word, decode (commandWord 0x30#8 0#24 b) = .command (.idctBlk b)) ∧
  decode (commandWord 0x31#8 0#24 0#32) = .command .idctMb ∧
  (∀ x y : Half, decode (commandWord 0x40#8 0#24 (y ++ x)) = .command (.cscMb x y)) ∧
  decode (commandWord 0x50#8 0#24 0#32) = .command .adpcmInit ∧
  (∀ (groups : BitVec 24) (base : Word),
    decode (commandWord 0x51#8 groups base) = .command (.adpcmDec groups base))

/-- Words written out in 95_test_vectors.md, one or more of each family. -/
def Obligations.PrintedWordsDecode : Prop :=
  decode 0x0000000000000000#64 = .command .nop ∧
  decode 0x01000000000C0014#64 = .command (.cfgFrame 20#16 12#16) ∧
  decode 0x0200000000000001#64 = .command (.cfgAudio 1#32) ∧
  decode 0x1000001000000000#64 = .command (.brInit 16#24 0#32) ∧
  decode 0x1000000300000001#64 = .command (.brInit 3#24 1#32) ∧
  decode 0x110000000000001C#64 = .command (.brPeek 28#32) ∧
  decode 0x2100000000000000#64 = .command .vldMb ∧
  decode 0x3000000000000006#64 = .command (.idctBlk 6#32) ∧
  decode 0x4000000000010000#64 = .command (.cscMb 0#16 1#16) ∧
  decode 0x510000000000270F#64 = .command (.adpcmDec 0#24 9999#32) ∧
  decode 0xFF00000000001234#64 = .illegal .opcode ∧
  decode 0x2100000100000000#64 = .illegal .reservedField

/-! ### The step -/

/-- A step whose move issues a word that decodes to `i` runs `i`, when the block is neither busy nor faulted (R256),
and BUSY is 0 again after it; so does a step at a state prepared by withFetchWord. The premise on sliceRewritten is
the model's: R323 lets a model refuse the other runs (log entry 7). -/
def Obligations.StepRunsTheDecodedCommand : Prop :=
  (∀ (s : State) (w : CommandWord) (i : Instr) (ms : List HostMove),
    s.moves = .issue w :: ms → s.busy = false → s.errCode = 0#8 → decode w = .command i →
    (s.sliceRewritten = false ∨ usesSlice s i = false) →
    ∃ t, exec i (accepted s ms) = .next t ∧ step s = .next { t with busy := false }) ∧
  (∀ (s : State) (i : Instr), ∃ t,
    exec i { s with busy := true, errCode := 0#8, sliceRewritten := false } = .next t ∧
    step (s.withFetchWord 64 (encode i).toNat) = .next { t with busy := false })

/-- A word that does not decode faults with IllegalCommand, and changes nothing else (R275, R94). -/
def Obligations.StepFaultsOnAnIllegalWord : Prop :=
  ∀ (s : State) (op : Byte) (a : BitVec 24) (b : Word) (ms : List HostMove),
    s.moves = .issue (commandWord op a b) :: ms → s.busy = false → s.errCode = 0#8 →
    (op ∉ opcodesZ ++ opcodesB ++ opcodesAB → step s = .next (faultedAs { s with moves := ms } op 5#8 1#8 b)) ∧
    (((op ∈ opcodesZ ∧ (a ≠ 0#24 ∨ b ≠ 0#32)) ∨ (op ∈ opcodesB ∧ a ≠ 0#24)) →
      step s = .next (faultedAs { s with moves := ms } op 5#8 2#8 b))

/-- While busy or faulted every word is dropped, however many the host issues: nothing but the host's own list of
moves changes (R256). -/
def Obligations.WordsAreDroppedWhileBusyOrFaulted : Prop :=
  ∀ (s : State) (ws : List CommandWord), s.busy = true ∨ s.errCode ≠ 0#8 →
    Steps { s with moves := ws.map HostMove.issue } { s with moves := [] }

/-- MODEL'S CHOICE (log entries 5 to 8): with no move left a step changes nothing; a step stops only at a host access
of an offset that does not exist, at a command that uses a slice whose input was moved, or at a host move that needs
BUSY = 0 and finds it 1. No command stops. -/
def Obligations.StepStopsOnlyAtAForbiddenHostMove : Prop :=
  (∀ s : State, s.moves = [] → step s = .next s) ∧
  (∀ (i : Instr) (s : State), ∃ t, exec i s = .next t) ∧
  ∀ s : State,
    (∃ t, step s = .next t) ∨
    (step s = .fault .noSuchIbufOffset ∧
      ∃ o b ms, s.moves = .writeIbuf o b :: ms ∧ s.cfg.ibufSize ≤ o) ∨
    (step s = .fault .noSuchPixOffset ∧ ∃ o ms, s.moves = .readPix o :: ms ∧ s.cfg.pixSize ≤ o) ∨
    (step s = .refused .sliceRewritten ∧ s.sliceRewritten = true ∧
      ∃ w i ms, s.moves = .issue w :: ms ∧ decode w = .command i ∧ usesSlice s i = true) ∨
    (step s = .refused .inputWriteWhileBusy ∧ s.busy = true ∧
      ((∃ o b ms, s.moves = .writeIbuf o b :: ms) ∨ ∃ v ms, s.moves = .writeCr 11 v :: ms)) ∨
    (step s = .refused .drainWhileBusy ∧ s.busy = true ∧ ∃ k ms, s.moves = .drainPcm k :: ms)

/-! ### System commands -/

/-- NOP counts and does nothing else; its one word is 0 (R250). -/
def Obligations.NopOnlyCounts : Prop :=
  (∀ s : State, exec .nop s = .next { s with cmdcnt := s.cmdcnt + 1#32 }) ∧
  (∀ (a : BitVec 24) (b : Word), decode (commandWord 0x00#8 a b) =
    if a = 0#24 ∧ b = 0#32 then .command .nop else .illegal .reservedField)

/-- CFG.FRAME (R251). That a change of FRAME_W empties pixFresh, and that setting it to the value it has does not, is
the model's form of R63 (log entry 3). -/
def Obligations.CfgFrameDeclaresTheFrame : Prop :=
  ∀ (s : State) (w h : Half),
    decode (commandWord 0x01#8 0#24 (h ++ w)) = .command (.cfgFrame w h) ∧
    (s.cfg.pixSize < 4 * w.toNat * h.toNat →
      exec (.cfgFrame w h) s = .next (faultedAs s 0x01#8 6#8 5#8 (h ++ w))) ∧
    (4 * w.toNat * h.toNat ≤ s.cfg.pixSize →
      exec (.cfgFrame w h) s = .next { s with
        frameW := w, frameH := h, cmdcnt := s.cmdcnt + 1#32
        pixFresh := if w = s.frameW then s.pixFresh else [] })

/-- CFG.AUDIO (R252). -/
def Obligations.CfgAudioDeclaresTheLayout : Prop :=
  ∀ (s : State) (c : Word),
    decode (commandWord 0x02#8 0#24 c) = .command (.cfgAudio c) ∧
    (c = 1#32 → exec (.cfgAudio c) s = .next { s with channels := .mono, cmdcnt := s.cmdcnt + 1#32 }) ∧
    (c = 2#32 → exec (.cfgAudio c) s = .next { s with channels := .stereo, cmdcnt := s.cmdcnt + 1#32 }) ∧
    (c ≠ 1#32 → c ≠ 2#32 → exec (.cfgAudio c) s = .next (faultedAs s 0x02#8 6#8 4#8 c))

/-! ### BitReader -/

/-- BR.INIT (R121). That it clears sliceRewritten, so that the new slice counts as not moved, is the model's form of
R323 (log entry 7). -/
def Obligations.BrInitSetsUpTheSlice : Prop :=
  ∀ (s : State) (len : BitVec 24) (base : Word),
    decode (commandWord 0x10#8 len base) = .command (.brInit len base) ∧
    (s.ibufLen.toNat < base.toNat + len.toNat →
      exec (.brInit len base) s = .next (faultedAs s 0x10#8 2#8 2#8 base)) ∧
    (base.toNat + len.toNat ≤ s.ibufLen.toNat →
      exec (.brInit len base) s = .next { s with
        brBase := base, brNbits := BitVec.ofNat 32 (16 * (len.toNat / 2)), bitpos := 0#32, brActive := true
        acc := 0#48, nvalid := 0, wptr := 0#32
        hdrOk := false, vstate := .idle, blk := 0#3, pos := 0#6, accnt := 0#7, escrun := 0#6
        sliceRewritten := false, cmdcnt := s.cmdcnt + 1#32 })

/-- Bit 16k + j of a slice is bit 15 − j of its little-endian word k (R120). -/
def Obligations.SliceBitsComeWordByWord : Prop :=
  ∀ (s : State) (k j : Nat), j < 16 →
    sliceBit s (16 * k + j) =
      ((s.ibufRead (s.brBase.toNat + 2 * k)).toNat + 256 * (s.ibufRead (s.brBase.toNat + 2 * k + 1)).toNat).testBit
        (15 - j)

/-- BR.PEEK, its four cases in test order (R122). -/
def Obligations.BrPeekReadsTheNextBits : Prop :=
  ∀ (s : State) (n : Word),
    decode (commandWord 0x11#8 0#24 n) = .command (.brPeek n) ∧
    (32 < n.toNat → exec (.brPeek n) s = .next (faultedAs s 0x11#8 6#8 1#8 n)) ∧
    (n.toNat ≤ 32 → s.brActive = false → exec (.brPeek n) s = .next (faultedAs s 0x11#8 7#8 1#8 n)) ∧
    (n.toNat ≤ 32 → s.brActive = true → s.brNbits.toNat < s.bitpos.toNat + n.toNat →
      ∃ t, exec (.brPeek n) s = .next t ∧ t = faultedAs (withHidden s t) 0x11#8 2#8 1#8 s.bitpos) ∧
    (n.toNat ≤ 32 → s.brActive = true → s.bitpos.toNat + n.toNat ≤ s.brNbits.toNat →
      ∃ t, exec (.brPeek n) s = .next t ∧
        t = { withHidden s t with result := t.result, cmdcnt := s.cmdcnt + 1#32 } ∧
        t.result.toNat = bitSum (sliceBit s) s.bitpos.toNat n.toNat)

/-- BR.CONSUME, its four cases in test order (R123). -/
def Obligations.BrConsumeAdvancesByN : Prop :=
  ∀ (s : State) (n : Word),
    decode (commandWord 0x12#8 0#24 n) = .command (.brConsume n) ∧
    (32 < n.toNat → exec (.brConsume n) s = .next (faultedAs s 0x12#8 6#8 1#8 n)) ∧
    (n.toNat ≤ 32 → s.brActive = false → exec (.brConsume n) s = .next (faultedAs s 0x12#8 7#8 1#8 n)) ∧
    (n.toNat ≤ 32 → s.brActive = true → s.brNbits.toNat < s.bitpos.toNat + n.toNat →
      ∃ t, exec (.brConsume n) s = .next t ∧ t = faultedAs (withHidden s t) 0x12#8 2#8 1#8 s.bitpos) ∧
    (n.toNat ≤ 32 → s.brActive = true → s.bitpos.toNat + n.toNat ≤ s.brNbits.toNat →
      ∃ t, exec (.brConsume n) s = .next t ∧
        t = { withHidden s t with bitpos := t.bitpos, cmdcnt := s.cmdcnt + 1#32 } ∧
        t.bitpos.toNat = s.bitpos.toNat + n.toNat)

/-- BR.REFILL: nothing but the hidden accumulator and CMDCNT. With 16 valid bits or more, or no words left, not even
the accumulator; with fewer than 16 it pulls the one word that is left, or the next two, first word first (R124,
R126). -/
def Obligations.BrRefillTouchesTheAccumulatorOnly : Prop :=
  ∀ s : State,
    decode (commandWord 0x13#8 0#24 0#32) = .command .brRefill ∧
    (s.brActive = false → exec .brRefill s = .next (faultedAs s 0x13#8 7#8 1#8 0#32)) ∧
    (s.brActive = true →
      ∃ t, exec .brRefill s = .next t ∧ t = { withHidden s t with cmdcnt := s.cmdcnt + 1#32 } ∧
        (16 ≤ s.nvalid ∨ s.brNbits.toNat / 16 ≤ s.wptr.toNat →
          t.acc = s.acc ∧ t.nvalid = s.nvalid ∧ t.wptr = s.wptr) ∧
        (s.nvalid < 16 → s.brNbits.toNat / 16 = s.wptr.toNat + 1 →
          t.acc.toNat = (65536 * s.acc.toNat + wordAt s s.wptr.toNat) % 2 ^ 48 ∧
          t.nvalid = s.nvalid + 16 ∧ t.wptr.toNat = s.wptr.toNat + 1) ∧
        (s.nvalid < 16 → s.wptr.toNat + 2 ≤ s.brNbits.toNat / 16 →
          t.acc.toNat =
            (65536 * (65536 * s.acc.toNat + wordAt s s.wptr.toNat) + wordAt s (s.wptr.toNat + 1)) % 2 ^ 48 ∧
          t.nvalid = s.nvalid + 32 ∧ t.wptr.toNat = s.wptr.toNat + 2))

/-- The cursor stays inside the slice and the accumulator holds exactly the next NVALID bits, oldest highest (R25,
R127), after every step of any host that keeps R323 or not (the accumulator clause is under sliceRewritten = false,
log entry 7). -/
def Obligations.EveryStepKeepsTheBitReader : Prop :=
  ∀ s t : State, s.cfg.wellFormed = true → s.BitReaderOk → step s = .next t → t.BitReaderOk

/-- The accumulator form of BrPeek agrees with the direct one, failure and value (R128). -/
def Obligations.AccumulatorFormAgreesWithTheDirectForm : Prop :=
  ∀ (s : State) (n : Nat), s.BitReaderOk → s.sliceRewritten = false → n ≤ 32 →
    ((ensure n s).nvalid < n ↔ s.brNbits.toNat < s.bitpos.toNat + n) ∧
    (s.bitpos.toNat + n ≤ s.brNbits.toNat →
      accumulatorPeek n s = bitSum (sliceBit s) s.bitpos.toNat n)

/-! ### Entropy decoder -/

/-- VLD.HDR, its five cases in test order (R141). -/
def Obligations.VldHdrReadsTheScale : Prop :=
  ∀ s : State,
    decode (commandWord 0x20#8 0#24 0#32) = .command .vldHdr ∧
    (s.brActive = false → exec .vldHdr s = .next (faultedAs s 0x20#8 7#8 1#8 0#32)) ∧
    (s.brActive = true → s.hdrOk = true → exec .vldHdr s = .next (faultedAs s 0x20#8 7#8 3#8 0#32)) ∧
    (s.brActive = true → s.hdrOk = false → s.brNbits.toNat < s.bitpos.toNat + 16 →
      ∃ t, exec .vldHdr s = .next t ∧ t = faultedAs (withHidden s t) 0x20#8 3#8 4#8 s.bitpos) ∧
    (s.brActive = true → s.hdrOk = false → s.bitpos.toNat + 16 ≤ s.brNbits.toNat →
      bitSum (sliceBit s) s.bitpos.toNat 16 ∉ s.cfg.qdom →
      ∃ t, exec .vldHdr s = .next t ∧
        t = faultedAs (withHidden s t) 0x20#8 3#8 6#8 (BitVec.ofNat 32 (bitSum (sliceBit s) s.bitpos.toNat 16))) ∧
    (s.brActive = true → s.hdrOk = false → s.bitpos.toNat + 16 ≤ s.brNbits.toNat →
      bitSum (sliceBit s) s.bitpos.toNat 16 ∈ s.cfg.qdom →
      ∃ t, exec .vldHdr s = .next t ∧
        t = { withHidden s t with
          bitpos := t.bitpos, qscale := t.qscale, hdrOk := true, cmdcnt := s.cmdcnt + 1#32 } ∧
        t.bitpos.toNat = s.bitpos.toNat + 16 ∧ t.qscale.toNat = bitSum (sliceBit s) s.bitpos.toNat 16)

/-- VLD.MB out of order raises SequenceError and changes nothing else; otherwise it completes at the end of block 5 or
raises CorruptFrame with the place it stopped at, the blocks above BLK being zero (R142, R153, R273, R276). -/
def Obligations.VldMbCompletesOrIsCorrupt : Prop :=
  ∀ s : State,
    (s.brActive = false → exec .vldMb s = .next (faultedAs s 0x21#8 7#8 1#8 0#32)) ∧
    (s.brActive = true → s.hdrOk = false → exec .vldMb s = .next (faultedAs s 0x21#8 7#8 2#8 0#32)) ∧
    (s.brActive = true → s.hdrOk = true → ∃ t, exec .vldMb s = .next t ∧
      ((t = { vldWrites s t with cmdcnt := s.cmdcnt + 1#32 } ∧ t.blk = 5#3 ∧ t.vstate = .endOfBlock) ∨
       (∃ cause ∈ [1#8, 2#8, 3#8, 4#8, 5#8], t = faultedAs (vldWrites s t) 0x21#8 3#8 cause t.bitpos ∧
          t.blk.toNat ≤ 5 ∧ ∀ b < 6, t.blk.toNat < b → ∀ i < 64, t.coefAt b i = 0)))

/-- HEADLINE. Whatever six legal blocks the stream spells by the grammar of R98 from BITPOS on, VLD.MB completes with
exactly their dequantised coefficients, zeros elsewhere, BITPOS just after the sixth end of block, and POS, ACCNT and
ESCRUN those of block 5 (R142 to R150). -/
def Obligations.VldMbDecodesTheGrammar : Prop :=
  ∀ (s : State) (bs : List CodedBlock), vldReady s → bs.length = 6 → blocksLegal s bs →
    streamBegins s (blocksBits s.cfg bs) →
    ∃ t, exec .vldMb s = .next t ∧
      t = { vldWrites s t with cmdcnt := s.cmdcnt + 1#32 } ∧
      t.bitpos.toNat = s.bitpos.toNat + (blocksBits s.cfg bs).length ∧
      t.blk = 5#3 ∧ t.vstate = .endOfBlock ∧
      (∀ b, bs[5]? = some b → t.pos.toNat = lastPosition s.cfg b ∧ t.accnt.toNat = b.pairs.length ∧
        t.escrun.toNat = escapeRun s.cfg b) ∧
      ∀ k < 6, ∀ i < 64, ∀ b, bs[k]? = some b →
        t.coefAt k i = blockCoef s.cfg s.qscale.toNat (planeOf k) b i

/-- A key with no entry stops VLD.MB with cause CODE: of table A where the code begins, of table B just after the
prefix that was consumed; past the end of the slice the key is read as zeros (R144, R153, R155, R273). -/
def Obligations.VldMbStopsAtAnInvalidCode : Prop :=
  ∀ (s : State) (done : List CodedBlock) (part : CodedBlock), blockBegun s done part →
    ((levelA s (afterStart s done part)).kind = .invalid →
      stopsInBlock s done part 1#8 (afterStart s done part) .readRunValue (escapeRun s.cfg part)) ∧
    ((levelA s (afterStart s done part)).kind = .escapePrefix →
      afterStart s done part + (levelA s (afterStart s done part)).len ≤ s.brNbits.toNat →
      (levelB s (afterStart s done part + (levelA s (afterStart s done part)).len)).kind = .invalid →
      stopsInBlock s done part 1#8 (afterStart s done part + (levelA s (afterStart s done part)).len) .readRunValue
        (escapeRun s.cfg part))

/-- A pair that cannot be placed stops VLD.MB just after its bits: AC_COUNT when the block holds 63 values, else
AC_POS when the run leaves the block, else COEF_RANGE when the product does not fit 16 bits (R146, R150, R153, R155).
-/
def Obligations.VldMbStopsAtAPairItCannotPlace : Prop :=
  ∀ (s : State) (done : List CodedBlock) (part : CodedBlock) (p : CodedPair), vldReady s → done.length < 6 →
    blocksLegal s done → startLegal s.cfg s.qscale.toNat (planeOf done.length) part = true →
    pairLegal s.cfg p = true →
    streamBegins s (blocksBits s.cfg done ++ startBits s.cfg part ++ pairBits s.cfg p) →
    (63 < lastPosition s.cfg part + (codeEntry s.cfg p).run ∨
      fitsCoef s.cfg s.qscale.toNat (planeOf done.length)
        (lastPosition s.cfg part + (codeEntry s.cfg p).run, pairNumber s.cfg p) = false) →
    ∃ t, exec .vldMb s = .next t ∧
      t = faultedAs (vldWrites s t) 0x21#8 3#8
        (if part.pairs.length = 63 then 2#8
         else if 63 < lastPosition s.cfg part + (codeEntry s.cfg p).run then 3#8 else 5#8) t.bitpos ∧
      t.bitpos.toNat =
        s.bitpos.toNat + (blocksBits s.cfg done ++ startBits s.cfg part ++ pairBits s.cfg p).length ∧
      t.blk.toNat = done.length ∧ t.vstate = .readRunValue ∧ t.accnt.toNat = part.pairs.length + 1 ∧
      t.pos.toNat =
        (if 63 < lastPosition s.cfg part + (codeEntry s.cfg p).run then lastPosition s.cfg part
         else lastPosition s.cfg part + (codeEntry s.cfg p).run) ∧ coefHolds s t done part

/-- Where the slice ends before the DC field of the next block, VLD.MB stops there with cause BUDGET; that block is
zero (R143, R149, R152, R153). -/
def Obligations.VldMbStopsWhereTheDcDoesNotFit : Prop :=
  ∀ (s : State) (done : List CodedBlock), vldReady s → done.length < 6 → blocksLegal s done →
    streamBegins s (blocksBits s.cfg done) →
    s.brNbits.toNat < s.bitpos.toNat + (blocksBits s.cfg done).length + s.cfg.dcBits →
    ∃ t, exec .vldMb s = .next t ∧
      t = faultedAs (vldWrites s t) 0x21#8 3#8 4#8 t.bitpos ∧
      t.bitpos.toNat = s.bitpos.toNat + (blocksBits s.cfg done).length ∧
      t.blk.toNat = done.length ∧ t.vstate = .readRunValue ∧ t.pos = 0#6 ∧ t.accnt = 0#7 ∧ coefHoldsOnly s t done

/-! ### Inverse DCT -/

/-- IDCT.BLK: the operand check, the two passes over COEF[b], and nothing else touched (R181 to R183). -/
def Obligations.IdctBlkIsTheTwoPasses : Prop :=
  ∀ (s : State) (b : Word),
    decode (commandWord 0x30#8 0#24 b) = .command (.idctBlk b) ∧
    (5 < b.toNat → exec (.idctBlk b) s = .next (faultedAs s 0x30#8 6#8 2#8 b)) ∧
    (b.toNat ≤ 5 → ∃ t, exec (.idctBlk b) s = .next t ∧
      t = { s with spat := t.spat, cmdcnt := s.cmdcnt + 1#32 } ∧
      (∀ c, c ≠ b.toNat → t.spatBlock c = s.spatBlock c) ∧
      (coefInRange s b.toNat → ∀ y < 8, ∀ x < 8, t.spatAt b.toNat (8 * y + x) = columnPass s b.toNat y x))

/-- What IDCT.BLK writes lies in −228678 to 228678 (R186). -/
def Obligations.IdctOutputIsBounded : Prop :=
  ∀ (s t : State) (b : Word), b.toNat ≤ 5 → coefInRange s b.toNat → exec (.idctBlk b) s = .next t →
    ∀ i < 64, -228678 ≤ t.spatAt b.toNat i ∧ t.spatAt b.toNat i ≤ 228678

/-- IDCT.MB is IDCT.BLK 0 to IDCT.BLK 5 in one command (R184). -/
def Obligations.IdctMbIsSixIdctBlk : Prop :=
  decode (commandWord 0x31#8 0#24 0#32) = .command .idctMb ∧ ∀ s : State, ∃ u,
    runCommands [.idctBlk 0#32, .idctBlk 1#32, .idctBlk 2#32, .idctBlk 3#32, .idctBlk 4#32, .idctBlk 5#32] s =
      some u ∧
    u.cmdcnt = s.cmdcnt + 6#32 ∧
    exec .idctMb s = .next { u with cmdcnt := s.cmdcnt + 1#32 }

/-- A DC-only block gives a flat block, within 1.375 of d / 8, and exactly d / 8 for the multiples of 8 from −18312 to
18528 (R187). -/
def Obligations.DcOnlyBlockIsFlat : Prop :=
  (∀ (s : State) (b : Word) (d : Int), b.toNat ≤ 5 → -32768 ≤ d → d ≤ 32767 → dcOnly s b.toNat d →
    ∃ t, exec (.idctBlk b) s = .next t ∧ ∀ i < 64, t.spatAt b.toNat i = dcSample d) ∧
  (∀ d : Int, -32768 ≤ d → d ≤ 32767 → -11 ≤ 8 * dcSample d - d ∧ 8 * dcSample d - d ≤ 11) ∧
  (∀ d : Int, -18312 ≤ d → d ≤ 18528 → d % 8 = 0 → 8 * dcSample d = d)

/-! ### Colour conversion -/

/-- CSC.MB writes every in-frame pixel of the macroblock, each with the four bytes of its samples, and nothing else;
outside the frame it writes nothing (R200 to R206). That a written byte holds a value for the host (pixFresh) is the
model's form of R63 and R260 (log entry 3). -/
def Obligations.CscMbWritesTheInFramePixels : Prop :=
  ∀ (s : State) (mbx mby : Half), decode (commandWord 0x40#8 0#24 (mby ++ mbx)) = .command (.cscMb mbx mby) ∧
    ∃ t, exec (.cscMb mbx mby) s = .next t ∧
    t = { s with pix := t.pix, pixFresh := t.pixFresh, cmdcnt := s.cmdcnt + 1#32 } ∧
    (∀ px < 16, ∀ py < 16, inFrame s mbx mby px py →
      showsPixel t (pixelStart s mbx mby px py)
        (s.spatAt (2 * (py / 8) + px / 8) (8 * (py % 8) + px % 8))
        (s.spatAt 4 (8 * (py / 2) + px / 2)) (s.spatAt 5 (8 * (py / 2) + px / 2))) ∧
    (∀ a : Nat,
      (∀ px < 16, ∀ py < 16, inFrame s mbx mby px py → ∀ c < 4, a ≠ pixelStart s mbx mby px py + c) →
      Memory.read? t.pix a = Memory.read? s.pix a ∧ (a ∈ t.pixFresh ↔ a ∈ s.pixFresh))

/-- A macroblock wholly outside the frame writes nothing and completes (R206). -/
def Obligations.CscMbOutsideTheFrameWritesNothing : Prop :=
  ∀ (s : State) (mbx mby : Half),
    s.frameW.toNat ≤ 16 * mbx.toNat ∨ s.frameH.toNat ≤ 16 * mby.toNat →
    exec (.cscMb mbx mby) s = .next { s with cmdcnt := s.cmdcnt + 1#32 }

/-- The source's round trip: a DC-only macroblock, transformed and converted, shows one colour, that of its three DC
samples (R187, R208). -/
def Obligations.DcOnlyMacroblockIsOneColour : Prop :=
  ∀ (s : State) (mbx mby : Half) (dy dcb dcr : Int),
    (-32768 ≤ dy ∧ dy ≤ 32767) → (-32768 ≤ dcb ∧ dcb ≤ 32767) → (-32768 ≤ dcr ∧ dcr ≤ 32767) →
    (∀ b < 4, dcOnly s b dy) → dcOnly s 4 dcb → dcOnly s 5 dcr →
    ∃ t, runCommands [.idctMb, .cscMb mbx mby] s = some t ∧
      ∀ px < 16, ∀ py < 16, inFrame s mbx mby px py →
        showsPixel t (pixelStart s mbx mby px py) (dcSample dy) (dcSample dcb) (dcSample dcr)

/-! ### ADPCM -/

/-- ADPCM.INIT zeroes the four predictor registers and touches nothing else (R227). -/
def Obligations.AdpcmInitZeroesThePredictors : Prop :=
  decode (commandWord 0x50#8 0#24 0#32) = .command .adpcmInit ∧
  ∀ s : State, exec .adpcmInit s = .next { s with
    prev1 := #v[0#16, 0#16], prev2 := #v[0#16, 0#16], cmdcnt := s.cmdcnt + 1#32 }

/-- ADPCM.DEC with no groups, or with groups outside the valid bytes, faults before anything is decoded (R226). -/
def Obligations.AdpcmDecChecksItsOperands : Prop :=
  ∀ (s : State) (groups : BitVec 24) (base : Word),
    (groups = 0#24 → exec (.adpcmDec groups base) s = .next (faultedAs s 0x51#8 6#8 3#8 base)) ∧
    (groups ≠ 0#24 → s.ibufLen.toNat < base.toNat + 128 * groups.toNat →
      exec (.adpcmDec groups base) s = .next (faultedAs s 0x51#8 2#8 3#8 base))

/-- Mono: the eight units of each group, one after the other, feed channel 0; channel 1 is not touched (R220 to R223,
R226). -/
def Obligations.AdpcmDecMonoIsOneChannel : Prop :=
  ∀ (s : State) (groups : BitVec 24) (base : Word), s.channels = .mono → audioInside s groups base →
    (∀ n < groups.toNat, groupLegal s (base.toNat + 128 * n)) →
    ∃ t, exec (.adpcmDec groups base) s = .next t ∧ t = audioDone s t groups ∧
      t.pcmout.map BitVec.toInt = s.pcmout.map BitVec.toInt ++
        (channelRun (s.prev1At 0) (s.prev2At 0)
          (unitStream s [0, 1, 2, 3, 4, 5, 6, 7] base.toNat groups.toNat)).1 ∧
      (t.prev1At 0, t.prev2At 0) =
        (channelRun (s.prev1At 0) (s.prev2At 0)
          (unitStream s [0, 1, 2, 3, 4, 5, 6, 7] base.toNat groups.toNat)).2 ∧
      t.prev1At 1 = s.prev1At 1 ∧ t.prev2At 1 = s.prev2At 1

/-- Stereo: the even units feed the left channel, the odd units the right one, each in time order, and the output
alternates left, right (R220 to R223, R226, R64). -/
def Obligations.AdpcmDecStereoIsTwoChannels : Prop :=
  ∀ (s : State) (groups : BitVec 24) (base : Word), s.channels = .stereo → audioInside s groups base →
    (∀ n < groups.toNat, groupLegal s (base.toNat + 128 * n)) →
    ∃ t, exec (.adpcmDec groups base) s = .next t ∧ t = audioDone s t groups ∧
      t.pcmout.map BitVec.toInt = s.pcmout.map BitVec.toInt ++
        interleave
          (channelRun (s.prev1At 0) (s.prev2At 0) (unitStream s [0, 2, 4, 6] base.toNat groups.toNat)).1
          (channelRun (s.prev1At 1) (s.prev2At 1) (unitStream s [1, 3, 5, 7] base.toNat groups.toNat)).1 ∧
      (t.prev1At 0, t.prev2At 0) =
        (channelRun (s.prev1At 0) (s.prev2At 0) (unitStream s [0, 2, 4, 6] base.toNat groups.toNat)).2 ∧
      (t.prev1At 1, t.prev2At 1) =
        (channelRun (s.prev1At 1) (s.prev2At 1) (unitStream s [1, 3, 5, 7] base.toNat groups.toNat)).2

/-- Groups decoded by two commands, one behind the other, give the samples and the state of one command over all of
them (R228). -/
def Obligations.AdpcmDecSplitsAtAnyGroup : Prop :=
  ∀ (s t u : State) (a b c : BitVec 24) (base next : Word),
    c.toNat = a.toNat + b.toNat → next.toNat = base.toNat + 128 * a.toNat →
    exec (.adpcmDec a base) s = .next t → t.cmdcnt = s.cmdcnt + 1#32 →
    exec (.adpcmDec b next) t = .next u → u.cmdcnt = t.cmdcnt + 1#32 →
    exec (.adpcmDec c base) s = .next { u with cmdcnt := s.cmdcnt + 1#32 }

/-- The first group with a reserved range stops ADPCM.DEC: the groups before it are decoded, nothing of it is (R223,
R229). -/
def Obligations.AdpcmDecStopsAtAReservedRange : Prop :=
  ∀ (s : State) (groups : BitVec 24) (base : Word) (n : Nat), audioInside s groups base → n < groups.toNat →
    (∀ k < n, groupLegal s (base.toNat + 128 * k)) → ¬ groupLegal s (base.toNat + 128 * n) →
    (n = 0 → exec (.adpcmDec groups base) s = .next (faultedAs s 0x51#8 3#8 7#8 base)) ∧
    (0 < n → ∃ u, exec (.adpcmDec (BitVec.ofNat 24 n) base) s = .next u ∧ u.cmdcnt = s.cmdcnt + 1#32 ∧
      exec (.adpcmDec groups base) s =
        .next (faultedAs { u with cmdcnt := s.cmdcnt } 0x51#8 3#8 7#8 (BitVec.ofNat 32 (base.toNat + 128 * n))))

/-- All-zero nibbles: from zero predictors the output is all 0 and the predictors stay 0, for every filter; with
filter 0 the output is all 0 from any predictors, and the predictors end at 0 (R231). -/
def Obligations.AdpcmDecOfZeroNibbles : Prop :=
  ∀ (s : State) (groups : BitVec 24) (base : Word), audioInside s groups base →
    (∀ n < groups.toNat, groupLegal s (base.toNat + 128 * n) ∧
      ∀ k < 112, s.ibufRead (base.toNat + 128 * n + 16 + k) = 0#8) →
    ((s.prev1 = #v[0#16, 0#16] → s.prev2 = #v[0#16, 0#16] →
        ∃ t, exec (.adpcmDec groups base) s = .next t ∧
          t.pcmout = s.pcmout ++ List.replicate (224 * groups.toNat) 0#16 ∧
          t.prev1 = s.prev1 ∧ t.prev2 = s.prev2) ∧
     ((∀ n < groups.toNat, ∀ u < 8, parByte s (base.toNat + 128 * n) u / 16 % 4 = 0) →
        ∃ t, exec (.adpcmDec groups base) s = .next t ∧
          t.pcmout = s.pcmout ++ List.replicate (224 * groups.toNat) 0#16 ∧
          t.prev1At 0 = 0 ∧ t.prev2At 0 = 0 ∧ (s.channels = .stereo → t.prev1At 1 = 0 ∧ t.prev2At 1 = 0)))

/-! ### Exceptions, counting, ownership -/

/-- Every command either completes, adding 1 to CMDCNT and leaving the fault registers alone, or faults, leaving
CMDCNT and copying it to ERRCMD (R24, R280). -/
def Obligations.CommandCompletesOrFaults : Prop :=
  ∀ (i : Instr) (s : State), ∃ t, exec i s = .next t ∧
    ((t.cmdcnt = s.cmdcnt + 1#32 ∧ t.errCode = s.errCode ∧ t.errCause = s.errCause ∧ t.errOp = s.errOp ∧
        t.errCmd = s.errCmd ∧ t.errInfo = s.errInfo ∧ t.busy = s.busy) ∨
     (t.cmdcnt = s.cmdcnt ∧ t.errCode ≠ 0#8 ∧ t.errOp = i.opcode ∧ t.errCmd = s.cmdcnt ∧ t.busy = false))

/-- A command that faults leaves a code and cause of its row of R277's matrix; and no word with the opcode of BR.INIT
or ADPCM.DEC is illegal, while every other defined opcode has illegal words. -/
def Obligations.FaultsAreThoseOfTheMatrix : Prop :=
  (∀ (i : Instr) (s t : State), exec i s = .next t → t.cmdcnt = s.cmdcnt →
    (t.errCode, t.errCause) ∈ allowedFaults i) ∧
  (∀ op ∈ opcodesZ ++ opcodesB ++ opcodesAB,
    (∃ (a : BitVec 24) (b : Word), decode (commandWord op a b) = .illegal .reservedField) ↔ op ∉ opcodesAB)

/-- Every command but VLD.MB and ADPCM.DEC is atomic: when it faults, only the fault registers (and the hidden
accumulator, which never shows) have changed (R129, R141, R280, R281). -/
def Obligations.FaultingCommandsAreAtomic : Prop :=
  ∀ (i : Instr) (s t : State), i ≠ .vldMb → (∀ groups base, i ≠ .adpcmDec groups base) →
    exec i s = .next t → t.cmdcnt = s.cmdcnt →
    t = faultedAs (withHidden s t) i.opcode t.errCode t.errCause t.errInfo

/-- Which command writes what (R21 to R32, R61, R75): a register or memory that a command changes is one the spec says
it writes; CMDCNT changes by one at a completion, the fault registers and BUSY at a fault, never both; no command
writes IBUF, IBUF_LEN, the configuration or the host's moves. The clauses on pixFresh and sliceRewritten are the
model's (log entries 3 and 7). -/
def Obligations.RegistersHaveTheirOwners : Prop :=
  ∀ (i : Instr) (s t : State), exec i s = .next t →
    (t.coef ≠ s.coef → i = .vldMb) ∧
    (t.spat ≠ s.spat → i = .idctMb ∨ ∃ b, i = .idctBlk b) ∧
    (t.result ≠ s.result → ∃ n, i = .brPeek n) ∧
    (t.brBase ≠ s.brBase ∨ t.brNbits ≠ s.brNbits ∨ t.brActive ≠ s.brActive → ∃ len base, i = .brInit len base) ∧
    (t.bitpos ≠ s.bitpos →
      i = .vldHdr ∨ i = .vldMb ∨ (∃ n, i = .brConsume n) ∨ ∃ len base, i = .brInit len base) ∧
    (t.hdrOk ≠ s.hdrOk → i = .vldHdr ∨ ∃ len base, i = .brInit len base) ∧
    (t.qscale ≠ s.qscale → i = .vldHdr) ∧
    (t.vstate ≠ s.vstate ∨ t.blk ≠ s.blk ∨ t.pos ≠ s.pos ∨ t.accnt ≠ s.accnt ∨ t.escrun ≠ s.escrun →
      i = .vldMb ∨ ∃ len base, i = .brInit len base) ∧
    (t.frameW ≠ s.frameW ∨ t.frameH ≠ s.frameH → ∃ w h, i = .cfgFrame w h) ∧
    (t.channels ≠ s.channels → ∃ c, i = .cfgAudio c) ∧
    (t.prev1 ≠ s.prev1 ∨ t.prev2 ≠ s.prev2 → i = .adpcmInit ∨ ∃ groups base, i = .adpcmDec groups base) ∧
    (t.pcmcnt ≠ s.pcmcnt ∨ t.pcmout ≠ s.pcmout → ∃ groups base, i = .adpcmDec groups base) ∧
    (t.pix ≠ s.pix → ∃ mbx mby, i = .cscMb mbx mby) ∧
    (t.acc ≠ s.acc ∨ t.nvalid ≠ s.nvalid ∨ t.wptr ≠ s.wptr →
      i = .brRefill ∨ i = .vldHdr ∨ i = .vldMb ∨ (∃ n, i = .brPeek n) ∨ (∃ n, i = .brConsume n) ∨
        ∃ len base, i = .brInit len base) ∧
    (t.cmdcnt ≠ s.cmdcnt →
      t.cmdcnt = s.cmdcnt + 1#32 ∧ t.errCode = s.errCode ∧ t.errCause = s.errCause ∧ t.errOp = s.errOp ∧
        t.errCmd = s.errCmd ∧ t.errInfo = s.errInfo ∧ t.busy = s.busy) ∧
    (t.errCode ≠ s.errCode ∨ t.errCause ≠ s.errCause ∨ t.errOp ≠ s.errOp ∨ t.errCmd ≠ s.errCmd ∨
        t.errInfo ≠ s.errInfo ∨ t.busy ≠ s.busy →
      allowedFaults i ≠ [] ∧ t.cmdcnt = s.cmdcnt ∧ t.errCode ≠ 0#8 ∧ t.busy = false) ∧
    (t.pixFresh ≠ s.pixFresh → (∃ mbx mby, i = .cscMb mbx mby) ∨ ∃ w h, i = .cfgFrame w h) ∧
    (t.sliceRewritten ≠ s.sliceRewritten → ∃ len base, i = .brInit len base) ∧
    (t.ibuf = s.ibuf ∧ t.ibufLen = s.ibufLen ∧ t.ibufEpoch = s.ibufEpoch ∧ t.cfg = s.cfg ∧ t.moves = s.moves ∧
      t.replies = s.replies ∧ t.freeNext = s.freeNext)

/-- The video path and the audio path share no state but IBUF, CMDCNT and the fault registers: a command of each, both
completing, give the same state in either order (R313). -/
def Obligations.AudioAndVideoCommandsCommute : Prop :=
  ∀ (a v : Instr) (s sa sv : State), isAudio a = true → isVideo v = true →
    exec a s = .next sa → sa.cmdcnt = s.cmdcnt + 1#32 → exec v s = .next sv → sv.cmdcnt = s.cmdcnt + 1#32 →
    ∃ t, exec v sa = .next t ∧ exec a sv = .next t

/-! ### Host moves -/

/-- A write of CR12: SRST wins, else CLRERR clears the five fault registers and nothing else, else nothing; honoured
in every state (R36, R262, R283, R310). After SRST the state is that of power-on; the host's side of the run and the
index of the arbitrary IBUF content are the model's (log entries 2, 5, 12, 16). -/
def Obligations.CtrlWriteResetsOrClears : Prop :=
  ∀ (s : State) (v : Word) (ms : List HostMove), s.moves = .writeCr 12 v :: ms →
    (v.getLsbD 0 = true → step s = .next { State.resetWith s.cfg with
      ibufEpoch := s.ibufEpoch + 1, freeNext := s.freeNext, moves := ms, replies := s.replies }) ∧
    (v.getLsbD 0 = false → v.getLsbD 1 = true → step s = .next { s with
      errCode := 0#8, errCause := 0#8, errOp := 0#8, errCmd := 0#32, errInfo := 0#32, moves := ms }) ∧
    (v.getLsbD 0 = false → v.getLsbD 1 = false → step s = .next { s with moves := ms })

/-- The values after either reset, power-on or SRST, row by row of R39 (memories: no byte holds a value). -/
def Obligations.ResetValuesAreThoseOfTheTable : Prop :=
  ∀ t : State,
    ((∃ c, t = State.resetWith c) ∨
      (∃ (s : State) (v : Word) (ms : List HostMove),
        s.moves = .writeCr 12 v :: ms ∧ v.getLsbD 0 = true ∧ step s = .next t)) →
    (∀ b < 6, ∀ i < 64, t.coefAt b i = 0 ∧ t.spatAt b i = 0) ∧
    t.result = 0#32 ∧ t.cmdcnt = 0#32 ∧
    t.brActive = false ∧ t.brBase = 0#32 ∧
    t.brNbits = 0#32 ∧ t.bitpos = 0#32 ∧
    t.acc = 0#48 ∧ t.nvalid = 0 ∧ t.wptr = 0#32 ∧
    t.hdrOk = false ∧ t.qscale = 0#16 ∧
    t.vstate = .idle ∧ t.blk = 0#3 ∧ t.pos = 0#6 ∧
    t.accnt = 0#7 ∧ t.escrun = 0#6 ∧
    t.frameW = 0#16 ∧ t.frameH = 0#16 ∧
    t.channels = .stereo ∧
    (∀ k < 2, t.prev1At k = 0 ∧ t.prev2At k = 0) ∧
    t.pcmcnt = 0#32 ∧ t.busy = false ∧
    t.errCode = 0#8 ∧ t.errCause = 0#8 ∧ t.errOp = 0#8 ∧
    t.errCmd = 0#32 ∧ t.errInfo = 0#32 ∧
    t.ibufLen = 0#32 ∧ t.pcmout = [] ∧
    (∀ a, Memory.read? t.ibuf a = none ∧ Memory.read? t.pix a = none)

/-- What the host reads in each control register (R33), with the fields of STATUS (R34) and ERR (R35), and the level
of irq (R285). -/
def Obligations.ControlRegistersShowTheState : Prop :=
  ∀ s : State,
    readCr s 0 = 0x4D444201#32 ∧
    ((readCr s 1).getLsbD 0 = s.busy ∧ (readCr s 1).getLsbD 1 = decide (s.errCode ≠ 0#8) ∧
      (readCr s 1).getLsbD 2 = s.brActive ∧ (readCr s 1).getLsbD 3 = s.hdrOk ∧
      (readCr s 1).extractLsb' 4 2 =
        (match s.vstate with | .idle => 0#2 | .readRunValue => 1#2 | .readEscape => 2#2 | .endOfBlock => 3#2) ∧
      (readCr s 1).extractLsb' 6 3 = s.blk ∧ (readCr s 1).extractLsb' 9 6 = s.pos ∧
      (readCr s 1).getLsbD 15 = false ∧ (readCr s 1).getLsbD 16 = decide (s.channels = .stereo) ∧
      (readCr s 1).extractLsb' 17 15 = 0#15) ∧
    ((readCr s 2).extractLsb' 0 8 = s.errCode ∧ (readCr s 2).extractLsb' 8 8 = s.errCause ∧
      (readCr s 2).extractLsb' 16 8 = s.errOp ∧ (readCr s 2).extractLsb' 24 8 = 0#8) ∧
    (readCr s 3 = s.errCmd ∧ readCr s 4 = s.errInfo ∧ readCr s 5 = s.result ∧ readCr s 6 = s.bitpos ∧
      readCr s 7 = s.cmdcnt ∧ readCr s 8 = s.brNbits ∧ (readCr s 9).toNat = s.qscale.toNat) ∧
    ((readCr s 10).extractLsb' 0 16 = s.frameW ∧ (readCr s 10).extractLsb' 16 16 = s.frameH ∧
      readCr s 11 = s.ibufLen ∧ readCr s 12 = 0#32) ∧
    ((readCr s 13).extractLsb' 0 16 = s.prev1[0] ∧ (readCr s 13).extractLsb' 16 16 = s.prev2[0] ∧
      (readCr s 14).extractLsb' 0 16 = s.prev1[1] ∧ (readCr s 14).extractLsb' 16 16 = s.prev2[1] ∧
      readCr s 15 = s.pcmcnt) ∧
    s.irq = (readCr s 1).getLsbD 1

/-- Reading a control register changes no register: STATUS at any time, any of them while BUSY = 0 (R259, R37). What
the host gets is recorded in the model's replies (log entry 12); a write of a read-only register is ignored. -/
def Obligations.ControlRegisterReadsChangeNothing : Prop :=
  ∀ (s : State) (n : Fin 16) (v : Word) (ms : List HostMove),
    (s.moves = .readCr n :: ms → s.busy = false ∨ n = 1 →
      step s = .next { s with moves := ms, replies := s.replies ++ [.cr (readCr s n)] }) ∧
    (s.moves = .writeCr n v :: ms → n ≠ 11 → n ≠ 12 → step s = .next { s with moves := ms })

/-- A host read of PIX while BUSY = 0 gives the byte CSC.MB last wrote there, if one was written since reset and since
FRAME_W last changed, and otherwise no defined value: a free one (R63, R260; log entry 3). Reading changes nothing. -/
def Obligations.PixReadsGiveTheLastWrittenByte : Prop :=
  ∀ (s : State) (o : Nat) (ms : List HostMove), s.moves = .readPix o :: ms → s.busy = false → o < s.cfg.pixSize →
    (∀ b, o ∈ s.pixFresh → Memory.read? s.pix o = some b →
      step s = .next { s with moves := ms, replies := s.replies ++ [.pixel b] }) ∧
    (o ∉ s.pixFresh ∨ Memory.read? s.pix o = none →
      step s = .next { s with
        moves := ms, replies := s.replies ++ [.pixel (Config.freePixByte s.freeNext)], freeNext := s.freeNext + 1 })

/-- Loading input while BUSY = 0: the written byte reads as written, every other offset as before (R257); IBUF_LEN
takes the value, capped at IBUF_SIZE (R258, R32). MODEL'S CHOICE (log entry 7, the model's form of R323): a write
inside the active slice, or an IBUF_LEN lowered to below its end, is noted as moving the slice's input. -/
def Obligations.HostLoadsInput : Prop :=
  ∀ (s : State) (ms : List HostMove), s.busy = false →
    (∀ (o : Nat) (b : Byte), s.moves = .writeIbuf o b :: ms → o < s.cfg.ibufSize →
      ∃ t, step s = .next t ∧
        t = { s with moves := ms, ibuf := t.ibuf, sliceRewritten := t.sliceRewritten } ∧
        (∀ a, t.ibufRead a = if a = o then b else s.ibufRead a) ∧
        (t.sliceRewritten = true ↔ s.sliceRewritten = true ∨
          (s.brActive = true ∧ s.brBase.toNat ≤ o ∧ o < s.brBase.toNat + s.brNbits.toNat / 8))) ∧
    (∀ v : Word, s.moves = .writeCr 11 v :: ms →
      ∃ t, step s = .next t ∧
        t = { s with moves := ms, ibufLen := t.ibufLen, sliceRewritten := t.sliceRewritten } ∧
        t.ibufLen.toNat = min v.toNat s.cfg.ibufSize ∧
        (t.sliceRewritten = true ↔ s.sliceRewritten = true ∨
          (s.brActive = true ∧ t.ibufLen.toNat < s.ibufLen.toNat ∧
            t.ibufLen.toNat < s.brBase.toNat + s.brNbits.toNat / 8)))

/-- Draining takes samples from the front of PCMOUT, in order, as many as asked for and present, and leaves PCMCNT
(R261); as bytes each sample is low byte first (R64). That a drain of more than is present takes all there is, is
deduced (log entry 9); the samples are recorded in the model's replies (log entry 12). -/
def Obligations.DrainTakesFromTheFront : Prop :=
  ∀ (s : State) (k : Nat) (ms : List HostMove), s.moves = .drainPcm k :: ms → s.busy = false →
    ∃ taken rest, s.pcmout = taken ++ rest ∧ taken.length = min k s.pcmout.length ∧
      step s = .next { s with moves := ms, pcmout := rest, replies := s.replies ++ [.samples taken] } ∧
      ∀ j < taken.length, ∀ v, taken[j]? = some v →
        (pcmBytes taken)[2 * j]? = some (v.extractLsb' 0 8) ∧
        (pcmBytes taken)[2 * j + 1]? = some (v.extractLsb' 8 8)

/-! ### Invariants -/

/-- The memories keep their canonical form, every listed offset exists, the frame fits PIX and IBUF_LEN is capped
(R32, R60, R63, R251). -/
def Obligations.EveryStepKeepsTheMemories : Prop := ∀ s t : State, s.MemoryOk → step s = .next t → t.MemoryOk

/-- COEF stays in 16 bits and SPAT in the IDCT's range (R21, R22, R150, R186). -/
def Obligations.EveryStepKeepsTheWorkArrays : Prop := ∀ s t : State, s.ArraysOk → step s = .next t → t.ArraysOk

/-- BLK stays 0 to 5, ACCNT 0 to 64, and a header that counts is a legal one (R27, R99, R141). -/
def Obligations.EveryStepKeepsTheDecoderState : Prop := ∀ s t : State, s.VldOk → step s = .next t → t.VldOk

/-- Between steps the block is not busy, and its fault registers are all 0 or show a code and cause of R270 to R276:
codes 1, 4 and 8 to 255 never appear (R73, R270, R271). -/
def Obligations.EveryStepKeepsTheFaultRegisters : Prop := ∀ s t : State, s.FaultOk → step s = .next t → t.FaultOk

/-- Reset has every invariant, whatever the configuration. -/
def Obligations.ResetHasEveryInvariant : Prop :=
  ∀ c : Config, (State.resetWith c).MemoryOk ∧ (State.resetWith c).BitReaderOk ∧ (State.resetWith c).VldOk ∧
    (State.resetWith c).ArraysOk ∧ (State.resetWith c).FaultOk

/-- Whatever the host does, every state it reaches from reset with a well-formed configuration has every invariant and
that configuration (R7, R25, R264). -/
def Obligations.ReachableStatesHaveEveryInvariant : Prop :=
  ∀ (c : Config) (s : State), c.wellFormed = true → Reachable c s →
    s.cfg = c ∧ s.MemoryOk ∧ s.BitReaderOk ∧ s.VldOk ∧ s.ArraysOk ∧ s.FaultOk

/-! ### Entropy decoder: where a code or a DC stops it -/

/-- Where the slice ends inside a code, VLD.MB stops with cause BUDGET at the start of the field that did not fit: of
a code of table A where it begins, of a code of table B just after the prefix, of a raw code just after the pair's
code, then with VSTATE = ReadEscape and ESCRUN = the pair's run (R144, R147, R152, R153). -/
def Obligations.VldMbStopsWhereACodeDoesNotFit : Prop :=
  ∀ (s : State) (done : List CodedBlock) (part : CodedBlock), blockBegun s done part →
    ((levelA s (afterStart s done part)).kind ≠ .invalid →
      s.brNbits.toNat < afterStart s done part + (levelA s (afterStart s done part)).len →
      stopsInBlock s done part 4#8 (afterStart s done part) .readRunValue (escapeRun s.cfg part)) ∧
    (∀ start, start = afterStart s done part + (levelA s (afterStart s done part)).len →
      (levelA s (afterStart s done part)).kind = .escapePrefix → start ≤ s.brNbits.toNat →
      (levelB s start).kind ≠ .invalid → s.brNbits.toNat < start + (levelB s start).len →
      stopsInBlock s done part 4#8 start .readRunValue (escapeRun s.cfg part)) ∧
    (∀ p : CodedPair, codeLegal s.cfg p = true → (codeEntry s.cfg p).run ≠ 0 → hasRaw s.cfg p = true →
      streamBegins s (blocksBits s.cfg done ++ startBits s.cfg part ++ codeBits s.cfg p) →
      s.brNbits.toNat < afterStart s done part + (codeBits s.cfg p).length + s.cfg.rawBits →
      stopsInBlock s done part 4#8 (afterStart s done part + (codeBits s.cfg p).length) .readEscape
        (codeEntry s.cfg p).run)

/-- A DC whose product with its step does not fit 16 bits stops VLD.MB with cause COEF_RANGE just after the DC field:
nothing of that block is placed (R143, R150, R153, R155). -/
def Obligations.VldMbStopsAtADcOutOfRange : Prop :=
  ∀ (s : State) (done : List CodedBlock) (dc : Nat), vldReady s → done.length < 6 → blocksLegal s done →
    dc < 2 ^ s.cfg.dcBits → streamBegins s (blocksBits s.cfg done ++ keyBits s.cfg.dcBits s.cfg.dcBits dc) →
    (sext s.cfg.dcBits dc * s.cfg.qstep s.qscale.toNat (planeOf done.length) 0 < -32768 ∨
      32767 < sext s.cfg.dcBits dc * s.cfg.qstep s.qscale.toNat (planeOf done.length) 0) →
    ∃ t, exec .vldMb s = .next t ∧
      t = faultedAs (vldWrites s t) 0x21#8 3#8 5#8 t.bitpos ∧
      t.bitpos.toNat = s.bitpos.toNat + (blocksBits s.cfg done).length + s.cfg.dcBits ∧
      t.blk.toNat = done.length ∧ t.vstate = .readRunValue ∧ t.pos = 0#6 ∧ t.accnt = 0#7 ∧ t.escrun = 0#6 ∧
      coefHoldsOnly s t done
end

