-- ==== Sys2Proof/Laws/State.lean ====
section
/-! SUPPORT. Every named update of the state, field by field: what it writes and what it leaves. All by rfl. -/

namespace Sys2Proof.Machine

variable (s : State)

/-! ### complete -/

@[simp] theorem State.complete_cfg : s.complete.cfg = s.cfg := rfl
@[simp] theorem State.complete_coef : s.complete.coef = s.coef := rfl
@[simp] theorem State.complete_spat : s.complete.spat = s.spat := rfl
@[simp] theorem State.complete_result : s.complete.result = s.result := rfl
@[simp] theorem State.complete_cmdcnt : s.complete.cmdcnt = s.cmdcnt + 1#32 := rfl
@[simp] theorem State.complete_brActive : s.complete.brActive = s.brActive := rfl
@[simp] theorem State.complete_brBase : s.complete.brBase = s.brBase := rfl
@[simp] theorem State.complete_brNbits : s.complete.brNbits = s.brNbits := rfl
@[simp] theorem State.complete_bitpos : s.complete.bitpos = s.bitpos := rfl
@[simp] theorem State.complete_acc : s.complete.acc = s.acc := rfl
@[simp] theorem State.complete_nvalid : s.complete.nvalid = s.nvalid := rfl
@[simp] theorem State.complete_wptr : s.complete.wptr = s.wptr := rfl
@[simp] theorem State.complete_hdrOk : s.complete.hdrOk = s.hdrOk := rfl
@[simp] theorem State.complete_qscale : s.complete.qscale = s.qscale := rfl
@[simp] theorem State.complete_vstate : s.complete.vstate = s.vstate := rfl
@[simp] theorem State.complete_blk : s.complete.blk = s.blk := rfl
@[simp] theorem State.complete_pos : s.complete.pos = s.pos := rfl
@[simp] theorem State.complete_accnt : s.complete.accnt = s.accnt := rfl
@[simp] theorem State.complete_escrun : s.complete.escrun = s.escrun := rfl
@[simp] theorem State.complete_frameW : s.complete.frameW = s.frameW := rfl
@[simp] theorem State.complete_frameH : s.complete.frameH = s.frameH := rfl
@[simp] theorem State.complete_channels : s.complete.channels = s.channels := rfl
@[simp] theorem State.complete_prev1 : s.complete.prev1 = s.prev1 := rfl
@[simp] theorem State.complete_prev2 : s.complete.prev2 = s.prev2 := rfl
@[simp] theorem State.complete_pcmcnt : s.complete.pcmcnt = s.pcmcnt := rfl
@[simp] theorem State.complete_busy : s.complete.busy = s.busy := rfl
@[simp] theorem State.complete_errCode : s.complete.errCode = s.errCode := rfl
@[simp] theorem State.complete_errCause : s.complete.errCause = s.errCause := rfl
@[simp] theorem State.complete_errOp : s.complete.errOp = s.errOp := rfl
@[simp] theorem State.complete_errCmd : s.complete.errCmd = s.errCmd := rfl
@[simp] theorem State.complete_errInfo : s.complete.errInfo = s.errInfo := rfl
@[simp] theorem State.complete_ibufLen : s.complete.ibufLen = s.ibufLen := rfl
@[simp] theorem State.complete_ibuf : s.complete.ibuf = s.ibuf := rfl
@[simp] theorem State.complete_pix : s.complete.pix = s.pix := rfl
@[simp] theorem State.complete_pcmout : s.complete.pcmout = s.pcmout := rfl
@[simp] theorem State.complete_pixFresh : s.complete.pixFresh = s.pixFresh := rfl
@[simp] theorem State.complete_sliceRewritten : s.complete.sliceRewritten = s.sliceRewritten := rfl
@[simp] theorem State.complete_ibufEpoch : s.complete.ibufEpoch = s.ibufEpoch := rfl
@[simp] theorem State.complete_freeNext : s.complete.freeNext = s.freeNext := rfl
@[simp] theorem State.complete_moves : s.complete.moves = s.moves := rfl
@[simp] theorem State.complete_replies : s.complete.replies = s.replies := rfl

/-! ### takeFault -/

@[simp] theorem State.takeFault_cfg (op : Byte) (e : Exc) (info : Word) : (s.takeFault op e info).cfg = s.cfg := rfl
@[simp] theorem State.takeFault_coef (op : Byte) (e : Exc) (info : Word) : (s.takeFault op e info).coef = s.coef := rfl
@[simp] theorem State.takeFault_spat (op : Byte) (e : Exc) (info : Word) : (s.takeFault op e info).spat = s.spat := rfl
@[simp] theorem State.takeFault_result (op : Byte) (e : Exc) (info : Word) : (s.takeFault op e info).result = s.result := rfl
@[simp] theorem State.takeFault_cmdcnt (op : Byte) (e : Exc) (info : Word) : (s.takeFault op e info).cmdcnt = s.cmdcnt := rfl
@[simp] theorem State.takeFault_brActive (op : Byte) (e : Exc) (info : Word) : (s.takeFault op e info).brActive = s.brActive := rfl
@[simp] theorem State.takeFault_brBase (op : Byte) (e : Exc) (info : Word) : (s.takeFault op e info).brBase = s.brBase := rfl
@[simp] theorem State.takeFault_brNbits (op : Byte) (e : Exc) (info : Word) : (s.takeFault op e info).brNbits = s.brNbits := rfl
@[simp] theorem State.takeFault_bitpos (op : Byte) (e : Exc) (info : Word) : (s.takeFault op e info).bitpos = s.bitpos := rfl
@[simp] theorem State.takeFault_acc (op : Byte) (e : Exc) (info : Word) : (s.takeFault op e info).acc = s.acc := rfl
@[simp] theorem State.takeFault_nvalid (op : Byte) (e : Exc) (info : Word) : (s.takeFault op e info).nvalid = s.nvalid := rfl
@[simp] theorem State.takeFault_wptr (op : Byte) (e : Exc) (info : Word) : (s.takeFault op e info).wptr = s.wptr := rfl
@[simp] theorem State.takeFault_hdrOk (op : Byte) (e : Exc) (info : Word) : (s.takeFault op e info).hdrOk = s.hdrOk := rfl
@[simp] theorem State.takeFault_qscale (op : Byte) (e : Exc) (info : Word) : (s.takeFault op e info).qscale = s.qscale := rfl
@[simp] theorem State.takeFault_vstate (op : Byte) (e : Exc) (info : Word) : (s.takeFault op e info).vstate = s.vstate := rfl
@[simp] theorem State.takeFault_blk (op : Byte) (e : Exc) (info : Word) : (s.takeFault op e info).blk = s.blk := rfl
@[simp] theorem State.takeFault_pos (op : Byte) (e : Exc) (info : Word) : (s.takeFault op e info).pos = s.pos := rfl
@[simp] theorem State.takeFault_accnt (op : Byte) (e : Exc) (info : Word) : (s.takeFault op e info).accnt = s.accnt := rfl
@[simp] theorem State.takeFault_escrun (op : Byte) (e : Exc) (info : Word) : (s.takeFault op e info).escrun = s.escrun := rfl
@[simp] theorem State.takeFault_frameW (op : Byte) (e : Exc) (info : Word) : (s.takeFault op e info).frameW = s.frameW := rfl
@[simp] theorem State.takeFault_frameH (op : Byte) (e : Exc) (info : Word) : (s.takeFault op e info).frameH = s.frameH := rfl
@[simp] theorem State.takeFault_channels (op : Byte) (e : Exc) (info : Word) : (s.takeFault op e info).channels = s.channels := rfl
@[simp] theorem State.takeFault_prev1 (op : Byte) (e : Exc) (info : Word) : (s.takeFault op e info).prev1 = s.prev1 := rfl
@[simp] theorem State.takeFault_prev2 (op : Byte) (e : Exc) (info : Word) : (s.takeFault op e info).prev2 = s.prev2 := rfl
@[simp] theorem State.takeFault_pcmcnt (op : Byte) (e : Exc) (info : Word) : (s.takeFault op e info).pcmcnt = s.pcmcnt := rfl
@[simp] theorem State.takeFault_busy (op : Byte) (e : Exc) (info : Word) : (s.takeFault op e info).busy = false := rfl
@[simp] theorem State.takeFault_errCode (op : Byte) (e : Exc) (info : Word) : (s.takeFault op e info).errCode = excCode e := rfl
@[simp] theorem State.takeFault_errCause (op : Byte) (e : Exc) (info : Word) : (s.takeFault op e info).errCause = excCause e := rfl
@[simp] theorem State.takeFault_errOp (op : Byte) (e : Exc) (info : Word) : (s.takeFault op e info).errOp = op := rfl
@[simp] theorem State.takeFault_errCmd (op : Byte) (e : Exc) (info : Word) : (s.takeFault op e info).errCmd = s.cmdcnt := rfl
@[simp] theorem State.takeFault_errInfo (op : Byte) (e : Exc) (info : Word) : (s.takeFault op e info).errInfo = info := rfl
@[simp] theorem State.takeFault_ibufLen (op : Byte) (e : Exc) (info : Word) : (s.takeFault op e info).ibufLen = s.ibufLen := rfl
@[simp] theorem State.takeFault_ibuf (op : Byte) (e : Exc) (info : Word) : (s.takeFault op e info).ibuf = s.ibuf := rfl
@[simp] theorem State.takeFault_pix (op : Byte) (e : Exc) (info : Word) : (s.takeFault op e info).pix = s.pix := rfl
@[simp] theorem State.takeFault_pcmout (op : Byte) (e : Exc) (info : Word) : (s.takeFault op e info).pcmout = s.pcmout := rfl
@[simp] theorem State.takeFault_pixFresh (op : Byte) (e : Exc) (info : Word) : (s.takeFault op e info).pixFresh = s.pixFresh := rfl
@[simp] theorem State.takeFault_sliceRewritten (op : Byte) (e : Exc) (info : Word) : (s.takeFault op e info).sliceRewritten = s.sliceRewritten := rfl
@[simp] theorem State.takeFault_ibufEpoch (op : Byte) (e : Exc) (info : Word) : (s.takeFault op e info).ibufEpoch = s.ibufEpoch := rfl
@[simp] theorem State.takeFault_freeNext (op : Byte) (e : Exc) (info : Word) : (s.takeFault op e info).freeNext = s.freeNext := rfl
@[simp] theorem State.takeFault_moves (op : Byte) (e : Exc) (info : Word) : (s.takeFault op e info).moves = s.moves := rfl
@[simp] theorem State.takeFault_replies (op : Byte) (e : Exc) (info : Word) : (s.takeFault op e info).replies = s.replies := rfl

/-! ### clearFault -/

@[simp] theorem State.clearFault_cfg : s.clearFault.cfg = s.cfg := rfl
@[simp] theorem State.clearFault_coef : s.clearFault.coef = s.coef := rfl
@[simp] theorem State.clearFault_spat : s.clearFault.spat = s.spat := rfl
@[simp] theorem State.clearFault_result : s.clearFault.result = s.result := rfl
@[simp] theorem State.clearFault_cmdcnt : s.clearFault.cmdcnt = s.cmdcnt := rfl
@[simp] theorem State.clearFault_brActive : s.clearFault.brActive = s.brActive := rfl
@[simp] theorem State.clearFault_brBase : s.clearFault.brBase = s.brBase := rfl
@[simp] theorem State.clearFault_brNbits : s.clearFault.brNbits = s.brNbits := rfl
@[simp] theorem State.clearFault_bitpos : s.clearFault.bitpos = s.bitpos := rfl
@[simp] theorem State.clearFault_acc : s.clearFault.acc = s.acc := rfl
@[simp] theorem State.clearFault_nvalid : s.clearFault.nvalid = s.nvalid := rfl
@[simp] theorem State.clearFault_wptr : s.clearFault.wptr = s.wptr := rfl
@[simp] theorem State.clearFault_hdrOk : s.clearFault.hdrOk = s.hdrOk := rfl
@[simp] theorem State.clearFault_qscale : s.clearFault.qscale = s.qscale := rfl
@[simp] theorem State.clearFault_vstate : s.clearFault.vstate = s.vstate := rfl
@[simp] theorem State.clearFault_blk : s.clearFault.blk = s.blk := rfl
@[simp] theorem State.clearFault_pos : s.clearFault.pos = s.pos := rfl
@[simp] theorem State.clearFault_accnt : s.clearFault.accnt = s.accnt := rfl
@[simp] theorem State.clearFault_escrun : s.clearFault.escrun = s.escrun := rfl
@[simp] theorem State.clearFault_frameW : s.clearFault.frameW = s.frameW := rfl
@[simp] theorem State.clearFault_frameH : s.clearFault.frameH = s.frameH := rfl
@[simp] theorem State.clearFault_channels : s.clearFault.channels = s.channels := rfl
@[simp] theorem State.clearFault_prev1 : s.clearFault.prev1 = s.prev1 := rfl
@[simp] theorem State.clearFault_prev2 : s.clearFault.prev2 = s.prev2 := rfl
@[simp] theorem State.clearFault_pcmcnt : s.clearFault.pcmcnt = s.pcmcnt := rfl
@[simp] theorem State.clearFault_busy : s.clearFault.busy = s.busy := rfl
@[simp] theorem State.clearFault_errCode : s.clearFault.errCode = 0#8 := rfl
@[simp] theorem State.clearFault_errCause : s.clearFault.errCause = 0#8 := rfl
@[simp] theorem State.clearFault_errOp : s.clearFault.errOp = 0#8 := rfl
@[simp] theorem State.clearFault_errCmd : s.clearFault.errCmd = 0#32 := rfl
@[simp] theorem State.clearFault_errInfo : s.clearFault.errInfo = 0#32 := rfl
@[simp] theorem State.clearFault_ibufLen : s.clearFault.ibufLen = s.ibufLen := rfl
@[simp] theorem State.clearFault_ibuf : s.clearFault.ibuf = s.ibuf := rfl
@[simp] theorem State.clearFault_pix : s.clearFault.pix = s.pix := rfl
@[simp] theorem State.clearFault_pcmout : s.clearFault.pcmout = s.pcmout := rfl
@[simp] theorem State.clearFault_pixFresh : s.clearFault.pixFresh = s.pixFresh := rfl
@[simp] theorem State.clearFault_sliceRewritten : s.clearFault.sliceRewritten = s.sliceRewritten := rfl
@[simp] theorem State.clearFault_ibufEpoch : s.clearFault.ibufEpoch = s.ibufEpoch := rfl
@[simp] theorem State.clearFault_freeNext : s.clearFault.freeNext = s.freeNext := rfl
@[simp] theorem State.clearFault_moves : s.clearFault.moves = s.moves := rfl
@[simp] theorem State.clearFault_replies : s.clearFault.replies = s.replies := rfl

/-! ### pixWrite -/

@[simp] theorem State.pixWrite_cfg (o : Nat) (v : Byte) : (s.pixWrite o v).cfg = s.cfg := rfl
@[simp] theorem State.pixWrite_coef (o : Nat) (v : Byte) : (s.pixWrite o v).coef = s.coef := rfl
@[simp] theorem State.pixWrite_spat (o : Nat) (v : Byte) : (s.pixWrite o v).spat = s.spat := rfl
@[simp] theorem State.pixWrite_result (o : Nat) (v : Byte) : (s.pixWrite o v).result = s.result := rfl
@[simp] theorem State.pixWrite_cmdcnt (o : Nat) (v : Byte) : (s.pixWrite o v).cmdcnt = s.cmdcnt := rfl
@[simp] theorem State.pixWrite_brActive (o : Nat) (v : Byte) : (s.pixWrite o v).brActive = s.brActive := rfl
@[simp] theorem State.pixWrite_brBase (o : Nat) (v : Byte) : (s.pixWrite o v).brBase = s.brBase := rfl
@[simp] theorem State.pixWrite_brNbits (o : Nat) (v : Byte) : (s.pixWrite o v).brNbits = s.brNbits := rfl
@[simp] theorem State.pixWrite_bitpos (o : Nat) (v : Byte) : (s.pixWrite o v).bitpos = s.bitpos := rfl
@[simp] theorem State.pixWrite_acc (o : Nat) (v : Byte) : (s.pixWrite o v).acc = s.acc := rfl
@[simp] theorem State.pixWrite_nvalid (o : Nat) (v : Byte) : (s.pixWrite o v).nvalid = s.nvalid := rfl
@[simp] theorem State.pixWrite_wptr (o : Nat) (v : Byte) : (s.pixWrite o v).wptr = s.wptr := rfl
@[simp] theorem State.pixWrite_hdrOk (o : Nat) (v : Byte) : (s.pixWrite o v).hdrOk = s.hdrOk := rfl
@[simp] theorem State.pixWrite_qscale (o : Nat) (v : Byte) : (s.pixWrite o v).qscale = s.qscale := rfl
@[simp] theorem State.pixWrite_vstate (o : Nat) (v : Byte) : (s.pixWrite o v).vstate = s.vstate := rfl
@[simp] theorem State.pixWrite_blk (o : Nat) (v : Byte) : (s.pixWrite o v).blk = s.blk := rfl
@[simp] theorem State.pixWrite_pos (o : Nat) (v : Byte) : (s.pixWrite o v).pos = s.pos := rfl
@[simp] theorem State.pixWrite_accnt (o : Nat) (v : Byte) : (s.pixWrite o v).accnt = s.accnt := rfl
@[simp] theorem State.pixWrite_escrun (o : Nat) (v : Byte) : (s.pixWrite o v).escrun = s.escrun := rfl
@[simp] theorem State.pixWrite_frameW (o : Nat) (v : Byte) : (s.pixWrite o v).frameW = s.frameW := rfl
@[simp] theorem State.pixWrite_frameH (o : Nat) (v : Byte) : (s.pixWrite o v).frameH = s.frameH := rfl
@[simp] theorem State.pixWrite_channels (o : Nat) (v : Byte) : (s.pixWrite o v).channels = s.channels := rfl
@[simp] theorem State.pixWrite_prev1 (o : Nat) (v : Byte) : (s.pixWrite o v).prev1 = s.prev1 := rfl
@[simp] theorem State.pixWrite_prev2 (o : Nat) (v : Byte) : (s.pixWrite o v).prev2 = s.prev2 := rfl
@[simp] theorem State.pixWrite_pcmcnt (o : Nat) (v : Byte) : (s.pixWrite o v).pcmcnt = s.pcmcnt := rfl
@[simp] theorem State.pixWrite_busy (o : Nat) (v : Byte) : (s.pixWrite o v).busy = s.busy := rfl
@[simp] theorem State.pixWrite_errCode (o : Nat) (v : Byte) : (s.pixWrite o v).errCode = s.errCode := rfl
@[simp] theorem State.pixWrite_errCause (o : Nat) (v : Byte) : (s.pixWrite o v).errCause = s.errCause := rfl
@[simp] theorem State.pixWrite_errOp (o : Nat) (v : Byte) : (s.pixWrite o v).errOp = s.errOp := rfl
@[simp] theorem State.pixWrite_errCmd (o : Nat) (v : Byte) : (s.pixWrite o v).errCmd = s.errCmd := rfl
@[simp] theorem State.pixWrite_errInfo (o : Nat) (v : Byte) : (s.pixWrite o v).errInfo = s.errInfo := rfl
@[simp] theorem State.pixWrite_ibufLen (o : Nat) (v : Byte) : (s.pixWrite o v).ibufLen = s.ibufLen := rfl
@[simp] theorem State.pixWrite_ibuf (o : Nat) (v : Byte) : (s.pixWrite o v).ibuf = s.ibuf := rfl
@[simp] theorem State.pixWrite_pix (o : Nat) (v : Byte) : (s.pixWrite o v).pix = Memory.write s.pix o v := rfl
@[simp] theorem State.pixWrite_pcmout (o : Nat) (v : Byte) : (s.pixWrite o v).pcmout = s.pcmout := rfl
@[simp] theorem State.pixWrite_pixFresh (o : Nat) (v : Byte) : (s.pixWrite o v).pixFresh = offsetInsert s.pixFresh o := rfl
@[simp] theorem State.pixWrite_sliceRewritten (o : Nat) (v : Byte) : (s.pixWrite o v).sliceRewritten = s.sliceRewritten := rfl
@[simp] theorem State.pixWrite_ibufEpoch (o : Nat) (v : Byte) : (s.pixWrite o v).ibufEpoch = s.ibufEpoch := rfl
@[simp] theorem State.pixWrite_freeNext (o : Nat) (v : Byte) : (s.pixWrite o v).freeNext = s.freeNext := rfl
@[simp] theorem State.pixWrite_moves (o : Nat) (v : Byte) : (s.pixWrite o v).moves = s.moves := rfl
@[simp] theorem State.pixWrite_replies (o : Nat) (v : Byte) : (s.pixWrite o v).replies = s.replies := rfl

/-! ### pcmEmit -/

@[simp] theorem State.pcmEmit_cfg (v : Half) : (s.pcmEmit v).cfg = s.cfg := rfl
@[simp] theorem State.pcmEmit_coef (v : Half) : (s.pcmEmit v).coef = s.coef := rfl
@[simp] theorem State.pcmEmit_spat (v : Half) : (s.pcmEmit v).spat = s.spat := rfl
@[simp] theorem State.pcmEmit_result (v : Half) : (s.pcmEmit v).result = s.result := rfl
@[simp] theorem State.pcmEmit_cmdcnt (v : Half) : (s.pcmEmit v).cmdcnt = s.cmdcnt := rfl
@[simp] theorem State.pcmEmit_brActive (v : Half) : (s.pcmEmit v).brActive = s.brActive := rfl
@[simp] theorem State.pcmEmit_brBase (v : Half) : (s.pcmEmit v).brBase = s.brBase := rfl
@[simp] theorem State.pcmEmit_brNbits (v : Half) : (s.pcmEmit v).brNbits = s.brNbits := rfl
@[simp] theorem State.pcmEmit_bitpos (v : Half) : (s.pcmEmit v).bitpos = s.bitpos := rfl
@[simp] theorem State.pcmEmit_acc (v : Half) : (s.pcmEmit v).acc = s.acc := rfl
@[simp] theorem State.pcmEmit_nvalid (v : Half) : (s.pcmEmit v).nvalid = s.nvalid := rfl
@[simp] theorem State.pcmEmit_wptr (v : Half) : (s.pcmEmit v).wptr = s.wptr := rfl
@[simp] theorem State.pcmEmit_hdrOk (v : Half) : (s.pcmEmit v).hdrOk = s.hdrOk := rfl
@[simp] theorem State.pcmEmit_qscale (v : Half) : (s.pcmEmit v).qscale = s.qscale := rfl
@[simp] theorem State.pcmEmit_vstate (v : Half) : (s.pcmEmit v).vstate = s.vstate := rfl
@[simp] theorem State.pcmEmit_blk (v : Half) : (s.pcmEmit v).blk = s.blk := rfl
@[simp] theorem State.pcmEmit_pos (v : Half) : (s.pcmEmit v).pos = s.pos := rfl
@[simp] theorem State.pcmEmit_accnt (v : Half) : (s.pcmEmit v).accnt = s.accnt := rfl
@[simp] theorem State.pcmEmit_escrun (v : Half) : (s.pcmEmit v).escrun = s.escrun := rfl
@[simp] theorem State.pcmEmit_frameW (v : Half) : (s.pcmEmit v).frameW = s.frameW := rfl
@[simp] theorem State.pcmEmit_frameH (v : Half) : (s.pcmEmit v).frameH = s.frameH := rfl
@[simp] theorem State.pcmEmit_channels (v : Half) : (s.pcmEmit v).channels = s.channels := rfl
@[simp] theorem State.pcmEmit_prev1 (v : Half) : (s.pcmEmit v).prev1 = s.prev1 := rfl
@[simp] theorem State.pcmEmit_prev2 (v : Half) : (s.pcmEmit v).prev2 = s.prev2 := rfl
@[simp] theorem State.pcmEmit_pcmcnt (v : Half) : (s.pcmEmit v).pcmcnt = s.pcmcnt + 1#32 := rfl
@[simp] theorem State.pcmEmit_busy (v : Half) : (s.pcmEmit v).busy = s.busy := rfl
@[simp] theorem State.pcmEmit_errCode (v : Half) : (s.pcmEmit v).errCode = s.errCode := rfl
@[simp] theorem State.pcmEmit_errCause (v : Half) : (s.pcmEmit v).errCause = s.errCause := rfl
@[simp] theorem State.pcmEmit_errOp (v : Half) : (s.pcmEmit v).errOp = s.errOp := rfl
@[simp] theorem State.pcmEmit_errCmd (v : Half) : (s.pcmEmit v).errCmd = s.errCmd := rfl
@[simp] theorem State.pcmEmit_errInfo (v : Half) : (s.pcmEmit v).errInfo = s.errInfo := rfl
@[simp] theorem State.pcmEmit_ibufLen (v : Half) : (s.pcmEmit v).ibufLen = s.ibufLen := rfl
@[simp] theorem State.pcmEmit_ibuf (v : Half) : (s.pcmEmit v).ibuf = s.ibuf := rfl
@[simp] theorem State.pcmEmit_pix (v : Half) : (s.pcmEmit v).pix = s.pix := rfl
@[simp] theorem State.pcmEmit_pcmout (v : Half) : (s.pcmEmit v).pcmout = s.pcmout ++ [v] := rfl
@[simp] theorem State.pcmEmit_pixFresh (v : Half) : (s.pcmEmit v).pixFresh = s.pixFresh := rfl
@[simp] theorem State.pcmEmit_sliceRewritten (v : Half) : (s.pcmEmit v).sliceRewritten = s.sliceRewritten := rfl
@[simp] theorem State.pcmEmit_ibufEpoch (v : Half) : (s.pcmEmit v).ibufEpoch = s.ibufEpoch := rfl
@[simp] theorem State.pcmEmit_freeNext (v : Half) : (s.pcmEmit v).freeNext = s.freeNext := rfl
@[simp] theorem State.pcmEmit_moves (v : Half) : (s.pcmEmit v).moves = s.moves := rfl
@[simp] theorem State.pcmEmit_replies (v : Half) : (s.pcmEmit v).replies = s.replies := rfl

/-! ### setCoef -/

@[simp] theorem State.setCoef_cfg (b i : Nat) (v : Int) : (s.setCoef b i v).cfg = s.cfg := rfl
@[simp] theorem State.setCoef_coef (b i : Nat) (v : Int) : (s.setCoef b i v).coef = s.coef.setIfInBounds b ((s.coefBlock b).setIfInBounds i (BitVec.ofInt 32 v)) := rfl
@[simp] theorem State.setCoef_spat (b i : Nat) (v : Int) : (s.setCoef b i v).spat = s.spat := rfl
@[simp] theorem State.setCoef_result (b i : Nat) (v : Int) : (s.setCoef b i v).result = s.result := rfl
@[simp] theorem State.setCoef_cmdcnt (b i : Nat) (v : Int) : (s.setCoef b i v).cmdcnt = s.cmdcnt := rfl
@[simp] theorem State.setCoef_brActive (b i : Nat) (v : Int) : (s.setCoef b i v).brActive = s.brActive := rfl
@[simp] theorem State.setCoef_brBase (b i : Nat) (v : Int) : (s.setCoef b i v).brBase = s.brBase := rfl
@[simp] theorem State.setCoef_brNbits (b i : Nat) (v : Int) : (s.setCoef b i v).brNbits = s.brNbits := rfl
@[simp] theorem State.setCoef_bitpos (b i : Nat) (v : Int) : (s.setCoef b i v).bitpos = s.bitpos := rfl
@[simp] theorem State.setCoef_acc (b i : Nat) (v : Int) : (s.setCoef b i v).acc = s.acc := rfl
@[simp] theorem State.setCoef_nvalid (b i : Nat) (v : Int) : (s.setCoef b i v).nvalid = s.nvalid := rfl
@[simp] theorem State.setCoef_wptr (b i : Nat) (v : Int) : (s.setCoef b i v).wptr = s.wptr := rfl
@[simp] theorem State.setCoef_hdrOk (b i : Nat) (v : Int) : (s.setCoef b i v).hdrOk = s.hdrOk := rfl
@[simp] theorem State.setCoef_qscale (b i : Nat) (v : Int) : (s.setCoef b i v).qscale = s.qscale := rfl
@[simp] theorem State.setCoef_vstate (b i : Nat) (v : Int) : (s.setCoef b i v).vstate = s.vstate := rfl
@[simp] theorem State.setCoef_blk (b i : Nat) (v : Int) : (s.setCoef b i v).blk = s.blk := rfl
@[simp] theorem State.setCoef_pos (b i : Nat) (v : Int) : (s.setCoef b i v).pos = s.pos := rfl
@[simp] theorem State.setCoef_accnt (b i : Nat) (v : Int) : (s.setCoef b i v).accnt = s.accnt := rfl
@[simp] theorem State.setCoef_escrun (b i : Nat) (v : Int) : (s.setCoef b i v).escrun = s.escrun := rfl
@[simp] theorem State.setCoef_frameW (b i : Nat) (v : Int) : (s.setCoef b i v).frameW = s.frameW := rfl
@[simp] theorem State.setCoef_frameH (b i : Nat) (v : Int) : (s.setCoef b i v).frameH = s.frameH := rfl
@[simp] theorem State.setCoef_channels (b i : Nat) (v : Int) : (s.setCoef b i v).channels = s.channels := rfl
@[simp] theorem State.setCoef_prev1 (b i : Nat) (v : Int) : (s.setCoef b i v).prev1 = s.prev1 := rfl
@[simp] theorem State.setCoef_prev2 (b i : Nat) (v : Int) : (s.setCoef b i v).prev2 = s.prev2 := rfl
@[simp] theorem State.setCoef_pcmcnt (b i : Nat) (v : Int) : (s.setCoef b i v).pcmcnt = s.pcmcnt := rfl
@[simp] theorem State.setCoef_busy (b i : Nat) (v : Int) : (s.setCoef b i v).busy = s.busy := rfl
@[simp] theorem State.setCoef_errCode (b i : Nat) (v : Int) : (s.setCoef b i v).errCode = s.errCode := rfl
@[simp] theorem State.setCoef_errCause (b i : Nat) (v : Int) : (s.setCoef b i v).errCause = s.errCause := rfl
@[simp] theorem State.setCoef_errOp (b i : Nat) (v : Int) : (s.setCoef b i v).errOp = s.errOp := rfl
@[simp] theorem State.setCoef_errCmd (b i : Nat) (v : Int) : (s.setCoef b i v).errCmd = s.errCmd := rfl
@[simp] theorem State.setCoef_errInfo (b i : Nat) (v : Int) : (s.setCoef b i v).errInfo = s.errInfo := rfl
@[simp] theorem State.setCoef_ibufLen (b i : Nat) (v : Int) : (s.setCoef b i v).ibufLen = s.ibufLen := rfl
@[simp] theorem State.setCoef_ibuf (b i : Nat) (v : Int) : (s.setCoef b i v).ibuf = s.ibuf := rfl
@[simp] theorem State.setCoef_pix (b i : Nat) (v : Int) : (s.setCoef b i v).pix = s.pix := rfl
@[simp] theorem State.setCoef_pcmout (b i : Nat) (v : Int) : (s.setCoef b i v).pcmout = s.pcmout := rfl
@[simp] theorem State.setCoef_pixFresh (b i : Nat) (v : Int) : (s.setCoef b i v).pixFresh = s.pixFresh := rfl
@[simp] theorem State.setCoef_sliceRewritten (b i : Nat) (v : Int) : (s.setCoef b i v).sliceRewritten = s.sliceRewritten := rfl
@[simp] theorem State.setCoef_ibufEpoch (b i : Nat) (v : Int) : (s.setCoef b i v).ibufEpoch = s.ibufEpoch := rfl
@[simp] theorem State.setCoef_freeNext (b i : Nat) (v : Int) : (s.setCoef b i v).freeNext = s.freeNext := rfl
@[simp] theorem State.setCoef_moves (b i : Nat) (v : Int) : (s.setCoef b i v).moves = s.moves := rfl
@[simp] theorem State.setCoef_replies (b i : Nat) (v : Int) : (s.setCoef b i v).replies = s.replies := rfl

/-! ### clearCoef -/

@[simp] theorem State.clearCoef_cfg : s.clearCoef.cfg = s.cfg := rfl
@[simp] theorem State.clearCoef_coef : s.clearCoef.coef = Vector.replicate 6 (Vector.replicate 64 0#32) := rfl
@[simp] theorem State.clearCoef_spat : s.clearCoef.spat = s.spat := rfl
@[simp] theorem State.clearCoef_result : s.clearCoef.result = s.result := rfl
@[simp] theorem State.clearCoef_cmdcnt : s.clearCoef.cmdcnt = s.cmdcnt := rfl
@[simp] theorem State.clearCoef_brActive : s.clearCoef.brActive = s.brActive := rfl
@[simp] theorem State.clearCoef_brBase : s.clearCoef.brBase = s.brBase := rfl
@[simp] theorem State.clearCoef_brNbits : s.clearCoef.brNbits = s.brNbits := rfl
@[simp] theorem State.clearCoef_bitpos : s.clearCoef.bitpos = s.bitpos := rfl
@[simp] theorem State.clearCoef_acc : s.clearCoef.acc = s.acc := rfl
@[simp] theorem State.clearCoef_nvalid : s.clearCoef.nvalid = s.nvalid := rfl
@[simp] theorem State.clearCoef_wptr : s.clearCoef.wptr = s.wptr := rfl
@[simp] theorem State.clearCoef_hdrOk : s.clearCoef.hdrOk = s.hdrOk := rfl
@[simp] theorem State.clearCoef_qscale : s.clearCoef.qscale = s.qscale := rfl
@[simp] theorem State.clearCoef_vstate : s.clearCoef.vstate = s.vstate := rfl
@[simp] theorem State.clearCoef_blk : s.clearCoef.blk = s.blk := rfl
@[simp] theorem State.clearCoef_pos : s.clearCoef.pos = s.pos := rfl
@[simp] theorem State.clearCoef_accnt : s.clearCoef.accnt = s.accnt := rfl
@[simp] theorem State.clearCoef_escrun : s.clearCoef.escrun = s.escrun := rfl
@[simp] theorem State.clearCoef_frameW : s.clearCoef.frameW = s.frameW := rfl
@[simp] theorem State.clearCoef_frameH : s.clearCoef.frameH = s.frameH := rfl
@[simp] theorem State.clearCoef_channels : s.clearCoef.channels = s.channels := rfl
@[simp] theorem State.clearCoef_prev1 : s.clearCoef.prev1 = s.prev1 := rfl
@[simp] theorem State.clearCoef_prev2 : s.clearCoef.prev2 = s.prev2 := rfl
@[simp] theorem State.clearCoef_pcmcnt : s.clearCoef.pcmcnt = s.pcmcnt := rfl
@[simp] theorem State.clearCoef_busy : s.clearCoef.busy = s.busy := rfl
@[simp] theorem State.clearCoef_errCode : s.clearCoef.errCode = s.errCode := rfl
@[simp] theorem State.clearCoef_errCause : s.clearCoef.errCause = s.errCause := rfl
@[simp] theorem State.clearCoef_errOp : s.clearCoef.errOp = s.errOp := rfl
@[simp] theorem State.clearCoef_errCmd : s.clearCoef.errCmd = s.errCmd := rfl
@[simp] theorem State.clearCoef_errInfo : s.clearCoef.errInfo = s.errInfo := rfl
@[simp] theorem State.clearCoef_ibufLen : s.clearCoef.ibufLen = s.ibufLen := rfl
@[simp] theorem State.clearCoef_ibuf : s.clearCoef.ibuf = s.ibuf := rfl
@[simp] theorem State.clearCoef_pix : s.clearCoef.pix = s.pix := rfl
@[simp] theorem State.clearCoef_pcmout : s.clearCoef.pcmout = s.pcmout := rfl
@[simp] theorem State.clearCoef_pixFresh : s.clearCoef.pixFresh = s.pixFresh := rfl
@[simp] theorem State.clearCoef_sliceRewritten : s.clearCoef.sliceRewritten = s.sliceRewritten := rfl
@[simp] theorem State.clearCoef_ibufEpoch : s.clearCoef.ibufEpoch = s.ibufEpoch := rfl
@[simp] theorem State.clearCoef_freeNext : s.clearCoef.freeNext = s.freeNext := rfl
@[simp] theorem State.clearCoef_moves : s.clearCoef.moves = s.moves := rfl
@[simp] theorem State.clearCoef_replies : s.clearCoef.replies = s.replies := rfl

/-! ### setSpatBlock -/

@[simp] theorem State.setSpatBlock_cfg (b : Nat) (blk : Block) : (s.setSpatBlock b blk).cfg = s.cfg := rfl
@[simp] theorem State.setSpatBlock_coef (b : Nat) (blk : Block) : (s.setSpatBlock b blk).coef = s.coef := rfl
@[simp] theorem State.setSpatBlock_spat (b : Nat) (blk : Block) : (s.setSpatBlock b blk).spat = s.spat.setIfInBounds b blk := rfl
@[simp] theorem State.setSpatBlock_result (b : Nat) (blk : Block) : (s.setSpatBlock b blk).result = s.result := rfl
@[simp] theorem State.setSpatBlock_cmdcnt (b : Nat) (blk : Block) : (s.setSpatBlock b blk).cmdcnt = s.cmdcnt := rfl
@[simp] theorem State.setSpatBlock_brActive (b : Nat) (blk : Block) : (s.setSpatBlock b blk).brActive = s.brActive := rfl
@[simp] theorem State.setSpatBlock_brBase (b : Nat) (blk : Block) : (s.setSpatBlock b blk).brBase = s.brBase := rfl
@[simp] theorem State.setSpatBlock_brNbits (b : Nat) (blk : Block) : (s.setSpatBlock b blk).brNbits = s.brNbits := rfl
@[simp] theorem State.setSpatBlock_bitpos (b : Nat) (blk : Block) : (s.setSpatBlock b blk).bitpos = s.bitpos := rfl
@[simp] theorem State.setSpatBlock_acc (b : Nat) (blk : Block) : (s.setSpatBlock b blk).acc = s.acc := rfl
@[simp] theorem State.setSpatBlock_nvalid (b : Nat) (blk : Block) : (s.setSpatBlock b blk).nvalid = s.nvalid := rfl
@[simp] theorem State.setSpatBlock_wptr (b : Nat) (blk : Block) : (s.setSpatBlock b blk).wptr = s.wptr := rfl
@[simp] theorem State.setSpatBlock_hdrOk (b : Nat) (blk : Block) : (s.setSpatBlock b blk).hdrOk = s.hdrOk := rfl
@[simp] theorem State.setSpatBlock_qscale (b : Nat) (blk : Block) : (s.setSpatBlock b blk).qscale = s.qscale := rfl
@[simp] theorem State.setSpatBlock_vstate (b : Nat) (blk : Block) : (s.setSpatBlock b blk).vstate = s.vstate := rfl
@[simp] theorem State.setSpatBlock_blk (b : Nat) (blk : Block) : (s.setSpatBlock b blk).blk = s.blk := rfl
@[simp] theorem State.setSpatBlock_pos (b : Nat) (blk : Block) : (s.setSpatBlock b blk).pos = s.pos := rfl
@[simp] theorem State.setSpatBlock_accnt (b : Nat) (blk : Block) : (s.setSpatBlock b blk).accnt = s.accnt := rfl
@[simp] theorem State.setSpatBlock_escrun (b : Nat) (blk : Block) : (s.setSpatBlock b blk).escrun = s.escrun := rfl
@[simp] theorem State.setSpatBlock_frameW (b : Nat) (blk : Block) : (s.setSpatBlock b blk).frameW = s.frameW := rfl
@[simp] theorem State.setSpatBlock_frameH (b : Nat) (blk : Block) : (s.setSpatBlock b blk).frameH = s.frameH := rfl
@[simp] theorem State.setSpatBlock_channels (b : Nat) (blk : Block) : (s.setSpatBlock b blk).channels = s.channels := rfl
@[simp] theorem State.setSpatBlock_prev1 (b : Nat) (blk : Block) : (s.setSpatBlock b blk).prev1 = s.prev1 := rfl
@[simp] theorem State.setSpatBlock_prev2 (b : Nat) (blk : Block) : (s.setSpatBlock b blk).prev2 = s.prev2 := rfl
@[simp] theorem State.setSpatBlock_pcmcnt (b : Nat) (blk : Block) : (s.setSpatBlock b blk).pcmcnt = s.pcmcnt := rfl
@[simp] theorem State.setSpatBlock_busy (b : Nat) (blk : Block) : (s.setSpatBlock b blk).busy = s.busy := rfl
@[simp] theorem State.setSpatBlock_errCode (b : Nat) (blk : Block) : (s.setSpatBlock b blk).errCode = s.errCode := rfl
@[simp] theorem State.setSpatBlock_errCause (b : Nat) (blk : Block) : (s.setSpatBlock b blk).errCause = s.errCause := rfl
@[simp] theorem State.setSpatBlock_errOp (b : Nat) (blk : Block) : (s.setSpatBlock b blk).errOp = s.errOp := rfl
@[simp] theorem State.setSpatBlock_errCmd (b : Nat) (blk : Block) : (s.setSpatBlock b blk).errCmd = s.errCmd := rfl
@[simp] theorem State.setSpatBlock_errInfo (b : Nat) (blk : Block) : (s.setSpatBlock b blk).errInfo = s.errInfo := rfl
@[simp] theorem State.setSpatBlock_ibufLen (b : Nat) (blk : Block) : (s.setSpatBlock b blk).ibufLen = s.ibufLen := rfl
@[simp] theorem State.setSpatBlock_ibuf (b : Nat) (blk : Block) : (s.setSpatBlock b blk).ibuf = s.ibuf := rfl
@[simp] theorem State.setSpatBlock_pix (b : Nat) (blk : Block) : (s.setSpatBlock b blk).pix = s.pix := rfl
@[simp] theorem State.setSpatBlock_pcmout (b : Nat) (blk : Block) : (s.setSpatBlock b blk).pcmout = s.pcmout := rfl
@[simp] theorem State.setSpatBlock_pixFresh (b : Nat) (blk : Block) : (s.setSpatBlock b blk).pixFresh = s.pixFresh := rfl
@[simp] theorem State.setSpatBlock_sliceRewritten (b : Nat) (blk : Block) : (s.setSpatBlock b blk).sliceRewritten = s.sliceRewritten := rfl
@[simp] theorem State.setSpatBlock_ibufEpoch (b : Nat) (blk : Block) : (s.setSpatBlock b blk).ibufEpoch = s.ibufEpoch := rfl
@[simp] theorem State.setSpatBlock_freeNext (b : Nat) (blk : Block) : (s.setSpatBlock b blk).freeNext = s.freeNext := rfl
@[simp] theorem State.setSpatBlock_moves (b : Nat) (blk : Block) : (s.setSpatBlock b blk).moves = s.moves := rfl
@[simp] theorem State.setSpatBlock_replies (b : Nat) (blk : Block) : (s.setSpatBlock b blk).replies = s.replies := rfl

/-! ### pushPrev -/

@[simp] theorem State.pushPrev_cfg (c : Nat) (v : Half) : (s.pushPrev c v).cfg = s.cfg := rfl
@[simp] theorem State.pushPrev_coef (c : Nat) (v : Half) : (s.pushPrev c v).coef = s.coef := rfl
@[simp] theorem State.pushPrev_spat (c : Nat) (v : Half) : (s.pushPrev c v).spat = s.spat := rfl
@[simp] theorem State.pushPrev_result (c : Nat) (v : Half) : (s.pushPrev c v).result = s.result := rfl
@[simp] theorem State.pushPrev_cmdcnt (c : Nat) (v : Half) : (s.pushPrev c v).cmdcnt = s.cmdcnt := rfl
@[simp] theorem State.pushPrev_brActive (c : Nat) (v : Half) : (s.pushPrev c v).brActive = s.brActive := rfl
@[simp] theorem State.pushPrev_brBase (c : Nat) (v : Half) : (s.pushPrev c v).brBase = s.brBase := rfl
@[simp] theorem State.pushPrev_brNbits (c : Nat) (v : Half) : (s.pushPrev c v).brNbits = s.brNbits := rfl
@[simp] theorem State.pushPrev_bitpos (c : Nat) (v : Half) : (s.pushPrev c v).bitpos = s.bitpos := rfl
@[simp] theorem State.pushPrev_acc (c : Nat) (v : Half) : (s.pushPrev c v).acc = s.acc := rfl
@[simp] theorem State.pushPrev_nvalid (c : Nat) (v : Half) : (s.pushPrev c v).nvalid = s.nvalid := rfl
@[simp] theorem State.pushPrev_wptr (c : Nat) (v : Half) : (s.pushPrev c v).wptr = s.wptr := rfl
@[simp] theorem State.pushPrev_hdrOk (c : Nat) (v : Half) : (s.pushPrev c v).hdrOk = s.hdrOk := rfl
@[simp] theorem State.pushPrev_qscale (c : Nat) (v : Half) : (s.pushPrev c v).qscale = s.qscale := rfl
@[simp] theorem State.pushPrev_vstate (c : Nat) (v : Half) : (s.pushPrev c v).vstate = s.vstate := rfl
@[simp] theorem State.pushPrev_blk (c : Nat) (v : Half) : (s.pushPrev c v).blk = s.blk := rfl
@[simp] theorem State.pushPrev_pos (c : Nat) (v : Half) : (s.pushPrev c v).pos = s.pos := rfl
@[simp] theorem State.pushPrev_accnt (c : Nat) (v : Half) : (s.pushPrev c v).accnt = s.accnt := rfl
@[simp] theorem State.pushPrev_escrun (c : Nat) (v : Half) : (s.pushPrev c v).escrun = s.escrun := rfl
@[simp] theorem State.pushPrev_frameW (c : Nat) (v : Half) : (s.pushPrev c v).frameW = s.frameW := rfl
@[simp] theorem State.pushPrev_frameH (c : Nat) (v : Half) : (s.pushPrev c v).frameH = s.frameH := rfl
@[simp] theorem State.pushPrev_channels (c : Nat) (v : Half) : (s.pushPrev c v).channels = s.channels := rfl
@[simp] theorem State.pushPrev_prev1 (c : Nat) (v : Half) : (s.pushPrev c v).prev1 = s.prev1.setIfInBounds c v := rfl
@[simp] theorem State.pushPrev_prev2 (c : Nat) (v : Half) : (s.pushPrev c v).prev2 = s.prev2.setIfInBounds c (s.prev1[c]?.getD 0#16) := rfl
@[simp] theorem State.pushPrev_pcmcnt (c : Nat) (v : Half) : (s.pushPrev c v).pcmcnt = s.pcmcnt := rfl
@[simp] theorem State.pushPrev_busy (c : Nat) (v : Half) : (s.pushPrev c v).busy = s.busy := rfl
@[simp] theorem State.pushPrev_errCode (c : Nat) (v : Half) : (s.pushPrev c v).errCode = s.errCode := rfl
@[simp] theorem State.pushPrev_errCause (c : Nat) (v : Half) : (s.pushPrev c v).errCause = s.errCause := rfl
@[simp] theorem State.pushPrev_errOp (c : Nat) (v : Half) : (s.pushPrev c v).errOp = s.errOp := rfl
@[simp] theorem State.pushPrev_errCmd (c : Nat) (v : Half) : (s.pushPrev c v).errCmd = s.errCmd := rfl
@[simp] theorem State.pushPrev_errInfo (c : Nat) (v : Half) : (s.pushPrev c v).errInfo = s.errInfo := rfl
@[simp] theorem State.pushPrev_ibufLen (c : Nat) (v : Half) : (s.pushPrev c v).ibufLen = s.ibufLen := rfl
@[simp] theorem State.pushPrev_ibuf (c : Nat) (v : Half) : (s.pushPrev c v).ibuf = s.ibuf := rfl
@[simp] theorem State.pushPrev_pix (c : Nat) (v : Half) : (s.pushPrev c v).pix = s.pix := rfl
@[simp] theorem State.pushPrev_pcmout (c : Nat) (v : Half) : (s.pushPrev c v).pcmout = s.pcmout := rfl
@[simp] theorem State.pushPrev_pixFresh (c : Nat) (v : Half) : (s.pushPrev c v).pixFresh = s.pixFresh := rfl
@[simp] theorem State.pushPrev_sliceRewritten (c : Nat) (v : Half) : (s.pushPrev c v).sliceRewritten = s.sliceRewritten := rfl
@[simp] theorem State.pushPrev_ibufEpoch (c : Nat) (v : Half) : (s.pushPrev c v).ibufEpoch = s.ibufEpoch := rfl
@[simp] theorem State.pushPrev_freeNext (c : Nat) (v : Half) : (s.pushPrev c v).freeNext = s.freeNext := rfl
@[simp] theorem State.pushPrev_moves (c : Nat) (v : Half) : (s.pushPrev c v).moves = s.moves := rfl
@[simp] theorem State.pushPrev_replies (c : Nat) (v : Half) : (s.pushPrev c v).replies = s.replies := rfl

/-! ### zeroPredictors -/

@[simp] theorem State.zeroPredictors_cfg : s.zeroPredictors.cfg = s.cfg := rfl
@[simp] theorem State.zeroPredictors_coef : s.zeroPredictors.coef = s.coef := rfl
@[simp] theorem State.zeroPredictors_spat : s.zeroPredictors.spat = s.spat := rfl
@[simp] theorem State.zeroPredictors_result : s.zeroPredictors.result = s.result := rfl
@[simp] theorem State.zeroPredictors_cmdcnt : s.zeroPredictors.cmdcnt = s.cmdcnt := rfl
@[simp] theorem State.zeroPredictors_brActive : s.zeroPredictors.brActive = s.brActive := rfl
@[simp] theorem State.zeroPredictors_brBase : s.zeroPredictors.brBase = s.brBase := rfl
@[simp] theorem State.zeroPredictors_brNbits : s.zeroPredictors.brNbits = s.brNbits := rfl
@[simp] theorem State.zeroPredictors_bitpos : s.zeroPredictors.bitpos = s.bitpos := rfl
@[simp] theorem State.zeroPredictors_acc : s.zeroPredictors.acc = s.acc := rfl
@[simp] theorem State.zeroPredictors_nvalid : s.zeroPredictors.nvalid = s.nvalid := rfl
@[simp] theorem State.zeroPredictors_wptr : s.zeroPredictors.wptr = s.wptr := rfl
@[simp] theorem State.zeroPredictors_hdrOk : s.zeroPredictors.hdrOk = s.hdrOk := rfl
@[simp] theorem State.zeroPredictors_qscale : s.zeroPredictors.qscale = s.qscale := rfl
@[simp] theorem State.zeroPredictors_vstate : s.zeroPredictors.vstate = s.vstate := rfl
@[simp] theorem State.zeroPredictors_blk : s.zeroPredictors.blk = s.blk := rfl
@[simp] theorem State.zeroPredictors_pos : s.zeroPredictors.pos = s.pos := rfl
@[simp] theorem State.zeroPredictors_accnt : s.zeroPredictors.accnt = s.accnt := rfl
@[simp] theorem State.zeroPredictors_escrun : s.zeroPredictors.escrun = s.escrun := rfl
@[simp] theorem State.zeroPredictors_frameW : s.zeroPredictors.frameW = s.frameW := rfl
@[simp] theorem State.zeroPredictors_frameH : s.zeroPredictors.frameH = s.frameH := rfl
@[simp] theorem State.zeroPredictors_channels : s.zeroPredictors.channels = s.channels := rfl
@[simp] theorem State.zeroPredictors_prev1 : s.zeroPredictors.prev1 = Vector.replicate 2 0#16 := rfl
@[simp] theorem State.zeroPredictors_prev2 : s.zeroPredictors.prev2 = Vector.replicate 2 0#16 := rfl
@[simp] theorem State.zeroPredictors_pcmcnt : s.zeroPredictors.pcmcnt = s.pcmcnt := rfl
@[simp] theorem State.zeroPredictors_busy : s.zeroPredictors.busy = s.busy := rfl
@[simp] theorem State.zeroPredictors_errCode : s.zeroPredictors.errCode = s.errCode := rfl
@[simp] theorem State.zeroPredictors_errCause : s.zeroPredictors.errCause = s.errCause := rfl
@[simp] theorem State.zeroPredictors_errOp : s.zeroPredictors.errOp = s.errOp := rfl
@[simp] theorem State.zeroPredictors_errCmd : s.zeroPredictors.errCmd = s.errCmd := rfl
@[simp] theorem State.zeroPredictors_errInfo : s.zeroPredictors.errInfo = s.errInfo := rfl
@[simp] theorem State.zeroPredictors_ibufLen : s.zeroPredictors.ibufLen = s.ibufLen := rfl
@[simp] theorem State.zeroPredictors_ibuf : s.zeroPredictors.ibuf = s.ibuf := rfl
@[simp] theorem State.zeroPredictors_pix : s.zeroPredictors.pix = s.pix := rfl
@[simp] theorem State.zeroPredictors_pcmout : s.zeroPredictors.pcmout = s.pcmout := rfl
@[simp] theorem State.zeroPredictors_pixFresh : s.zeroPredictors.pixFresh = s.pixFresh := rfl
@[simp] theorem State.zeroPredictors_sliceRewritten : s.zeroPredictors.sliceRewritten = s.sliceRewritten := rfl
@[simp] theorem State.zeroPredictors_ibufEpoch : s.zeroPredictors.ibufEpoch = s.ibufEpoch := rfl
@[simp] theorem State.zeroPredictors_freeNext : s.zeroPredictors.freeNext = s.freeNext := rfl
@[simp] theorem State.zeroPredictors_moves : s.zeroPredictors.moves = s.moves := rfl
@[simp] theorem State.zeroPredictors_replies : s.zeroPredictors.replies = s.replies := rfl

/-! ### advance -/

@[simp] theorem State.advance_cfg (n : Nat) : (s.advance n).cfg = s.cfg := rfl
@[simp] theorem State.advance_coef (n : Nat) : (s.advance n).coef = s.coef := rfl
@[simp] theorem State.advance_spat (n : Nat) : (s.advance n).spat = s.spat := rfl
@[simp] theorem State.advance_result (n : Nat) : (s.advance n).result = s.result := rfl
@[simp] theorem State.advance_cmdcnt (n : Nat) : (s.advance n).cmdcnt = s.cmdcnt := rfl
@[simp] theorem State.advance_brActive (n : Nat) : (s.advance n).brActive = s.brActive := rfl
@[simp] theorem State.advance_brBase (n : Nat) : (s.advance n).brBase = s.brBase := rfl
@[simp] theorem State.advance_brNbits (n : Nat) : (s.advance n).brNbits = s.brNbits := rfl
@[simp] theorem State.advance_bitpos (n : Nat) : (s.advance n).bitpos = s.bitpos + BitVec.ofNat 32 n := rfl
@[simp] theorem State.advance_acc (n : Nat) : (s.advance n).acc = s.acc &&& (BitVec.ofNat 48 (2 ^ (s.nvalid - n) - 1)) := rfl
@[simp] theorem State.advance_nvalid (n : Nat) : (s.advance n).nvalid = s.nvalid - n := rfl
@[simp] theorem State.advance_wptr (n : Nat) : (s.advance n).wptr = s.wptr := rfl
@[simp] theorem State.advance_hdrOk (n : Nat) : (s.advance n).hdrOk = s.hdrOk := rfl
@[simp] theorem State.advance_qscale (n : Nat) : (s.advance n).qscale = s.qscale := rfl
@[simp] theorem State.advance_vstate (n : Nat) : (s.advance n).vstate = s.vstate := rfl
@[simp] theorem State.advance_blk (n : Nat) : (s.advance n).blk = s.blk := rfl
@[simp] theorem State.advance_pos (n : Nat) : (s.advance n).pos = s.pos := rfl
@[simp] theorem State.advance_accnt (n : Nat) : (s.advance n).accnt = s.accnt := rfl
@[simp] theorem State.advance_escrun (n : Nat) : (s.advance n).escrun = s.escrun := rfl
@[simp] theorem State.advance_frameW (n : Nat) : (s.advance n).frameW = s.frameW := rfl
@[simp] theorem State.advance_frameH (n : Nat) : (s.advance n).frameH = s.frameH := rfl
@[simp] theorem State.advance_channels (n : Nat) : (s.advance n).channels = s.channels := rfl
@[simp] theorem State.advance_prev1 (n : Nat) : (s.advance n).prev1 = s.prev1 := rfl
@[simp] theorem State.advance_prev2 (n : Nat) : (s.advance n).prev2 = s.prev2 := rfl
@[simp] theorem State.advance_pcmcnt (n : Nat) : (s.advance n).pcmcnt = s.pcmcnt := rfl
@[simp] theorem State.advance_busy (n : Nat) : (s.advance n).busy = s.busy := rfl
@[simp] theorem State.advance_errCode (n : Nat) : (s.advance n).errCode = s.errCode := rfl
@[simp] theorem State.advance_errCause (n : Nat) : (s.advance n).errCause = s.errCause := rfl
@[simp] theorem State.advance_errOp (n : Nat) : (s.advance n).errOp = s.errOp := rfl
@[simp] theorem State.advance_errCmd (n : Nat) : (s.advance n).errCmd = s.errCmd := rfl
@[simp] theorem State.advance_errInfo (n : Nat) : (s.advance n).errInfo = s.errInfo := rfl
@[simp] theorem State.advance_ibufLen (n : Nat) : (s.advance n).ibufLen = s.ibufLen := rfl
@[simp] theorem State.advance_ibuf (n : Nat) : (s.advance n).ibuf = s.ibuf := rfl
@[simp] theorem State.advance_pix (n : Nat) : (s.advance n).pix = s.pix := rfl
@[simp] theorem State.advance_pcmout (n : Nat) : (s.advance n).pcmout = s.pcmout := rfl
@[simp] theorem State.advance_pixFresh (n : Nat) : (s.advance n).pixFresh = s.pixFresh := rfl
@[simp] theorem State.advance_sliceRewritten (n : Nat) : (s.advance n).sliceRewritten = s.sliceRewritten := rfl
@[simp] theorem State.advance_ibufEpoch (n : Nat) : (s.advance n).ibufEpoch = s.ibufEpoch := rfl
@[simp] theorem State.advance_freeNext (n : Nat) : (s.advance n).freeNext = s.freeNext := rfl
@[simp] theorem State.advance_moves (n : Nat) : (s.advance n).moves = s.moves := rfl
@[simp] theorem State.advance_replies (n : Nat) : (s.advance n).replies = s.replies := rfl

/-! ### setSlice -/

@[simp] theorem State.setSlice_cfg (base : Word) (len : Nat) : (s.setSlice base len).cfg = s.cfg := rfl
@[simp] theorem State.setSlice_coef (base : Word) (len : Nat) : (s.setSlice base len).coef = s.coef := rfl
@[simp] theorem State.setSlice_spat (base : Word) (len : Nat) : (s.setSlice base len).spat = s.spat := rfl
@[simp] theorem State.setSlice_result (base : Word) (len : Nat) : (s.setSlice base len).result = s.result := rfl
@[simp] theorem State.setSlice_cmdcnt (base : Word) (len : Nat) : (s.setSlice base len).cmdcnt = s.cmdcnt := rfl
@[simp] theorem State.setSlice_brActive (base : Word) (len : Nat) : (s.setSlice base len).brActive = true := rfl
@[simp] theorem State.setSlice_brBase (base : Word) (len : Nat) : (s.setSlice base len).brBase = base := rfl
@[simp] theorem State.setSlice_brNbits (base : Word) (len : Nat) : (s.setSlice base len).brNbits = BitVec.ofNat 32 (16 * (len / 2)) := rfl
@[simp] theorem State.setSlice_bitpos (base : Word) (len : Nat) : (s.setSlice base len).bitpos = 0#32 := rfl
@[simp] theorem State.setSlice_acc (base : Word) (len : Nat) : (s.setSlice base len).acc = 0#48 := rfl
@[simp] theorem State.setSlice_nvalid (base : Word) (len : Nat) : (s.setSlice base len).nvalid = 0 := rfl
@[simp] theorem State.setSlice_wptr (base : Word) (len : Nat) : (s.setSlice base len).wptr = 0#32 := rfl
@[simp] theorem State.setSlice_hdrOk (base : Word) (len : Nat) : (s.setSlice base len).hdrOk = false := rfl
@[simp] theorem State.setSlice_qscale (base : Word) (len : Nat) : (s.setSlice base len).qscale = s.qscale := rfl
@[simp] theorem State.setSlice_vstate (base : Word) (len : Nat) : (s.setSlice base len).vstate = .idle := rfl
@[simp] theorem State.setSlice_blk (base : Word) (len : Nat) : (s.setSlice base len).blk = 0#3 := rfl
@[simp] theorem State.setSlice_pos (base : Word) (len : Nat) : (s.setSlice base len).pos = 0#6 := rfl
@[simp] theorem State.setSlice_accnt (base : Word) (len : Nat) : (s.setSlice base len).accnt = 0#7 := rfl
@[simp] theorem State.setSlice_escrun (base : Word) (len : Nat) : (s.setSlice base len).escrun = 0#6 := rfl
@[simp] theorem State.setSlice_frameW (base : Word) (len : Nat) : (s.setSlice base len).frameW = s.frameW := rfl
@[simp] theorem State.setSlice_frameH (base : Word) (len : Nat) : (s.setSlice base len).frameH = s.frameH := rfl
@[simp] theorem State.setSlice_channels (base : Word) (len : Nat) : (s.setSlice base len).channels = s.channels := rfl
@[simp] theorem State.setSlice_prev1 (base : Word) (len : Nat) : (s.setSlice base len).prev1 = s.prev1 := rfl
@[simp] theorem State.setSlice_prev2 (base : Word) (len : Nat) : (s.setSlice base len).prev2 = s.prev2 := rfl
@[simp] theorem State.setSlice_pcmcnt (base : Word) (len : Nat) : (s.setSlice base len).pcmcnt = s.pcmcnt := rfl
@[simp] theorem State.setSlice_busy (base : Word) (len : Nat) : (s.setSlice base len).busy = s.busy := rfl
@[simp] theorem State.setSlice_errCode (base : Word) (len : Nat) : (s.setSlice base len).errCode = s.errCode := rfl
@[simp] theorem State.setSlice_errCause (base : Word) (len : Nat) : (s.setSlice base len).errCause = s.errCause := rfl
@[simp] theorem State.setSlice_errOp (base : Word) (len : Nat) : (s.setSlice base len).errOp = s.errOp := rfl
@[simp] theorem State.setSlice_errCmd (base : Word) (len : Nat) : (s.setSlice base len).errCmd = s.errCmd := rfl
@[simp] theorem State.setSlice_errInfo (base : Word) (len : Nat) : (s.setSlice base len).errInfo = s.errInfo := rfl
@[simp] theorem State.setSlice_ibufLen (base : Word) (len : Nat) : (s.setSlice base len).ibufLen = s.ibufLen := rfl
@[simp] theorem State.setSlice_ibuf (base : Word) (len : Nat) : (s.setSlice base len).ibuf = s.ibuf := rfl
@[simp] theorem State.setSlice_pix (base : Word) (len : Nat) : (s.setSlice base len).pix = s.pix := rfl
@[simp] theorem State.setSlice_pcmout (base : Word) (len : Nat) : (s.setSlice base len).pcmout = s.pcmout := rfl
@[simp] theorem State.setSlice_pixFresh (base : Word) (len : Nat) : (s.setSlice base len).pixFresh = s.pixFresh := rfl
@[simp] theorem State.setSlice_sliceRewritten (base : Word) (len : Nat) : (s.setSlice base len).sliceRewritten = false := rfl
@[simp] theorem State.setSlice_ibufEpoch (base : Word) (len : Nat) : (s.setSlice base len).ibufEpoch = s.ibufEpoch := rfl
@[simp] theorem State.setSlice_freeNext (base : Word) (len : Nat) : (s.setSlice base len).freeNext = s.freeNext := rfl
@[simp] theorem State.setSlice_moves (base : Word) (len : Nat) : (s.setSlice base len).moves = s.moves := rfl
@[simp] theorem State.setSlice_replies (base : Word) (len : Nat) : (s.setSlice base len).replies = s.replies := rfl

/-! ### setFrame -/

@[simp] theorem State.setFrame_cfg (w h : Half) : (s.setFrame w h).cfg = s.cfg := rfl
@[simp] theorem State.setFrame_coef (w h : Half) : (s.setFrame w h).coef = s.coef := rfl
@[simp] theorem State.setFrame_spat (w h : Half) : (s.setFrame w h).spat = s.spat := rfl
@[simp] theorem State.setFrame_result (w h : Half) : (s.setFrame w h).result = s.result := rfl
@[simp] theorem State.setFrame_cmdcnt (w h : Half) : (s.setFrame w h).cmdcnt = s.cmdcnt := rfl
@[simp] theorem State.setFrame_brActive (w h : Half) : (s.setFrame w h).brActive = s.brActive := rfl
@[simp] theorem State.setFrame_brBase (w h : Half) : (s.setFrame w h).brBase = s.brBase := rfl
@[simp] theorem State.setFrame_brNbits (w h : Half) : (s.setFrame w h).brNbits = s.brNbits := rfl
@[simp] theorem State.setFrame_bitpos (w h : Half) : (s.setFrame w h).bitpos = s.bitpos := rfl
@[simp] theorem State.setFrame_acc (w h : Half) : (s.setFrame w h).acc = s.acc := rfl
@[simp] theorem State.setFrame_nvalid (w h : Half) : (s.setFrame w h).nvalid = s.nvalid := rfl
@[simp] theorem State.setFrame_wptr (w h : Half) : (s.setFrame w h).wptr = s.wptr := rfl
@[simp] theorem State.setFrame_hdrOk (w h : Half) : (s.setFrame w h).hdrOk = s.hdrOk := rfl
@[simp] theorem State.setFrame_qscale (w h : Half) : (s.setFrame w h).qscale = s.qscale := rfl
@[simp] theorem State.setFrame_vstate (w h : Half) : (s.setFrame w h).vstate = s.vstate := rfl
@[simp] theorem State.setFrame_blk (w h : Half) : (s.setFrame w h).blk = s.blk := rfl
@[simp] theorem State.setFrame_pos (w h : Half) : (s.setFrame w h).pos = s.pos := rfl
@[simp] theorem State.setFrame_accnt (w h : Half) : (s.setFrame w h).accnt = s.accnt := rfl
@[simp] theorem State.setFrame_escrun (w h : Half) : (s.setFrame w h).escrun = s.escrun := rfl
@[simp] theorem State.setFrame_frameW (w h : Half) : (s.setFrame w h).frameW = w := rfl
@[simp] theorem State.setFrame_frameH (w h : Half) : (s.setFrame w h).frameH = h := rfl
@[simp] theorem State.setFrame_channels (w h : Half) : (s.setFrame w h).channels = s.channels := rfl
@[simp] theorem State.setFrame_prev1 (w h : Half) : (s.setFrame w h).prev1 = s.prev1 := rfl
@[simp] theorem State.setFrame_prev2 (w h : Half) : (s.setFrame w h).prev2 = s.prev2 := rfl
@[simp] theorem State.setFrame_pcmcnt (w h : Half) : (s.setFrame w h).pcmcnt = s.pcmcnt := rfl
@[simp] theorem State.setFrame_busy (w h : Half) : (s.setFrame w h).busy = s.busy := rfl
@[simp] theorem State.setFrame_errCode (w h : Half) : (s.setFrame w h).errCode = s.errCode := rfl
@[simp] theorem State.setFrame_errCause (w h : Half) : (s.setFrame w h).errCause = s.errCause := rfl
@[simp] theorem State.setFrame_errOp (w h : Half) : (s.setFrame w h).errOp = s.errOp := rfl
@[simp] theorem State.setFrame_errCmd (w h : Half) : (s.setFrame w h).errCmd = s.errCmd := rfl
@[simp] theorem State.setFrame_errInfo (w h : Half) : (s.setFrame w h).errInfo = s.errInfo := rfl
@[simp] theorem State.setFrame_ibufLen (w h : Half) : (s.setFrame w h).ibufLen = s.ibufLen := rfl
@[simp] theorem State.setFrame_ibuf (w h : Half) : (s.setFrame w h).ibuf = s.ibuf := rfl
@[simp] theorem State.setFrame_pix (w h : Half) : (s.setFrame w h).pix = s.pix := rfl
@[simp] theorem State.setFrame_pcmout (w h : Half) : (s.setFrame w h).pcmout = s.pcmout := rfl
@[simp] theorem State.setFrame_pixFresh (w h : Half) : (s.setFrame w h).pixFresh = if w = s.frameW then s.pixFresh else [] := rfl
@[simp] theorem State.setFrame_sliceRewritten (w h : Half) : (s.setFrame w h).sliceRewritten = s.sliceRewritten := rfl
@[simp] theorem State.setFrame_ibufEpoch (w h : Half) : (s.setFrame w h).ibufEpoch = s.ibufEpoch := rfl
@[simp] theorem State.setFrame_freeNext (w h : Half) : (s.setFrame w h).freeNext = s.freeNext := rfl
@[simp] theorem State.setFrame_moves (w h : Half) : (s.setFrame w h).moves = s.moves := rfl
@[simp] theorem State.setFrame_replies (w h : Half) : (s.setFrame w h).replies = s.replies := rfl

/-! ### openBlock -/

@[simp] theorem State.openBlock_cfg (b : Nat) : (s.openBlock b).cfg = s.cfg := rfl
@[simp] theorem State.openBlock_coef (b : Nat) : (s.openBlock b).coef = s.coef := rfl
@[simp] theorem State.openBlock_spat (b : Nat) : (s.openBlock b).spat = s.spat := rfl
@[simp] theorem State.openBlock_result (b : Nat) : (s.openBlock b).result = s.result := rfl
@[simp] theorem State.openBlock_cmdcnt (b : Nat) : (s.openBlock b).cmdcnt = s.cmdcnt := rfl
@[simp] theorem State.openBlock_brActive (b : Nat) : (s.openBlock b).brActive = s.brActive := rfl
@[simp] theorem State.openBlock_brBase (b : Nat) : (s.openBlock b).brBase = s.brBase := rfl
@[simp] theorem State.openBlock_brNbits (b : Nat) : (s.openBlock b).brNbits = s.brNbits := rfl
@[simp] theorem State.openBlock_bitpos (b : Nat) : (s.openBlock b).bitpos = s.bitpos := rfl
@[simp] theorem State.openBlock_acc (b : Nat) : (s.openBlock b).acc = s.acc := rfl
@[simp] theorem State.openBlock_nvalid (b : Nat) : (s.openBlock b).nvalid = s.nvalid := rfl
@[simp] theorem State.openBlock_wptr (b : Nat) : (s.openBlock b).wptr = s.wptr := rfl
@[simp] theorem State.openBlock_hdrOk (b : Nat) : (s.openBlock b).hdrOk = s.hdrOk := rfl
@[simp] theorem State.openBlock_qscale (b : Nat) : (s.openBlock b).qscale = s.qscale := rfl
@[simp] theorem State.openBlock_vstate (b : Nat) : (s.openBlock b).vstate = .readRunValue := rfl
@[simp] theorem State.openBlock_blk (b : Nat) : (s.openBlock b).blk = BitVec.ofNat 3 b := rfl
@[simp] theorem State.openBlock_pos (b : Nat) : (s.openBlock b).pos = 0#6 := rfl
@[simp] theorem State.openBlock_accnt (b : Nat) : (s.openBlock b).accnt = 0#7 := rfl
@[simp] theorem State.openBlock_escrun (b : Nat) : (s.openBlock b).escrun = 0#6 := rfl
@[simp] theorem State.openBlock_frameW (b : Nat) : (s.openBlock b).frameW = s.frameW := rfl
@[simp] theorem State.openBlock_frameH (b : Nat) : (s.openBlock b).frameH = s.frameH := rfl
@[simp] theorem State.openBlock_channels (b : Nat) : (s.openBlock b).channels = s.channels := rfl
@[simp] theorem State.openBlock_prev1 (b : Nat) : (s.openBlock b).prev1 = s.prev1 := rfl
@[simp] theorem State.openBlock_prev2 (b : Nat) : (s.openBlock b).prev2 = s.prev2 := rfl
@[simp] theorem State.openBlock_pcmcnt (b : Nat) : (s.openBlock b).pcmcnt = s.pcmcnt := rfl
@[simp] theorem State.openBlock_busy (b : Nat) : (s.openBlock b).busy = s.busy := rfl
@[simp] theorem State.openBlock_errCode (b : Nat) : (s.openBlock b).errCode = s.errCode := rfl
@[simp] theorem State.openBlock_errCause (b : Nat) : (s.openBlock b).errCause = s.errCause := rfl
@[simp] theorem State.openBlock_errOp (b : Nat) : (s.openBlock b).errOp = s.errOp := rfl
@[simp] theorem State.openBlock_errCmd (b : Nat) : (s.openBlock b).errCmd = s.errCmd := rfl
@[simp] theorem State.openBlock_errInfo (b : Nat) : (s.openBlock b).errInfo = s.errInfo := rfl
@[simp] theorem State.openBlock_ibufLen (b : Nat) : (s.openBlock b).ibufLen = s.ibufLen := rfl
@[simp] theorem State.openBlock_ibuf (b : Nat) : (s.openBlock b).ibuf = s.ibuf := rfl
@[simp] theorem State.openBlock_pix (b : Nat) : (s.openBlock b).pix = s.pix := rfl
@[simp] theorem State.openBlock_pcmout (b : Nat) : (s.openBlock b).pcmout = s.pcmout := rfl
@[simp] theorem State.openBlock_pixFresh (b : Nat) : (s.openBlock b).pixFresh = s.pixFresh := rfl
@[simp] theorem State.openBlock_sliceRewritten (b : Nat) : (s.openBlock b).sliceRewritten = s.sliceRewritten := rfl
@[simp] theorem State.openBlock_ibufEpoch (b : Nat) : (s.openBlock b).ibufEpoch = s.ibufEpoch := rfl
@[simp] theorem State.openBlock_freeNext (b : Nat) : (s.openBlock b).freeNext = s.freeNext := rfl
@[simp] theorem State.openBlock_moves (b : Nat) : (s.openBlock b).moves = s.moves := rfl
@[simp] theorem State.openBlock_replies (b : Nat) : (s.openBlock b).replies = s.replies := rfl

/-! ### loadByte -/

@[simp] theorem State.loadByte_cfg (a : Nat) (v : Byte) : (s.loadByte a v).cfg = s.cfg := rfl
@[simp] theorem State.loadByte_coef (a : Nat) (v : Byte) : (s.loadByte a v).coef = s.coef := rfl
@[simp] theorem State.loadByte_spat (a : Nat) (v : Byte) : (s.loadByte a v).spat = s.spat := rfl
@[simp] theorem State.loadByte_result (a : Nat) (v : Byte) : (s.loadByte a v).result = s.result := rfl
@[simp] theorem State.loadByte_cmdcnt (a : Nat) (v : Byte) : (s.loadByte a v).cmdcnt = s.cmdcnt := rfl
@[simp] theorem State.loadByte_brActive (a : Nat) (v : Byte) : (s.loadByte a v).brActive = s.brActive := rfl
@[simp] theorem State.loadByte_brBase (a : Nat) (v : Byte) : (s.loadByte a v).brBase = s.brBase := rfl
@[simp] theorem State.loadByte_brNbits (a : Nat) (v : Byte) : (s.loadByte a v).brNbits = s.brNbits := rfl
@[simp] theorem State.loadByte_bitpos (a : Nat) (v : Byte) : (s.loadByte a v).bitpos = s.bitpos := rfl
@[simp] theorem State.loadByte_acc (a : Nat) (v : Byte) : (s.loadByte a v).acc = s.acc := rfl
@[simp] theorem State.loadByte_nvalid (a : Nat) (v : Byte) : (s.loadByte a v).nvalid = s.nvalid := rfl
@[simp] theorem State.loadByte_wptr (a : Nat) (v : Byte) : (s.loadByte a v).wptr = s.wptr := rfl
@[simp] theorem State.loadByte_hdrOk (a : Nat) (v : Byte) : (s.loadByte a v).hdrOk = s.hdrOk := rfl
@[simp] theorem State.loadByte_qscale (a : Nat) (v : Byte) : (s.loadByte a v).qscale = s.qscale := rfl
@[simp] theorem State.loadByte_vstate (a : Nat) (v : Byte) : (s.loadByte a v).vstate = s.vstate := rfl
@[simp] theorem State.loadByte_blk (a : Nat) (v : Byte) : (s.loadByte a v).blk = s.blk := rfl
@[simp] theorem State.loadByte_pos (a : Nat) (v : Byte) : (s.loadByte a v).pos = s.pos := rfl
@[simp] theorem State.loadByte_accnt (a : Nat) (v : Byte) : (s.loadByte a v).accnt = s.accnt := rfl
@[simp] theorem State.loadByte_escrun (a : Nat) (v : Byte) : (s.loadByte a v).escrun = s.escrun := rfl
@[simp] theorem State.loadByte_frameW (a : Nat) (v : Byte) : (s.loadByte a v).frameW = s.frameW := rfl
@[simp] theorem State.loadByte_frameH (a : Nat) (v : Byte) : (s.loadByte a v).frameH = s.frameH := rfl
@[simp] theorem State.loadByte_channels (a : Nat) (v : Byte) : (s.loadByte a v).channels = s.channels := rfl
@[simp] theorem State.loadByte_prev1 (a : Nat) (v : Byte) : (s.loadByte a v).prev1 = s.prev1 := rfl
@[simp] theorem State.loadByte_prev2 (a : Nat) (v : Byte) : (s.loadByte a v).prev2 = s.prev2 := rfl
@[simp] theorem State.loadByte_pcmcnt (a : Nat) (v : Byte) : (s.loadByte a v).pcmcnt = s.pcmcnt := rfl
@[simp] theorem State.loadByte_busy (a : Nat) (v : Byte) : (s.loadByte a v).busy = s.busy := rfl
@[simp] theorem State.loadByte_errCode (a : Nat) (v : Byte) : (s.loadByte a v).errCode = s.errCode := rfl
@[simp] theorem State.loadByte_errCause (a : Nat) (v : Byte) : (s.loadByte a v).errCause = s.errCause := rfl
@[simp] theorem State.loadByte_errOp (a : Nat) (v : Byte) : (s.loadByte a v).errOp = s.errOp := rfl
@[simp] theorem State.loadByte_errCmd (a : Nat) (v : Byte) : (s.loadByte a v).errCmd = s.errCmd := rfl
@[simp] theorem State.loadByte_errInfo (a : Nat) (v : Byte) : (s.loadByte a v).errInfo = s.errInfo := rfl
@[simp] theorem State.loadByte_ibufLen (a : Nat) (v : Byte) : (s.loadByte a v).ibufLen = s.ibufLen := rfl
@[simp] theorem State.loadByte_ibuf (a : Nat) (v : Byte) : (s.loadByte a v).ibuf = Memory.write s.ibuf a v := rfl
@[simp] theorem State.loadByte_pix (a : Nat) (v : Byte) : (s.loadByte a v).pix = s.pix := rfl
@[simp] theorem State.loadByte_pcmout (a : Nat) (v : Byte) : (s.loadByte a v).pcmout = s.pcmout := rfl
@[simp] theorem State.loadByte_pixFresh (a : Nat) (v : Byte) : (s.loadByte a v).pixFresh = s.pixFresh := rfl
@[simp] theorem State.loadByte_sliceRewritten (a : Nat) (v : Byte) : (s.loadByte a v).sliceRewritten = (s.sliceRewritten || (s.brActive && s.brBase.toNat ≤ a && a < sliceEnd s)) := rfl
@[simp] theorem State.loadByte_ibufEpoch (a : Nat) (v : Byte) : (s.loadByte a v).ibufEpoch = s.ibufEpoch := rfl
@[simp] theorem State.loadByte_freeNext (a : Nat) (v : Byte) : (s.loadByte a v).freeNext = s.freeNext := rfl
@[simp] theorem State.loadByte_moves (a : Nat) (v : Byte) : (s.loadByte a v).moves = s.moves := rfl
@[simp] theorem State.loadByte_replies (a : Nat) (v : Byte) : (s.loadByte a v).replies = s.replies := rfl

/-! ### declareLength -/

@[simp] theorem State.declareLength_cfg (n : Word) : (s.declareLength n).cfg = s.cfg := rfl
@[simp] theorem State.declareLength_coef (n : Word) : (s.declareLength n).coef = s.coef := rfl
@[simp] theorem State.declareLength_spat (n : Word) : (s.declareLength n).spat = s.spat := rfl
@[simp] theorem State.declareLength_result (n : Word) : (s.declareLength n).result = s.result := rfl
@[simp] theorem State.declareLength_cmdcnt (n : Word) : (s.declareLength n).cmdcnt = s.cmdcnt := rfl
@[simp] theorem State.declareLength_brActive (n : Word) : (s.declareLength n).brActive = s.brActive := rfl
@[simp] theorem State.declareLength_brBase (n : Word) : (s.declareLength n).brBase = s.brBase := rfl
@[simp] theorem State.declareLength_brNbits (n : Word) : (s.declareLength n).brNbits = s.brNbits := rfl
@[simp] theorem State.declareLength_bitpos (n : Word) : (s.declareLength n).bitpos = s.bitpos := rfl
@[simp] theorem State.declareLength_acc (n : Word) : (s.declareLength n).acc = s.acc := rfl
@[simp] theorem State.declareLength_nvalid (n : Word) : (s.declareLength n).nvalid = s.nvalid := rfl
@[simp] theorem State.declareLength_wptr (n : Word) : (s.declareLength n).wptr = s.wptr := rfl
@[simp] theorem State.declareLength_hdrOk (n : Word) : (s.declareLength n).hdrOk = s.hdrOk := rfl
@[simp] theorem State.declareLength_qscale (n : Word) : (s.declareLength n).qscale = s.qscale := rfl
@[simp] theorem State.declareLength_vstate (n : Word) : (s.declareLength n).vstate = s.vstate := rfl
@[simp] theorem State.declareLength_blk (n : Word) : (s.declareLength n).blk = s.blk := rfl
@[simp] theorem State.declareLength_pos (n : Word) : (s.declareLength n).pos = s.pos := rfl
@[simp] theorem State.declareLength_accnt (n : Word) : (s.declareLength n).accnt = s.accnt := rfl
@[simp] theorem State.declareLength_escrun (n : Word) : (s.declareLength n).escrun = s.escrun := rfl
@[simp] theorem State.declareLength_frameW (n : Word) : (s.declareLength n).frameW = s.frameW := rfl
@[simp] theorem State.declareLength_frameH (n : Word) : (s.declareLength n).frameH = s.frameH := rfl
@[simp] theorem State.declareLength_channels (n : Word) : (s.declareLength n).channels = s.channels := rfl
@[simp] theorem State.declareLength_prev1 (n : Word) : (s.declareLength n).prev1 = s.prev1 := rfl
@[simp] theorem State.declareLength_prev2 (n : Word) : (s.declareLength n).prev2 = s.prev2 := rfl
@[simp] theorem State.declareLength_pcmcnt (n : Word) : (s.declareLength n).pcmcnt = s.pcmcnt := rfl
@[simp] theorem State.declareLength_busy (n : Word) : (s.declareLength n).busy = s.busy := rfl
@[simp] theorem State.declareLength_errCode (n : Word) : (s.declareLength n).errCode = s.errCode := rfl
@[simp] theorem State.declareLength_errCause (n : Word) : (s.declareLength n).errCause = s.errCause := rfl
@[simp] theorem State.declareLength_errOp (n : Word) : (s.declareLength n).errOp = s.errOp := rfl
@[simp] theorem State.declareLength_errCmd (n : Word) : (s.declareLength n).errCmd = s.errCmd := rfl
@[simp] theorem State.declareLength_errInfo (n : Word) : (s.declareLength n).errInfo = s.errInfo := rfl
@[simp] theorem State.declareLength_ibufLen (n : Word) : (s.declareLength n).ibufLen = n := rfl
@[simp] theorem State.declareLength_ibuf (n : Word) : (s.declareLength n).ibuf = s.ibuf := rfl
@[simp] theorem State.declareLength_pix (n : Word) : (s.declareLength n).pix = s.pix := rfl
@[simp] theorem State.declareLength_pcmout (n : Word) : (s.declareLength n).pcmout = s.pcmout := rfl
@[simp] theorem State.declareLength_pixFresh (n : Word) : (s.declareLength n).pixFresh = s.pixFresh := rfl
@[simp] theorem State.declareLength_sliceRewritten (n : Word) : (s.declareLength n).sliceRewritten = (s.sliceRewritten || (s.brActive && n.toNat < s.ibufLen.toNat && n.toNat < sliceEnd s)) := rfl
@[simp] theorem State.declareLength_ibufEpoch (n : Word) : (s.declareLength n).ibufEpoch = s.ibufEpoch := rfl
@[simp] theorem State.declareLength_freeNext (n : Word) : (s.declareLength n).freeNext = s.freeNext := rfl
@[simp] theorem State.declareLength_moves (n : Word) : (s.declareLength n).moves = s.moves := rfl
@[simp] theorem State.declareLength_replies (n : Word) : (s.declareLength n).replies = s.replies := rfl

/-! ### reply -/

@[simp] theorem State.reply_cfg (r : HostReply) : (s.reply r).cfg = s.cfg := rfl
@[simp] theorem State.reply_coef (r : HostReply) : (s.reply r).coef = s.coef := rfl
@[simp] theorem State.reply_spat (r : HostReply) : (s.reply r).spat = s.spat := rfl
@[simp] theorem State.reply_result (r : HostReply) : (s.reply r).result = s.result := rfl
@[simp] theorem State.reply_cmdcnt (r : HostReply) : (s.reply r).cmdcnt = s.cmdcnt := rfl
@[simp] theorem State.reply_brActive (r : HostReply) : (s.reply r).brActive = s.brActive := rfl
@[simp] theorem State.reply_brBase (r : HostReply) : (s.reply r).brBase = s.brBase := rfl
@[simp] theorem State.reply_brNbits (r : HostReply) : (s.reply r).brNbits = s.brNbits := rfl
@[simp] theorem State.reply_bitpos (r : HostReply) : (s.reply r).bitpos = s.bitpos := rfl
@[simp] theorem State.reply_acc (r : HostReply) : (s.reply r).acc = s.acc := rfl
@[simp] theorem State.reply_nvalid (r : HostReply) : (s.reply r).nvalid = s.nvalid := rfl
@[simp] theorem State.reply_wptr (r : HostReply) : (s.reply r).wptr = s.wptr := rfl
@[simp] theorem State.reply_hdrOk (r : HostReply) : (s.reply r).hdrOk = s.hdrOk := rfl
@[simp] theorem State.reply_qscale (r : HostReply) : (s.reply r).qscale = s.qscale := rfl
@[simp] theorem State.reply_vstate (r : HostReply) : (s.reply r).vstate = s.vstate := rfl
@[simp] theorem State.reply_blk (r : HostReply) : (s.reply r).blk = s.blk := rfl
@[simp] theorem State.reply_pos (r : HostReply) : (s.reply r).pos = s.pos := rfl
@[simp] theorem State.reply_accnt (r : HostReply) : (s.reply r).accnt = s.accnt := rfl
@[simp] theorem State.reply_escrun (r : HostReply) : (s.reply r).escrun = s.escrun := rfl
@[simp] theorem State.reply_frameW (r : HostReply) : (s.reply r).frameW = s.frameW := rfl
@[simp] theorem State.reply_frameH (r : HostReply) : (s.reply r).frameH = s.frameH := rfl
@[simp] theorem State.reply_channels (r : HostReply) : (s.reply r).channels = s.channels := rfl
@[simp] theorem State.reply_prev1 (r : HostReply) : (s.reply r).prev1 = s.prev1 := rfl
@[simp] theorem State.reply_prev2 (r : HostReply) : (s.reply r).prev2 = s.prev2 := rfl
@[simp] theorem State.reply_pcmcnt (r : HostReply) : (s.reply r).pcmcnt = s.pcmcnt := rfl
@[simp] theorem State.reply_busy (r : HostReply) : (s.reply r).busy = s.busy := rfl
@[simp] theorem State.reply_errCode (r : HostReply) : (s.reply r).errCode = s.errCode := rfl
@[simp] theorem State.reply_errCause (r : HostReply) : (s.reply r).errCause = s.errCause := rfl
@[simp] theorem State.reply_errOp (r : HostReply) : (s.reply r).errOp = s.errOp := rfl
@[simp] theorem State.reply_errCmd (r : HostReply) : (s.reply r).errCmd = s.errCmd := rfl
@[simp] theorem State.reply_errInfo (r : HostReply) : (s.reply r).errInfo = s.errInfo := rfl
@[simp] theorem State.reply_ibufLen (r : HostReply) : (s.reply r).ibufLen = s.ibufLen := rfl
@[simp] theorem State.reply_ibuf (r : HostReply) : (s.reply r).ibuf = s.ibuf := rfl
@[simp] theorem State.reply_pix (r : HostReply) : (s.reply r).pix = s.pix := rfl
@[simp] theorem State.reply_pcmout (r : HostReply) : (s.reply r).pcmout = s.pcmout := rfl
@[simp] theorem State.reply_pixFresh (r : HostReply) : (s.reply r).pixFresh = s.pixFresh := rfl
@[simp] theorem State.reply_sliceRewritten (r : HostReply) : (s.reply r).sliceRewritten = s.sliceRewritten := rfl
@[simp] theorem State.reply_ibufEpoch (r : HostReply) : (s.reply r).ibufEpoch = s.ibufEpoch := rfl
@[simp] theorem State.reply_freeNext (r : HostReply) : (s.reply r).freeNext = s.freeNext := rfl
@[simp] theorem State.reply_moves (r : HostReply) : (s.reply r).moves = s.moves := rfl
@[simp] theorem State.reply_replies (r : HostReply) : (s.reply r).replies = s.replies ++ [r] := rfl

/-! ### replyFree -/

@[simp] theorem State.replyFree_cfg (r : HostReply) : (s.replyFree r).cfg = s.cfg := rfl
@[simp] theorem State.replyFree_coef (r : HostReply) : (s.replyFree r).coef = s.coef := rfl
@[simp] theorem State.replyFree_spat (r : HostReply) : (s.replyFree r).spat = s.spat := rfl
@[simp] theorem State.replyFree_result (r : HostReply) : (s.replyFree r).result = s.result := rfl
@[simp] theorem State.replyFree_cmdcnt (r : HostReply) : (s.replyFree r).cmdcnt = s.cmdcnt := rfl
@[simp] theorem State.replyFree_brActive (r : HostReply) : (s.replyFree r).brActive = s.brActive := rfl
@[simp] theorem State.replyFree_brBase (r : HostReply) : (s.replyFree r).brBase = s.brBase := rfl
@[simp] theorem State.replyFree_brNbits (r : HostReply) : (s.replyFree r).brNbits = s.brNbits := rfl
@[simp] theorem State.replyFree_bitpos (r : HostReply) : (s.replyFree r).bitpos = s.bitpos := rfl
@[simp] theorem State.replyFree_acc (r : HostReply) : (s.replyFree r).acc = s.acc := rfl
@[simp] theorem State.replyFree_nvalid (r : HostReply) : (s.replyFree r).nvalid = s.nvalid := rfl
@[simp] theorem State.replyFree_wptr (r : HostReply) : (s.replyFree r).wptr = s.wptr := rfl
@[simp] theorem State.replyFree_hdrOk (r : HostReply) : (s.replyFree r).hdrOk = s.hdrOk := rfl
@[simp] theorem State.replyFree_qscale (r : HostReply) : (s.replyFree r).qscale = s.qscale := rfl
@[simp] theorem State.replyFree_vstate (r : HostReply) : (s.replyFree r).vstate = s.vstate := rfl
@[simp] theorem State.replyFree_blk (r : HostReply) : (s.replyFree r).blk = s.blk := rfl
@[simp] theorem State.replyFree_pos (r : HostReply) : (s.replyFree r).pos = s.pos := rfl
@[simp] theorem State.replyFree_accnt (r : HostReply) : (s.replyFree r).accnt = s.accnt := rfl
@[simp] theorem State.replyFree_escrun (r : HostReply) : (s.replyFree r).escrun = s.escrun := rfl
@[simp] theorem State.replyFree_frameW (r : HostReply) : (s.replyFree r).frameW = s.frameW := rfl
@[simp] theorem State.replyFree_frameH (r : HostReply) : (s.replyFree r).frameH = s.frameH := rfl
@[simp] theorem State.replyFree_channels (r : HostReply) : (s.replyFree r).channels = s.channels := rfl
@[simp] theorem State.replyFree_prev1 (r : HostReply) : (s.replyFree r).prev1 = s.prev1 := rfl
@[simp] theorem State.replyFree_prev2 (r : HostReply) : (s.replyFree r).prev2 = s.prev2 := rfl
@[simp] theorem State.replyFree_pcmcnt (r : HostReply) : (s.replyFree r).pcmcnt = s.pcmcnt := rfl
@[simp] theorem State.replyFree_busy (r : HostReply) : (s.replyFree r).busy = s.busy := rfl
@[simp] theorem State.replyFree_errCode (r : HostReply) : (s.replyFree r).errCode = s.errCode := rfl
@[simp] theorem State.replyFree_errCause (r : HostReply) : (s.replyFree r).errCause = s.errCause := rfl
@[simp] theorem State.replyFree_errOp (r : HostReply) : (s.replyFree r).errOp = s.errOp := rfl
@[simp] theorem State.replyFree_errCmd (r : HostReply) : (s.replyFree r).errCmd = s.errCmd := rfl
@[simp] theorem State.replyFree_errInfo (r : HostReply) : (s.replyFree r).errInfo = s.errInfo := rfl
@[simp] theorem State.replyFree_ibufLen (r : HostReply) : (s.replyFree r).ibufLen = s.ibufLen := rfl
@[simp] theorem State.replyFree_ibuf (r : HostReply) : (s.replyFree r).ibuf = s.ibuf := rfl
@[simp] theorem State.replyFree_pix (r : HostReply) : (s.replyFree r).pix = s.pix := rfl
@[simp] theorem State.replyFree_pcmout (r : HostReply) : (s.replyFree r).pcmout = s.pcmout := rfl
@[simp] theorem State.replyFree_pixFresh (r : HostReply) : (s.replyFree r).pixFresh = s.pixFresh := rfl
@[simp] theorem State.replyFree_sliceRewritten (r : HostReply) : (s.replyFree r).sliceRewritten = s.sliceRewritten := rfl
@[simp] theorem State.replyFree_ibufEpoch (r : HostReply) : (s.replyFree r).ibufEpoch = s.ibufEpoch := rfl
@[simp] theorem State.replyFree_freeNext (r : HostReply) : (s.replyFree r).freeNext = s.freeNext + 1 := rfl
@[simp] theorem State.replyFree_moves (r : HostReply) : (s.replyFree r).moves = s.moves := rfl
@[simp] theorem State.replyFree_replies (r : HostReply) : (s.replyFree r).replies = s.replies ++ [r] := rfl

/-! ### pull -/

@[simp] theorem pull_cfg : (pull s).cfg = s.cfg := rfl
@[simp] theorem pull_coef : (pull s).coef = s.coef := rfl
@[simp] theorem pull_spat : (pull s).spat = s.spat := rfl
@[simp] theorem pull_result : (pull s).result = s.result := rfl
@[simp] theorem pull_cmdcnt : (pull s).cmdcnt = s.cmdcnt := rfl
@[simp] theorem pull_brActive : (pull s).brActive = s.brActive := rfl
@[simp] theorem pull_brBase : (pull s).brBase = s.brBase := rfl
@[simp] theorem pull_brNbits : (pull s).brNbits = s.brNbits := rfl
@[simp] theorem pull_bitpos : (pull s).bitpos = s.bitpos := rfl
@[simp] theorem pull_acc : (pull s).acc = (s.acc <<< 16) + (sliceWord s s.wptr.toNat).setWidth 48 := rfl
@[simp] theorem pull_nvalid : (pull s).nvalid = s.nvalid + 16 := rfl
@[simp] theorem pull_wptr : (pull s).wptr = s.wptr + 1#32 := rfl
@[simp] theorem pull_hdrOk : (pull s).hdrOk = s.hdrOk := rfl
@[simp] theorem pull_qscale : (pull s).qscale = s.qscale := rfl
@[simp] theorem pull_vstate : (pull s).vstate = s.vstate := rfl
@[simp] theorem pull_blk : (pull s).blk = s.blk := rfl
@[simp] theorem pull_pos : (pull s).pos = s.pos := rfl
@[simp] theorem pull_accnt : (pull s).accnt = s.accnt := rfl
@[simp] theorem pull_escrun : (pull s).escrun = s.escrun := rfl
@[simp] theorem pull_frameW : (pull s).frameW = s.frameW := rfl
@[simp] theorem pull_frameH : (pull s).frameH = s.frameH := rfl
@[simp] theorem pull_channels : (pull s).channels = s.channels := rfl
@[simp] theorem pull_prev1 : (pull s).prev1 = s.prev1 := rfl
@[simp] theorem pull_prev2 : (pull s).prev2 = s.prev2 := rfl
@[simp] theorem pull_pcmcnt : (pull s).pcmcnt = s.pcmcnt := rfl
@[simp] theorem pull_busy : (pull s).busy = s.busy := rfl
@[simp] theorem pull_errCode : (pull s).errCode = s.errCode := rfl
@[simp] theorem pull_errCause : (pull s).errCause = s.errCause := rfl
@[simp] theorem pull_errOp : (pull s).errOp = s.errOp := rfl
@[simp] theorem pull_errCmd : (pull s).errCmd = s.errCmd := rfl
@[simp] theorem pull_errInfo : (pull s).errInfo = s.errInfo := rfl
@[simp] theorem pull_ibufLen : (pull s).ibufLen = s.ibufLen := rfl
@[simp] theorem pull_ibuf : (pull s).ibuf = s.ibuf := rfl
@[simp] theorem pull_pix : (pull s).pix = s.pix := rfl
@[simp] theorem pull_pcmout : (pull s).pcmout = s.pcmout := rfl
@[simp] theorem pull_pixFresh : (pull s).pixFresh = s.pixFresh := rfl
@[simp] theorem pull_sliceRewritten : (pull s).sliceRewritten = s.sliceRewritten := rfl
@[simp] theorem pull_ibufEpoch : (pull s).ibufEpoch = s.ibufEpoch := rfl
@[simp] theorem pull_freeNext : (pull s).freeNext = s.freeNext := rfl
@[simp] theorem pull_moves : (pull s).moves = s.moves := rfl
@[simp] theorem pull_replies : (pull s).replies = s.replies := rfl

end Sys2Proof.Machine
end

