-- ==== Sys2Proof/Laws/Ops.lean ====
section
/-! SUPPORT. One lemma per shared operation: memory, offsets, the flow of a command's pseudocode, completion and
fault. -/

namespace Sys2Proof.Machine

/-! ### Memory -/

@[simp] theorem Memory.read?_nil (a : Nat) : Memory.read? [] a = none := rfl

theorem Memory.read?_cons (k : Nat) (v : Byte) (t : Memory) (a : Nat) :
    Memory.read? ((k, v) :: t) a = if a = k then some v else Memory.read? t a := rfl

/-- Read after write, in any list: the written offset reads the written byte, every other offset as before. -/
theorem Memory.read?_write (m : Memory) (a b : Nat) (v : Byte) :
    Memory.read? (Memory.write m a v) b = if b = a then some v else Memory.read? m b := by
  induction m with
  | nil => simp [Memory.write, Memory.read?_cons]
  | cons c t ih =>
    obtain ⟨k, w⟩ := c
    unfold Memory.write
    split
    · simp [Memory.read?_cons]
    · split
      · rename_i h; subst h
        by_cases hb : b = a <;> simp [Memory.read?_cons, hb]
      · rename_i h1 h2
        by_cases hb : b = a
        · subst hb; simp [Memory.read?_cons, h2, ih]
        · by_cases hk : b = k <;> simp [Memory.read?_cons, hk, ih]
          simp [hk] at hb; simp [hb]

@[simp] theorem Memory.read?_write_same (m : Memory) (a : Nat) (v : Byte) :
    Memory.read? (Memory.write m a v) a = some v := by simp [Memory.read?_write]

theorem Memory.read?_write_other (m : Memory) {a b : Nat} (v : Byte) (h : b ≠ a) :
    Memory.read? (Memory.write m a v) b = Memory.read? m b := by simp [Memory.read?_write, h]

/-- What a write lists: the new pair and old ones. -/
theorem Memory.mem_write {m : Memory} {a : Nat} {v : Byte} {c : Host.Cell} (h : c ∈ Memory.write m a v) :
    c = (a, v) ∨ c ∈ m := by
  induction m with
  | nil => simp [Memory.write] at h; exact .inl h
  | cons d t ih =>
    obtain ⟨k, w⟩ := d
    unfold Memory.write at h
    split at h
    · simp at h; rcases h with h | h | h <;> simp [h]
    · split at h
      · simp at h; rcases h with h | h <;> simp [h]
      · simp only [List.mem_cons] at h
        rcases h with h | h
        · simp [h]
        · rcases ih h with h | h <;> simp [h]

/-- The canonical form as a relation between every two neighbours. -/
theorem Memory.wf_iff (m : Memory) : Memory.wf m = true ↔ m.Pairwise (fun c d => c.1 < d.1) := by
  induction m with
  | nil => simp [Memory.wf]
  | cons c t ih =>
    cases t with
    | nil => simp [Memory.wf]
    | cons d t =>
      obtain ⟨k, v⟩ := c
      simp only [Memory.wf, Bool.and_eq_true, decide_eq_true_eq, ih, List.pairwise_cons, List.mem_cons,
        forall_eq_or_imp]
      constructor
      · rintro ⟨h, h1, h2⟩
        exact ⟨⟨h, fun e he => Nat.lt_trans h (h1 e he)⟩, h1, h2⟩
      · rintro ⟨⟨h, -⟩, h1, h2⟩
        exact ⟨h, h1, h2⟩

/-- A write keeps the canonical form. -/
theorem Memory.wf_write (m : Memory) (a : Nat) (v : Byte) (h : Memory.wf m = true) :
    Memory.wf (Memory.write m a v) = true := by
  rw [Memory.wf_iff] at *
  induction m with
  | nil => simp [Memory.write]
  | cons c t ih =>
    obtain ⟨k, w⟩ := c
    simp only [List.pairwise_cons] at h
    unfold Memory.write
    split
    · rename_i hlt
      simp only [List.pairwise_cons, List.mem_cons, forall_eq_or_imp]
      exact ⟨⟨hlt, fun e he => Nat.lt_trans hlt (h.1 e he)⟩, h⟩
    · split
      · rename_i _ heq; subst heq
        simp only [List.pairwise_cons]
        exact h
      · rename_i h1 h2
        simp only [List.pairwise_cons]
        refine ⟨fun e he => ?_, ih h.2⟩
        rcases Memory.mem_write he with rfl | he
        · show k < a; omega
        · exact h.1 e he

/-- An offset with a value is listed. -/
theorem Memory.read?_isSome_write (m : Memory) (a b : Nat) (v : Byte)
    (h : (Memory.read? m b).isSome = true) : (Memory.read? (Memory.write m a v) b).isSome = true := by
  rw [Memory.read?_write]; split <;> simp [h]

theorem Memory.mem_of_read? {m : Memory} {a : Nat} {v : Byte} (h : Memory.read? m a = some v) : (a, v) ∈ m := by
  induction m with
  | nil => simp at h
  | cons c t ih =>
    obtain ⟨k, w⟩ := c
    rw [Memory.read?_cons] at h
    split at h
    · rename_i hk; subst hk; simp at h; simp [h]
    · exact List.mem_cons_of_mem _ (ih h)

theorem Memory.wf_nil : Memory.wf [] = true := rfl

/-! ### Lists of offsets -/

@[simp] theorem mem_offsetInsert (l : List Nat) (a b : Nat) : b ∈ offsetInsert l a ↔ b = a ∨ b ∈ l := by
  induction l with
  | nil => simp [offsetInsert]
  | cons k t ih =>
    unfold offsetInsert
    split
    · simp
    · split
      · rename_i h; subst h; simp
      · simp [ih]; tauto

theorem offsetsRising_iff (l : List Nat) : offsetsRising l = true ↔ l.Pairwise (· < ·) := by
  induction l with
  | nil => simp [offsetsRising]
  | cons a t ih =>
    cases t with
    | nil => simp [offsetsRising]
    | cons b t =>
      simp only [offsetsRising, Bool.and_eq_true, decide_eq_true_eq, ih, List.pairwise_cons, List.mem_cons,
        forall_eq_or_imp]
      constructor
      · rintro ⟨h, h1, h2⟩
        exact ⟨⟨h, fun e he => Nat.lt_trans h (h1 e he)⟩, h1, h2⟩
      · rintro ⟨⟨h, -⟩, h1, h2⟩
        exact ⟨h, h1, h2⟩

theorem offsetsRising_insert (l : List Nat) (a : Nat) (h : offsetsRising l = true) :
    offsetsRising (offsetInsert l a) = true := by
  rw [offsetsRising_iff] at *
  induction l with
  | nil => simp [offsetInsert]
  | cons k t ih =>
    simp only [List.pairwise_cons] at h
    unfold offsetInsert
    split
    · rename_i hlt
      simp only [List.pairwise_cons, List.mem_cons, forall_eq_or_imp]
      exact ⟨⟨hlt, fun e he => Nat.lt_trans hlt (h.1 e he)⟩, h⟩
    · split
      · simp only [List.pairwise_cons]; exact h
      · rename_i h1 h2
        simp only [List.pairwise_cons, mem_offsetInsert]
        refine ⟨fun e he => ?_, ih h.2⟩
        rcases he with rfl | he
        · omega
        · exact h.1 e he

/-! ### Flow, completion, fault -/

@[simp] theorem flowBind_ok {α β : Type} (a : α) (s : State) (k : α → State → Flow β) :
    flowBind (.ok a s) k = k a s := rfl

@[simp] theorem flowBind_raised {α β : Type} (e : Exc) (info : Word) (s : State) (k : α → State → Flow β) :
    flowBind (.raised e info s) k = .raised e info s := rfl

/-- A sequence ends well only when both parts do. -/
theorem flowBind_eq_ok {α β : Type} {f : Flow α} {k : α → State → Flow β} {b : β} {t : State} :
    flowBind f k = .ok b t ↔ ∃ a s, f = .ok a s ∧ k a s = .ok b t := by
  cases f with
  | ok a s => simp
  | raised e info s => simp

/-- A sequence raises in its first part or in its second. -/
theorem flowBind_eq_raised {α β : Type} {f : Flow α} {k : α → State → Flow β} {e : Exc} {info : Word} {t : State} :
    flowBind f k = .raised e info t ↔
      f = .raised e info t ∨ ∃ a s, f = .ok a s ∧ k a s = .raised e info t := by
  cases f with
  | ok a s => simp
  | raised e' info' s => simp

/-- The state a flow leaves, however it ends. -/
def Flow.state {α : Type} : Flow α → State
  | .ok _ s       => s
  | .raised _ _ s => s

@[simp] theorem Flow.state_ok {α : Type} (a : α) (s : State) : (Flow.ok a s).state = s := rfl
@[simp] theorem Flow.state_raised {α : Type} (e : Exc) (i : Word) (s : State) :
    (Flow.raised e i s : Flow α).state = s := rfl

/-- A relation that is reflexive on the first part and composes holds along a sequence. -/
theorem flowBind_rel {α β : Type} {R : State → State → Prop} (htrans : ∀ a b c, R a b → R b c → R a c)
    {s : State} {f : Flow α} {k : α → State → Flow β} (hf : R s f.state)
    (hk : ∀ a t, f = .ok a t → R t (k a t).state) : R s (flowBind f k).state := by
  cases f with
  | ok a t => exact htrans _ _ _ hf (hk a t rfl)
  | raised e i t => exact hf

@[simp] theorem finish_ok {α : Type} (op : Byte) (a : α) (s : State) :
    finish op (.ok a s) = .next s.complete := rfl

@[simp] theorem finish_raised {α : Type} (op : Byte) (e : Exc) (info : Word) (s : State) :
    finish op (.raised e info s : Flow α) = .next (s.takeFault op e info) := rfl

/-- A command ends in a next state, and that state is a completion or a fault entry. -/
theorem finish_cases {α : Type} (op : Byte) (f : Flow α) :
    (∃ a s, f = .ok a s ∧ finish op f = .next s.complete) ∨
    (∃ e info s, f = .raised e info s ∧ finish op f = .next (s.takeFault op e info)) := by
  cases f with
  | ok a s => exact .inl ⟨a, s, rfl, rfl⟩
  | raised e info s => exact .inr ⟨e, info, s, rfl, rfl⟩

/-- Every exception has a code other than 0: a fault entry leaves the block faulted. -/
theorem excCode_ne_zero (e : Exc) : excCode e ≠ 0#8 := by cases e <;> decide

/-- The codes and causes are those of R270 to R276. -/
theorem legalFault_exc (e : Exc) : legalFault (excCode e) (excCause e) = true := by cases e <;> decide

end Sys2Proof.Machine
end

