-- ==== Sys2Proof/Laws/BitReader.lean ====
section
/-! SUPPORT. What the BitReader's operations can do: each changes at most the hidden accumulator (ACC, NVALID, WPTR)
and BITPOS. -/

namespace Sys2Proof.Machine

/-! ### Frames -/

/-- `t` is `s` but for the hidden accumulator. -/
def HiddenOnly (s t : State) : Prop := t = { s with acc := t.acc, nvalid := t.nvalid, wptr := t.wptr }

/-- `t` is `s` but for BITPOS and the hidden accumulator. -/
def CursorOnly (s t : State) : Prop :=
  t = { s with bitpos := t.bitpos, acc := t.acc, nvalid := t.nvalid, wptr := t.wptr }

theorem HiddenOnly.refl (s : State) : HiddenOnly s s := rfl

theorem HiddenOnly.trans {a b c : State} (h : HiddenOnly a b) (k : HiddenOnly b c) : HiddenOnly a c := by
  unfold HiddenOnly at *; rw [k, h]

theorem CursorOnly.refl (s : State) : CursorOnly s s := rfl

theorem CursorOnly.trans {a b c : State} (h : CursorOnly a b) (k : CursorOnly b c) : CursorOnly a c := by
  unfold CursorOnly at *; rw [k, h]

theorem HiddenOnly.cursor {s t : State} (h : HiddenOnly s t) : CursorOnly s t := by
  unfold HiddenOnly CursorOnly at *; rw [h]

theorem pull_hidden (s : State) : HiddenOnly s (pull s) := rfl

theorem pullIfWords_hidden (s : State) : HiddenOnly s (pullIfWords s) := by
  unfold pullIfWords; split
  · exact pull_hidden s
  · exact .refl s

/-- `Refill()` changes the hidden accumulator only (R124). -/
theorem refill_hidden (s : State) : HiddenOnly s (refill s) := by
  unfold refill; split
  · exact (pullIfWords_hidden s).trans (pullIfWords_hidden _)
  · exact .refl s

theorem pullUntil_hidden (n fuel : Nat) (s : State) : HiddenOnly s (pullUntil n fuel s) := by
  induction fuel generalizing s with
  | zero => exact .refl s
  | succ fuel ih =>
    unfold pullUntil; split
    · exact (pull_hidden s).trans (ih _)
    · exact .refl s

/-- `Ensure(n)` changes the hidden accumulator only (R126, R128). -/
theorem ensure_hidden (n : Nat) (s : State) : HiddenOnly s (ensure n s) :=
  (refill_hidden s).trans (pullUntil_hidden n n _)

/-! `Ensure(n)` field by field, for simp. -/

section
variable (n : Nat) (s : State)
@[simp] theorem ensure_bitpos : (ensure n s).bitpos = s.bitpos := by rw [ensure_hidden n s]
@[simp] theorem ensure_brNbits : (ensure n s).brNbits = s.brNbits := by rw [ensure_hidden n s]
@[simp] theorem ensure_brBase : (ensure n s).brBase = s.brBase := by rw [ensure_hidden n s]
@[simp] theorem ensure_ibuf : (ensure n s).ibuf = s.ibuf := by rw [ensure_hidden n s]
@[simp] theorem ensure_ibufEpoch : (ensure n s).ibufEpoch = s.ibufEpoch := by rw [ensure_hidden n s]
@[simp] theorem ensure_cfg : (ensure n s).cfg = s.cfg := by rw [ensure_hidden n s]
@[simp] theorem ensure_hdrOk : (ensure n s).hdrOk = s.hdrOk := by rw [ensure_hidden n s]
@[simp] theorem ensure_qscale : (ensure n s).qscale = s.qscale := by rw [ensure_hidden n s]
@[simp] theorem ensure_cmdcnt : (ensure n s).cmdcnt = s.cmdcnt := by rw [ensure_hidden n s]
@[simp] theorem ensure_brActive : (ensure n s).brActive = s.brActive := by rw [ensure_hidden n s]
end

/-- The bits of a slice depend on where it lies and on the input, on nothing else. -/
theorem sliceBit_congr {s t : State} (hb : t.brBase = s.brBase) (hi : t.ibuf = s.ibuf)
    (he : t.ibufEpoch = s.ibufEpoch) (i : Nat) : sliceBit t i = sliceBit s i := by
  unfold sliceBit sliceWord sliceWordOffset State.ibufRead; rw [hb, hi, he]

@[simp] theorem sliceBit_ensure (n : Nat) (s : State) : sliceBit (ensure n s) = sliceBit s := by
  funext i; exact sliceBit_congr (by simp) (by simp) (by simp) i

theorem CursorOnly.sliceBit {s t : State} (h : CursorOnly s t) (i : Nat) :
    Machine.sliceBit t i = Machine.sliceBit s i :=
  sliceBit_congr (by rw [h]) (by rw [h]) (by rw [h]) i

@[simp] theorem sliceWords_ensure (n : Nat) (s : State) : sliceWords (ensure n s) = sliceWords s := by
  simp [sliceWords]

/-- A word of the slice as a number: low byte first (R65). -/
theorem sliceWord_toNat (s : State) (k : Nat) :
    (sliceWord s k).toNat =
      (s.ibufRead (sliceWordOffset s k)).toNat + 256 * (s.ibufRead (sliceWordOffset s k + 1)).toNat := by
  unfold sliceWord
  rw [BitVec.toNat_append, ← Nat.shiftLeft_add_eq_or_of_lt (BitVec.isLt _), Nat.shiftLeft_eq]
  omega

/-- What a pull makes of the accumulator: the old bits, then the word's, 48 of them kept (R126). -/
theorem pull_acc_toNat (s : State) :
    (pull s).acc.toNat = (65536 * s.acc.toNat + (sliceWord s s.wptr.toNat).toNat) % 2 ^ 48 := by
  simp only [pull, BitVec.toNat_add, BitVec.toNat_shiftLeft, BitVec.toNat_setWidth, Nat.shiftLeft_eq]
  omega

/-! ### Values -/

@[simp] theorem bitsValue_zero (f : Nat → Bool) (a : Nat) : bitsValue f a 0 = 0 := rfl

theorem bitsValue_succ (f : Nat → Bool) (a n : Nat) :
    bitsValue f a (n + 1) = 2 * bitsValue f a n + (f (a + n)).toNat := rfl

theorem bitsValue_congr {f g : Nat → Bool} {a n : Nat} (h : ∀ i < n, f (a + i) = g (a + i)) :
    bitsValue f a n = bitsValue g a n := by
  induction n with
  | zero => rfl
  | succ n ih =>
    rw [bitsValue_succ, bitsValue_succ, ih fun i hi => h i (Nat.lt_succ_of_lt hi), h n (Nat.lt_succ_self n)]

/-- `n` bits make a number below 2^n. -/
theorem bitsValue_lt (f : Nat → Bool) (a n : Nat) : bitsValue f a n < 2 ^ n := by
  induction n with
  | zero => simp
  | succ n ih =>
    rw [bitsValue_succ, Nat.pow_succ]
    have := Bool.toNat_lt (f (a + n))
    omega

/-- Bit `j` of the value, from the least significant end, is the bit `n − 1 − j` of the sequence. -/
theorem bitsValue_testBit (f : Nat → Bool) (a n j : Nat) :
    (bitsValue f a n).testBit j = (decide (j < n) && f (a + (n - 1 - j))) := by
  induction n generalizing j with
  | zero => simp
  | succ n ih =>
    rw [bitsValue_succ]
    cases j with
    | zero => cases h : f (a + n) <;> simp [h, Nat.testBit_zero]
    | succ j =>
      rw [Nat.testBit_succ]
      have : (2 * bitsValue f a n + (f (a + n)).toNat) / 2 = bitsValue f a n := by
        have := Bool.toNat_lt (f (a + n)); omega
      rw [this, ih]
      have e : n - (j + 1) = n - 1 - j := by omega
      simp [e]

/-! ### The primitives (R125) -/

/-- `BrPeek(n)`: the value of the next `n` bits, or the failure; only the hidden accumulator moves. -/
theorem brPeek_cases (short : Exc) (n : Nat) (s : State) :
    (s.bitpos.toNat + n ≤ s.brNbits.toNat ∧
      brPeek short n s = .ok (bitsValue (sliceBit s) s.bitpos.toNat n) (ensure n s)) ∨
    (s.brNbits.toNat < s.bitpos.toNat + n ∧ brPeek short n s = .raised short s.bitpos (ensure n s)) := by
  unfold brPeek bitsShort
  by_cases h : s.brNbits.toNat < s.bitpos.toNat + n
  · exact .inr ⟨h, by simp [h]⟩
  · exact .inl ⟨by omega, by simp [h]⟩

/-- `BrConsume(n)`: all or nothing. -/
theorem brConsume_cases (short : Exc) (n : Nat) (s : State) :
    (s.bitpos.toNat + n ≤ s.brNbits.toNat ∧ brConsume short n s = .ok () ((ensure n s).advance n)) ∨
    (s.brNbits.toNat < s.bitpos.toNat + n ∧ brConsume short n s = .raised short s.bitpos (ensure n s)) := by
  unfold brConsume bitsShort
  by_cases h : s.brNbits.toNat < s.bitpos.toNat + n
  · exact .inr ⟨h, by simp [h]⟩
  · exact .inl ⟨by omega, by simp [h]⟩

/-- `BrRead(n)`: the next `n` bits and the cursor after them, or the failure. -/
theorem brRead_cases (short : Exc) (n : Nat) (s : State) :
    (s.bitpos.toNat + n ≤ s.brNbits.toNat ∧
      brRead short n s =
        .ok (bitsValue (sliceBit s) s.bitpos.toNat n) ((ensure n (ensure n s)).advance n)) ∨
    (s.brNbits.toNat < s.bitpos.toNat + n ∧ brRead short n s = .raised short s.bitpos (ensure n s)) := by
  unfold brRead
  rcases brPeek_cases short n s with ⟨h, hp⟩ | ⟨h, hp⟩
  · rcases brConsume_cases short n (ensure n s) with ⟨-, hc⟩ | ⟨h', -⟩
    · exact .inl ⟨h, by rw [hp, flowBind_ok, hc, flowBind_ok]⟩
    · simp at h'; omega
  · exact .inr ⟨h, by rw [hp]; rfl⟩

theorem advance_cursor (s : State) (n : Nat) : CursorOnly s (s.advance n) := rfl

theorem brPeek_frame (short : Exc) (n : Nat) (s : State) : HiddenOnly s (brPeek short n s).state := by
  rcases brPeek_cases short n s with ⟨-, h⟩ | ⟨-, h⟩ <;> rw [h] <;> exact ensure_hidden n s

theorem brConsume_frame (short : Exc) (n : Nat) (s : State) : CursorOnly s (brConsume short n s).state := by
  rcases brConsume_cases short n s with ⟨-, h⟩ | ⟨-, h⟩ <;> rw [h]
  · exact (ensure_hidden n s).cursor.trans (advance_cursor _ n)
  · exact (ensure_hidden n s).cursor

theorem brRead_frame (short : Exc) (n : Nat) (s : State) : CursorOnly s (brRead short n s).state := by
  rcases brRead_cases short n s with ⟨-, h⟩ | ⟨-, h⟩ <;> rw [h]
  · exact ((ensure_hidden n s).trans (ensure_hidden n _)).cursor.trans (advance_cursor _ n)
  · exact (ensure_hidden n s).cursor

/-- BITPOS after consuming bits that the slice has: no wrap (R265). -/
theorem advance_bitpos_toNat {s : State} {n : Nat} (h : s.bitpos.toNat + n ≤ s.brNbits.toNat) :
    (s.advance n).bitpos.toNat = s.bitpos.toNat + n := by
  have := s.brNbits.isLt
  simp only [State.advance_bitpos, BitVec.toNat_add, BitVec.toNat_ofNat]
  omega

/-! ### The gates of a command -/

theorem needSlice_cases (info : Word) (s : State) :
    (s.brActive = true ∧ needSlice info s = .ok () s) ∨
    (s.brActive = false ∧ needSlice info s = .raised .sequenceBrInactive info s) := by
  unfold needSlice; cases s.brActive <;> simp

theorem needCount_cases (n : Word) (s : State) :
    (n.toNat ≤ 32 ∧ needCount n s = .ok () s) ∨
    (32 < n.toNat ∧ needCount n s = .raised .operandNRange n s) := by
  unfold needCount nOutOfRange
  by_cases h : 32 < n.toNat
  · exact .inr ⟨h, by simp [h]⟩
  · exact .inl ⟨by omega, by simp [h]⟩

end Sys2Proof.Machine
end

