-- ==== Sys2Proof/Laws/Media.lean ====
section
/-! SUPPORT. What the IDCT, the colour converter and the ADPCM decompressor can touch and what they compute. -/

namespace Sys2Proof.Machine

/-! ### Work arrays -/

theorem blockGet_ofFn (f : Fin 64 → Word) {i : Nat} (h : i < 64) :
    blockGet (Vector.ofFn f) i = (f ⟨i, h⟩).toInt := by
  simp [blockGet, h]

theorem State.spatBlock_setSpatBlock (s : State) (b c : Nat) (blk : Block) :
    (s.setSpatBlock b blk).spatBlock c = if c = b ∧ b < 6 then blk else s.spatBlock c := by
  by_cases hb : b < 6
  · by_cases hc : c = b
    · subst hc; simp [State.spatBlock, hb]
    · simp [State.spatBlock, hc, Ne.symm hc]
  · simp [State.spatBlock, hb, Vector.setIfInBounds_eq_of_size_le (Nat.le_of_not_lt hb)]

theorem State.coefBlock_setCoef (s : State) (b i c : Nat) (v : Int) :
    (s.setCoef b i v).coefBlock c =
      if c = b ∧ b < 6 then (s.coefBlock b).setIfInBounds i (BitVec.ofInt 32 v) else s.coefBlock c := by
  by_cases hb : b < 6
  · by_cases hc : c = b
    · subst hc; simp [State.coefBlock, hb]
    · simp [State.coefBlock, hc, Ne.symm hc]
  · simp [State.coefBlock, hb, Vector.setIfInBounds_eq_of_size_le (Nat.le_of_not_lt hb)]

/-- Reading COEF after storing one element. -/
theorem State.coefAt_setCoef (s : State) {b i : Nat} (hb : b < 6) (hi : i < 64) (v : Int) (c j : Nat) :
    (s.setCoef b i v).coefAt c j =
      if c = b ∧ j = i then (BitVec.ofInt 32 v).toInt else s.coefAt c j := by
  unfold State.coefAt
  rw [State.coefBlock_setCoef]
  by_cases hc : c = b
  · subst hc
    by_cases hj : j = i
    · subst hj; simp [hb, hi, blockGet]
    · simp [hb, hj, blockGet, Ne.symm hj]
  · simp [hc]

@[simp] theorem State.coefAt_clearCoef (s : State) (b i : Nat) : s.clearCoef.coefAt b i = 0 := by
  unfold State.coefAt State.coefBlock State.clearCoef blockGet
  by_cases hb : b < 6 <;> by_cases hi : i < 64 <;> simp [hb, hi]

/-! ### IDCT -/

theorem idctBlock_get (blk : Block) {y x : Nat} (hy : y < 8) (hx : x < 8) :
    blockGet (idctBlock blk) (8 * y + x) = (BitVec.ofInt 32 (idctSample (blockGet blk) y x)).toInt := by
  unfold idctBlock
  rw [blockGet_ofFn _ (by omega)]
  have h1 : (8 * y + x) / 8 = y := by omega
  have h2 : (8 * y + x) % 8 = x := by omega
  simp only [h1, h2]

/-- One block's transform writes that block of SPAT only (R183). -/
theorem transform_frame (s : State) (b : Nat) :
    s.transform b = { s with spat := (s.transform b).spat } := rfl

@[simp] theorem transform_coef (s : State) (b : Nat) : (s.transform b).coef = s.coef := rfl

theorem transform_spatBlock (s : State) {b : Nat} (hb : b < 6) (c : Nat) :
    (s.transform b).spatBlock c = if c = b then idctBlock (s.coefBlock b) else s.spatBlock c := by
  unfold State.transform; rw [State.spatBlock_setSpatBlock]; simp [hb]

/-- Transforming blocks writes SPAT only (R184). -/
theorem transforms_frame (bs : List Nat) (s : State) : ∃ z, bs.foldl State.transform s = { s with spat := z } := by
  induction bs generalizing s with
  | nil => exact ⟨_, rfl⟩
  | cons b bs ih => obtain ⟨z, hz⟩ := ih (s.transform b); exact ⟨z, hz⟩

/-! ### Colour conversion -/

/-- `t` is `s` but for PIX and the mark of which PIX bytes the host may rely on. -/
def PixOnly (s t : State) : Prop := t = { s with pix := t.pix, pixFresh := t.pixFresh }

theorem PixOnly.refl (s : State) : PixOnly s s := rfl

theorem PixOnly.trans {a b c : State} (h : PixOnly a b) (k : PixOnly b c) : PixOnly a c := by
  unfold PixOnly at *; rw [k, h]

theorem pixWrite_frame (s : State) (o : Nat) (v : Byte) : PixOnly s (s.pixWrite o v) := rfl

theorem storePixel_frame (s : State) (o : Nat) (y cb cr : Int) : PixOnly s (s.storePixel o y cb cr) :=
  (((pixWrite_frame s o _).trans (pixWrite_frame _ (o + 1) _)).trans (pixWrite_frame _ (o + 2) _)).trans
    (pixWrite_frame _ (o + 3) _)

theorem cscPixel_frame (s : State) (mbx mby px py : Nat) : PixOnly s (s.cscPixel mbx mby px py) := by
  unfold State.cscPixel; split
  · exact storePixel_frame s _ _ _ _
  · exact .refl s

/-- CSC.MB touches PIX only (R206). -/
theorem cscMacroblock_frame (s : State) (mbx mby : Nat) : PixOnly s (s.cscMacroblock mbx mby) := by
  unfold State.cscMacroblock
  generalize List.range 256 = l
  induction l generalizing s with
  | nil => exact .refl s
  | cons k l ih => exact (cscPixel_frame s mbx mby _ _).trans (ih _)

/-- A pixel's four bytes, and every other byte as before (R205). -/
theorem storePixel_read (s : State) (o : Nat) (y cb cr : Int) (a : Nat) :
    Memory.read? (s.storePixel o y cb cr).pix a =
      if a = o + 3 then some alphaByte
      else if a = o + 2 then some (blueByte y cb cr)
      else if a = o + 1 then some (greenByte y cb cr)
      else if a = o then some (redByte y cb cr)
      else Memory.read? s.pix a := by
  simp only [State.storePixel, State.pixWrite_pix, Memory.read?_write]

/-! ### ADPCM -/

/-- `t` is `s` but for what ADPCM.DEC writes (R226, R281): PREV1, PREV2, PCMCNT and PCMOUT. -/
def AudioOnly (s t : State) : Prop :=
  t = { s with prev1 := t.prev1, prev2 := t.prev2, pcmcnt := t.pcmcnt, pcmout := t.pcmout }

theorem AudioOnly.refl (s : State) : AudioOnly s s := rfl

theorem AudioOnly.trans {a b c : State} (h : AudioOnly a b) (k : AudioOnly b c) : AudioOnly a c := by
  unfold AudioOnly at *; rw [k, h]

theorem adpcmSample_frame (s : State) (c : Nat) (p : Byte) (nib : BitVec 4) :
    AudioOnly s (s.adpcmSample c p nib) := rfl

theorem groupSample_frame (g : Nat) (s : State) (k : Nat × Nat × Nat) : AudioOnly s (s.groupSample g k) := rfl

theorem foldl_groupSample_frame (g : Nat) (l : List (Nat × Nat × Nat)) (s : State) :
    AudioOnly s (l.foldl (State.groupSample g) s) := by
  induction l generalizing s with
  | nil => exact .refl s
  | cons k l ih => exact (groupSample_frame g s k).trans (ih _)

/-- A group is decoded wholly, or not at all (R223). -/
theorem decodeGroup_cases (g : Nat) (s : State) :
    (groupReserved s g = false ∧
      decodeGroup g s = .ok () ((groupOrder s.channels).foldl (State.groupSample g) s)) ∨
    (groupReserved s g = true ∧ decodeGroup g s = .raised .corruptAdpcmRange (BitVec.ofNat 32 g) s) := by
  unfold decodeGroup; cases groupReserved s g <;> simp

theorem decodeGroup_frame (g : Nat) (s : State) : AudioOnly s (decodeGroup g s).state := by
  rcases decodeGroup_cases g s with ⟨-, h⟩ | ⟨-, h⟩ <;> rw [h]
  · exact foldl_groupSample_frame g _ s
  · exact .refl s

theorem decodeGroups_frame (count g : Nat) (s : State) : AudioOnly s (decodeGroups count g s).state := by
  induction count generalizing g s with
  | zero => exact .refl s
  | succ count ih =>
    exact flowBind_rel (R := AudioOnly) (fun _ _ _ => AudioOnly.trans) (decodeGroup_frame g s)
      fun _ t _ => ih (g + 128) t

/-- A group has 224 samples in either layout (R114). -/
theorem groupOrder_length (c : ChannelLayout) : (groupOrder c).length = 224 := by
  cases c <;> simp [groupOrder, List.length_flatMap]

/-- Every decoded sample is appended, and every append is counted (R30, R220). -/
theorem foldl_groupSample_pcmout (g : Nat) (l : List (Nat × Nat × Nat)) (s : State) :
    ∃ out, out.length = l.length ∧ (l.foldl (State.groupSample g) s).pcmout = s.pcmout ++ out ∧
      (l.foldl (State.groupSample g) s).pcmcnt = s.pcmcnt + BitVec.ofNat 32 l.length := by
  induction l generalizing s with
  | nil => exact ⟨[], by simp⟩
  | cons k l ih =>
    obtain ⟨out, hlen, hout, hcnt⟩ := ih (s.groupSample g k)
    refine ⟨BitVec.ofInt 16 (sampleValue (unitParam s g k.2.1) (unitNibble s g k.2.1 k.2.2)
      (s.prev1At k.1) (s.prev2At k.1)) :: out, by simp [hlen], ?_, ?_⟩
    · rw [List.foldl_cons, hout]
      simp [State.groupSample, State.adpcmSample, State.pcmEmit]
    · rw [List.foldl_cons, hcnt]
      simp only [State.groupSample, State.adpcmSample, State.pcmEmit_pcmcnt, State.pushPrev_pcmcnt, List.length_cons]
      rw [BitVec.add_assoc, ← BitVec.ofNat_add, Nat.add_comm]

end Sys2Proof.Machine
end

