-- ==== Sys2Proof/Laws/Vld.lean ====
section
/-! SUPPORT. What the entropy decoder can touch, and that a block's loop ends (41_vld.md R151, R153). -/

namespace Sys2Proof.Machine

/-- `t` is `s` but for what VLD.MB writes (R153, R281): COEF, BITPOS, the hidden accumulator and VSTATE, BLK, POS,
ACCNT, ESCRUN. -/
def VldOnly (s t : State) : Prop :=
  t = { s with
    coef := t.coef, bitpos := t.bitpos, acc := t.acc, nvalid := t.nvalid, wptr := t.wptr
    vstate := t.vstate, blk := t.blk, pos := t.pos, accnt := t.accnt, escrun := t.escrun }

theorem VldOnly.refl (s : State) : VldOnly s s := rfl

theorem VldOnly.trans {a b c : State} (h : VldOnly a b) (k : VldOnly b c) : VldOnly a c := by
  unfold VldOnly at *; rw [k, h]

theorem CursorOnly.vld {s t : State} (h : CursorOnly s t) : VldOnly s t := by
  unfold CursorOnly VldOnly at *; rw [h]

theorem flowBind_vld {α β : Type} {s : State} {f : Flow α} {k : α → State → Flow β} (hf : VldOnly s f.state)
    (hk : ∀ a t, VldOnly t (k a t).state) : VldOnly s (flowBind f k).state :=
  flowBind_rel (R := VldOnly) (fun _ _ _ => VldOnly.trans) hf fun a t _ => hk a t

theorem flowBind_cursor {α β : Type} {s : State} {f : Flow α} {k : α → State → Flow β} (hf : CursorOnly s f.state)
    (hk : ∀ a t, CursorOnly t (k a t).state) : CursorOnly s (flowBind f k).state :=
  flowBind_rel (R := CursorOnly) (fun _ _ _ => CursorOnly.trans) hf fun a t _ => hk a t

theorem storeDeq_frame (b i : Nat) (v : Int) (p : Plane) (k : Nat) (s : State) :
    VldOnly s (storeDeq b i v p k s).state := by
  unfold storeDeq; split
  · exact .refl s
  · rfl

/-- `Deq` stores the product when a 16-bit register can hold it, and raises COEF_RANGE otherwise (R150). -/
theorem storeDeq_cases (b i : Nat) (v : Int) (p : Plane) (k : Nat) (s : State) :
    (-32768 ≤ deq s v p k ∧ deq s v p k ≤ 32767 ∧
      storeDeq b i v p k s = .ok () (s.setCoef b i (deq s v p k))) ∨
    ((deq s v p k < -32768 ∨ 32767 < deq s v p k) ∧
      storeDeq b i v p k s = .raised .corruptCoefRange s.bitpos s) := by
  unfold storeDeq
  by_cases h : deq s v p k < -32768 ∨ 32767 < deq s v p k
  · exact .inr ⟨h, by simp [h]⟩
  · refine .inl ⟨by omega, by omega, by simp [h]⟩

theorem startBlock_frame (b : Nat) (p : Plane) (s : State) : VldOnly s (startBlock b p s).state :=
  flowBind_vld (brRead_frame _ _ s).vld fun _ t => storeDeq_frame b 0 _ p 0 t

theorem lookupCode_frame (bits : Nat) (entry : Nat → TableEntry) (s : State) :
    CursorOnly s (lookupCode bits entry s).state := by
  unfold lookupCode
  split
  · exact (ensure_hidden bits s).cursor
  all_goals
    exact flowBind_cursor ((ensure_hidden bits s).cursor.trans (brConsume_frame _ _ _)) fun _ t => .refl t

/-- Looking a code up in a table: no code there (CODE), a code longer than what is left (BUDGET), or the entry and the
cursor after its bits (R144, R152). -/
theorem lookupCode_cases (bits : Nat) (entry : Nat → TableEntry) (s : State) :
    ((entry (peekPadValue bits s)).kind = .invalid ∧
      lookupCode bits entry s = .raised .corruptCode s.bitpos (ensure bits s)) ∨
    ((entry (peekPadValue bits s)).kind ≠ .invalid ∧
      s.brNbits.toNat < s.bitpos.toNat + (entry (peekPadValue bits s)).len ∧
      lookupCode bits entry s =
        .raised .corruptBudget s.bitpos (ensure (entry (peekPadValue bits s)).len (ensure bits s))) ∨
    ((entry (peekPadValue bits s)).kind ≠ .invalid ∧
      s.bitpos.toNat + (entry (peekPadValue bits s)).len ≤ s.brNbits.toNat ∧
      lookupCode bits entry s = .ok (entry (peekPadValue bits s))
        ((ensure (entry (peekPadValue bits s)).len (ensure bits s)).advance (entry (peekPadValue bits s)).len)) := by
  unfold lookupCode
  rcases brConsume_cases vldShort (entry (peekPadValue bits s)).len (ensure bits s) with ⟨hb, e⟩ | ⟨hb, e⟩ <;>
    rw [e] <;> simp only [ensure_bitpos, ensure_brNbits] at hb <;>
    cases (entry (peekPadValue bits s)).kind <;> simp [hb, vldShort]

theorem decodePair_frame (s : State) : CursorOnly s (decodePair s).state := by
  refine flowBind_cursor (lookupCode_frame _ _ s) fun e t => ?_
  split
  · exact lookupCode_frame _ _ t
  · exact .refl t
  · exact .refl t

theorem readEscape_frame (run : Nat) (s : State) : VldOnly s (readEscape run s).state := by
  refine VldOnly.trans (b := { s with vstate := .readEscape, escrun := BitVec.ofNat 6 run }) rfl ?_
  exact flowBind_vld (brRead_frame _ _ _).vld fun _ _ => rfl

/-- A raw code the slice has no room for: BUDGET, in state ReadEscape, with the run held in ESCRUN (R147, R152). -/
theorem readEscape_short {run : Nat} {s : State} (h : s.brNbits.toNat < s.bitpos.toNat + s.cfg.rawBits) :
    readEscape run s = .raised .corruptBudget s.bitpos
      (ensure s.cfg.rawBits { s with vstate := .readEscape, escrun := BitVec.ofNat 6 run }) := by
  unfold readEscape
  rcases brRead_cases vldShort s.cfg.rawBits { s with vstate := .readEscape, escrun := BitVec.ofNat 6 run } with
    ⟨h', -⟩ | ⟨-, e⟩
  · exact absurd h' (Nat.not_le.2 h)
  · rw [e]; rfl

theorem pairValue_frame (e : TableEntry) (s : State) : VldOnly s (pairValue e s).state := by
  unfold pairValue; split
  · exact readEscape_frame _ s
  · exact .refl s

theorem place_frame (b : Nat) (p : Plane) (run : Nat) (v : Int) (s : State) :
    VldOnly s (place b p run v s).state := by
  unfold place
  dsimp only
  split
  · rfl
  · split
    · rfl
    · exact VldOnly.trans (b := { s with
          accnt := s.accnt + 1#7, pos := BitVec.ofNat 6 (s.pos.toNat + run) }) rfl (storeDeq_frame b _ v p _ _)

theorem oneCode_frame (b : Nat) (p : Plane) (s : State) : VldOnly s (oneCode b p s).state := by
  refine flowBind_vld (decodePair_frame s).vld fun e t => ?_
  split
  · rfl
  · exact flowBind_vld (pairValue_frame e t) fun v u =>
      flowBind_vld (place_frame b p e.run v u) fun _ w => .refl w

theorem codeLoop_frame (b : Nat) (p : Plane) (room : Nat) (s : State) :
    VldOnly s (codeLoop b p room s).state := by
  induction room generalizing s with
  | zero => exact flowBind_vld (oneCode_frame b p s) fun _ t => .refl t
  | succ room ih =>
    refine flowBind_vld (oneCode_frame b p s) fun ended t => ?_
    split
    · exact .refl t
    · exact ih t

theorem decodeBlock_frame (b : Nat) (s : State) : VldOnly s (decodeBlock b s).state := by
  refine VldOnly.trans (b := s.openBlock b) rfl ?_
  exact flowBind_vld (startBlock_frame b _ _) fun _ t => codeLoop_frame b _ 63 t

/-- The blocks of VLD.MB touch only what R153 lists. -/
theorem decodeBlocks_frame (bs : List Nat) (s : State) : VldOnly s (decodeBlocks bs s).state := by
  induction bs generalizing s with
  | nil => exact .refl s
  | cons b bs ih => exact flowBind_vld (decodeBlock_frame b s) fun _ t => ih t

/-! ### Placing a coefficient (R146) -/

/-- `Place`: AC_COUNT when the block is full, AC_POS when the run leaves it, else the coefficient is stored (or is
out of range) at the new position. -/
theorem place_cases (b : Nat) (p : Plane) (run : Nat) (v : Int) (s : State) :
    (63 < (s.accnt + 1#7).toNat ∧
      place b p run v s = .raised .corruptAcCount s.bitpos { s with accnt := s.accnt + 1#7 }) ∨
    ((s.accnt + 1#7).toNat ≤ 63 ∧ 63 < s.pos.toNat + run ∧
      place b p run v s = .raised .corruptAcPos s.bitpos { s with accnt := s.accnt + 1#7 }) ∨
    ((s.accnt + 1#7).toNat ≤ 63 ∧ s.pos.toNat + run ≤ 63 ∧
      place b p run v s =
        storeDeq b (s.cfg.zigzagAt (s.pos.toNat + run)) v p (s.pos.toNat + run)
          { s with accnt := s.accnt + 1#7, pos := BitVec.ofNat 6 (s.pos.toNat + run) }) := by
  unfold place
  by_cases h1 : 63 < (s.accnt + 1#7).toNat
  · exact .inl ⟨h1, by simp only [h1, if_true]⟩
  · by_cases h2 : 63 < s.pos.toNat + run
    · exact .inr (.inl ⟨by omega, h2, by simp only [h1, h2, if_true, if_false]⟩)
    · refine .inr (.inr ⟨by omega, by omega, ?_⟩)
      have h3 : (BitVec.ofNat 6 (s.pos.toNat + run)).toNat = s.pos.toNat + run := by
        simp only [BitVec.toNat_ofNat]; omega
      simp only [h1, h2, if_false, h3]

/-- With 63 coefficients in the block, a further one raises AC_COUNT: the loop's last round cannot place (R151). -/
theorem place_full (b : Nat) (p : Plane) (run : Nat) (v : Int) (s : State) (h : s.accnt.toNat = 63) :
    place b p run v s = .raised .corruptAcCount s.bitpos { s with accnt := s.accnt + 1#7 } := by
  rcases place_cases b p run v s with ⟨-, h'⟩ | ⟨h', -⟩ | ⟨h', -⟩
  · exact h'
  all_goals
    simp only [BitVec.toNat_add, BitVec.toNat_ofNat, h] at h'
    omega

end Sys2Proof.Machine
end

