-- ==== Sys2Proof/Laws/Step.lean ====
section
/-! SUPPORT. What a command and what a host move can do, said once: every command is `finish` of its pseudocode
(45_system.md R256), and each move has its equation (R257 to R262). -/

namespace Sys2Proof.Machine

/-! ### Commands -/

/-- The pseudocode of a command, without its completion or fault entry. -/
def commandFlow : Instr → State → Flow Unit
  | .nop, s => .ok () s
  | .cfgFrame w h, s => if frameTooLarge s w h then .raised .operandFrameSize (h ++ w) s else .ok () (s.setFrame w h)
  | .cfgAudio channels, s =>
    match channelsOf channels with
    | none   => .raised .operandChannels channels s
    | some c => .ok () { s with channels := c }
  | .brInit len base, s =>
    if s.ibufLen.toNat < base.toNat + len.toNat then .raised .eosSlice base s
    else .ok () (s.setSlice base len.toNat)
  | .brPeek n, s =>
    flowBind (needCount n s) fun _ s1 => flowBind (needSlice n s1) fun _ s2 =>
    flowBind (brPeek .eosBits n.toNat s2) fun v s3 => .ok () { s3 with result := BitVec.ofNat 32 v }
  | .brConsume n, s =>
    flowBind (needCount n s) fun _ s1 => flowBind (needSlice n s1) fun _ s2 => brConsume .eosBits n.toNat s2
  | .brRefill, s => flowBind (needSlice 0#32 s) fun _ s1 => .ok () (refill s1)
  | .vldHdr, s =>
    flowBind (needSlice 0#32 s) fun _ s1 =>
    if s1.hdrOk then .raised .sequenceHdrDone 0#32 s1
    else
      flowBind (brPeek vldShort 16 s1) fun q s2 =>
      if q ∈ s2.cfg.qdom then
        flowBind (brConsume vldShort 16 s2) fun _ s3 =>
        .ok () { s3 with qscale := BitVec.ofNat 16 q, hdrOk := true }
      else .raised .corruptQscale (BitVec.ofNat 32 q) s2
  | .vldMb, s =>
    flowBind (needSlice 0#32 s) fun _ s1 =>
    if s1.hdrOk then decodeBlocks [0, 1, 2, 3, 4, 5] s1.clearCoef else .raised .sequenceNoHdr 0#32 s1
  | .idctBlk b, s => if blkOutOfRange b then .raised .operandBlkRange b s else .ok () (s.transform b.toNat)
  | .idctMb, s => .ok () ([0, 1, 2, 3, 4, 5].foldl State.transform s)
  | .cscMb mbx mby, s => .ok () (s.cscMacroblock mbx.toNat mby.toNat)
  | .adpcmInit, s => .ok () s.zeroPredictors
  | .adpcmDec groups base, s =>
    if groupsZero groups then .raised .operandGroupsZero base s
    else if s.ibufLen.toNat < groupOffset base groups.toNat then .raised .eosAudio base s
    else decodeGroups groups.toNat (groupOffset base 0) s

/-- Every meaning ends its pseudocode in the same way. -/
theorem exec_eq_finish (i : Instr) (s : State) : exec i s = finish i.opcode (commandFlow i s) := by
  cases i <;> rfl

/-- A command ends in a completion or in a fault entry; nothing else. -/
theorem exec_cases (i : Instr) (s : State) :
    (∃ t, commandFlow i s = .ok () t ∧ exec i s = .next t.complete) ∨
    (∃ e info t, commandFlow i s = .raised e info t ∧ exec i s = .next (t.takeFault i.opcode e info)) := by
  rw [exec_eq_finish]
  rcases finish_cases i.opcode (commandFlow i s) with ⟨a, t, h, h'⟩ | ⟨e, info, t, h, h'⟩
  · exact .inl ⟨t, h, h'⟩
  · exact .inr ⟨e, info, t, h, h'⟩

/-- `exec` answers a next state, and it is the completion or the fault entry of the pseudocode's last state. -/
theorem exec_next {i : Instr} {s t : State} (h : exec i s = .next t) :
    (∃ u, commandFlow i s = .ok () u ∧ t = u.complete) ∨
    (∃ e info u, commandFlow i s = .raised e info u ∧ t = u.takeFault i.opcode e info) := by
  rcases exec_cases i s with ⟨u, hf, he⟩ | ⟨e, info, u, hf, he⟩
  · rw [he] at h; exact .inl ⟨u, hf, by injection h with h; exact h.symm⟩
  · rw [he] at h; exact .inr ⟨e, info, u, hf, by injection h with h; exact h.symm⟩

/-- BUSY and what the host has put in its list do not change what a command needs of the slice. -/
theorem usesSlice_congr {s t : State} (ha : t.brActive = s.brActive) (hh : t.hdrOk = s.hdrOk) (i : Instr) :
    usesSlice t i = usesSlice s i := by
  cases i <;> simp [usesSlice, ha, hh]

/-! ### Host moves -/

section
variable {s : State} {ms : List HostMove}

theorem step_nil (h : s.moves = []) : step s = .next s := by simp [step, runHost, h]

theorem step_cons {m : HostMove} (h : s.moves = m :: ms) : step s = hostMove m { s with moves := ms } := by
  simp [step, runHost, h]

/-- A dropped word. -/
theorem step_issue_dropped {w : CommandWord} (h : s.moves = .issue w :: ms) (ha : s.accepts = false) :
    step s = .next { s with moves := ms } := by
  rw [step_cons h]
  have : State.accepts { s with moves := ms } = false := ha
  simp [hostMove, issue, this]

/-- An accepted word that does not decode. -/
theorem step_issue_illegal {w : CommandWord} {c : IllegalCause} (h : s.moves = .issue w :: ms)
    (ha : s.accepts = true) (hd : decode w = .illegal c) :
    step s = .next (State.takeFault { s with moves := ms } (cwOp w) (excOfIllegal c) (cwB w)) := by
  rw [step_cons h]
  have : State.accepts { s with moves := ms } = true := ha
  simp [hostMove, issue, this, hd, settle, State.takeFault]

/-- An accepted word that decodes, when its command may use the slice or does not. -/
theorem step_issue_command {w : CommandWord} {i : Instr} (h : s.moves = .issue w :: ms) (ha : s.accepts = true)
    (hd : decode w = .command i) (hs : s.sliceRewritten = false ∨ usesSlice s i = false) :
    step s = settle (exec i { s with moves := ms, busy := true }) := by
  rw [step_cons h]
  have h1 : State.accepts { s with moves := ms } = true := ha
  have h2 : (s.sliceRewritten && usesSlice { s with moves := ms } i) = false := by
    rw [usesSlice_congr (t := { s with moves := ms }) (s := s) rfl rfl i]; rcases hs with h | h <;> simp [h]
  have h2' : ¬ ((s.sliceRewritten && usesSlice { s with moves := ms } i) = true) := by rw [h2]; simp
  simp only [hostMove, issue, h1, if_true, hd]
  exact if_neg h2'

/-- An accepted word whose command uses a slice that the host moved (R323). -/
theorem step_issue_rewritten {w : CommandWord} {i : Instr} (h : s.moves = .issue w :: ms) (ha : s.accepts = true)
    (hd : decode w = .command i) (hs : s.sliceRewritten = true) (hu : usesSlice s i = true) :
    step s = .refused .sliceRewritten := by
  rw [step_cons h]
  have h1 : State.accepts { s with moves := ms } = true := ha
  have h2 : (s.sliceRewritten && usesSlice { s with moves := ms } i) = true := by
    rw [usesSlice_congr (t := { s with moves := ms }) (s := s) rfl rfl i]; simp [hs, hu]
  simp only [hostMove, issue, h1, if_true, hd]
  exact if_pos h2

end

/-- What `settle` makes of a next state. -/
@[simp] theorem settle_next (s : State) : settle (.next s) = .next { s with busy := false } := rfl

/-- Every command answers a next state (R280: a fault is one). -/
theorem exec_total (i : Instr) (s : State) : ∃ t, exec i s = .next t := by
  rcases exec_cases i s with ⟨t, -, h⟩ | ⟨e, info, t, -, h⟩
  · exact ⟨_, h⟩
  · exact ⟨_, h⟩

/-! ### A property along a step -/

/-- A property that every kind of host move keeps is kept by a step. What is to show: for the host's list of moves, a
command, the fault of an illegal word, the two input moves, reset, the fault clear, the two replies, a drain. -/
theorem step_keeps {P : State → Prop} (hb : ∀ s ms, P s → P { s with moves := ms })
    (hc : ∀ s ms i t, P s → exec i { s with moves := ms, busy := true } = .next t → s.busy = false →
      s.errCode = 0#8 → P { t with busy := false })
    (hi : ∀ s ms op e info, P s → s.busy = false → P (State.takeFault { s with moves := ms } op e info))
    (hl : ∀ s o b, P s → s.busy = false → o < s.cfg.ibufSize → P (s.loadByte o b))
    (hd : ∀ s v, P s → s.busy = false → P (s.declareLength (cappedLength s v)))
    (hsr : ∀ s, P s → P s.softReset) (hcl : ∀ s, P s → P s.clearFault)
    (hr : ∀ s r, P s → P (s.reply r)) (hrf : ∀ s r, P s → P (s.replyFree r))
    (hdr : ∀ s k, P s → P { s with pcmout := s.pcmout.drop k })
    {s t : State} (h : P s) (ht : step s = .next t) : P t := by
  cases hm : s.moves with
  | nil => rw [step_nil hm] at ht; injection ht with ht; rw [← ht]; exact h
  | cons m ms =>
    have h' := hb s ms h
    cases m with
    | issue w =>
      by_cases ha : s.accepts = true
      · have hbz : s.busy = false ∧ s.errCode = 0#8 := by simpa [State.accepts, State.faulted] using ha
        cases hd : decode w with
        | illegal c =>
          rw [step_issue_illegal hm ha hd] at ht
          injection ht with ht; rw [← ht]; exact hi _ _ _ _ _ h hbz.1
        | command i =>
          by_cases hs : s.sliceRewritten = false ∨ usesSlice s i = false
          · obtain ⟨u, hu⟩ := exec_total i { s with moves := ms, busy := true }
            rw [step_issue_command hm ha hd hs, hu] at ht
            injection ht with ht; rw [← ht]; exact hc s ms i u h hu hbz.1 hbz.2
          · simp at hs
            rw [step_issue_rewritten hm ha hd hs.1 hs.2] at ht; simp at ht
      · rw [step_issue_dropped hm (by simpa using ha)] at ht; injection ht with ht; rw [← ht]; exact h'
    | writeIbuf o b =>
      rw [step_cons hm] at ht; simp only [hostMove, hostWriteIbuf] at ht
      split at ht
      · simp at ht
      · rename_i hbu
        split at ht
        · rename_i ho; injection ht with ht; rw [← ht]; exact hl _ _ _ h' (by simpa using hbu) ho
        · simp at ht
    | writeCr n v =>
      rw [step_cons hm] at ht; simp only [hostMove, hostWriteCr, hostDeclareLength] at ht
      split at ht
      · split at ht
        · simp at ht
        · rename_i hbu; injection ht with ht; rw [← ht]; exact hd _ _ h' (by simpa using hbu)
      · split at ht <;> injection ht with ht <;> rw [← ht]
        · unfold State.writeCtrl; split
          · exact hsr _ h'
          · split
            · exact hcl _ h'
            · exact h'
        · exact h'
    | readCr n =>
      rw [step_cons hm] at ht; simp only [hostMove, hostReadCr] at ht
      split at ht <;> injection ht with ht <;> rw [← ht]
      · exact hrf _ _ h'
      · exact hr _ _ h'
    | readPix o =>
      rw [step_cons hm] at ht; simp only [hostMove, hostReadPix] at ht
      split at ht
      · split at ht <;> injection ht with ht <;> rw [← ht]
        · exact hr _ _ h'
        · exact hrf _ _ h'
      · simp at ht
    | drainPcm k =>
      rw [step_cons hm] at ht; simp only [hostMove, hostDrainPcm] at ht
      split at ht
      · simp at ht
      · injection ht with ht; rw [← ht]; exact hr _ _ (hdr _ _ h')

end Sys2Proof.Machine
end

