-- ==== Sys2Proof/Laws/Accumulator.lean ====
section
/-! SUPPORT. The hidden accumulator (40_bitreader.md R126 to R128): each of its operations keeps what R127 says of it,
and `Ensure(n)` leaves n valid bits whenever the slice has them. -/

namespace Sys2Proof.Machine

/-- The BitReader's invariant looks at these fields only. -/
theorem State.BitReaderOk.congr {s t : State} (h : s.BitReaderOk) (h1 : t.bitpos = s.bitpos)
    (h2 : t.brNbits = s.brNbits) (h3 : t.brActive = s.brActive) (h4 : t.hdrOk = s.hdrOk) (h5 : t.nvalid = s.nvalid)
    (h6 : t.wptr = s.wptr) (h7 : t.acc = s.acc) (h8 : t.brBase = s.brBase) (h9 : t.ibuf = s.ibuf)
    (h10 : t.ibufEpoch = s.ibufEpoch) (h11 : t.sliceRewritten = s.sliceRewritten) : t.BitReaderOk where
  posInside := by rw [h1, h2]; exact h.posInside
  wholeWords := by rw [h2]; exact h.wholeWords
  bounded := by rw [h2]; exact h.bounded
  inactive := by rw [h3, h2, h4]; exact h.inactive
  validMax := by rw [h5]; exact h.validMax
  pulled := by rw [h1, h5, h6]; exact h.pulled
  pulledMax := by rw [h2, h6]; exact h.pulledMax
  accSmall := by rw [h7, h5]; exact h.accSmall
  accBits := by
    rw [h11, h5, h7, h1]
    intro hr t' ht
    rw [sliceBit_congr h8 h9 h10]
    exact h.accBits hr t' ht

/-! ### Pulling words -/

theorem sliceWords_le {s : State} (h : s.BitReaderOk) : 16 * sliceWords s = s.brNbits.toNat := by
  have := h.wholeWords; unfold sliceWords; omega

/-- The accumulator after one more word: the word below, the old bits above. -/
theorem pull_acc_getLsbD {s : State} (hs : s.acc.toNat < 2 ^ s.nvalid) (hv : s.nvalid ≤ 31) (i : Nat) :
    (pull s).acc.getLsbD i =
      if i < 16 then (sliceWord s s.wptr.toNat).getLsbD i else s.acc.getLsbD (i - 16) := by
  have hb : s.acc.toNat < 2 ^ 31 := lt_of_lt_of_le hs (Nat.pow_le_pow_right (by omega) hv)
  have hw := (sliceWord s s.wptr.toNat).isLt
  have e : (pull s).acc.toNat = 2 ^ 16 * s.acc.toNat + (sliceWord s s.wptr.toNat).toNat := by
    rw [pull_acc_toNat]; omega
  rw [BitVec.getLsbD, e, Nat.testBit_two_pow_mul_add _ hw]
  rfl

theorem pull_ok {s : State} (h : s.BitReaderOk) (hv : s.nvalid ≤ 31) (hw : s.wptr.toNat < sliceWords s) :
    (pull s).BitReaderOk := by
  have hn := sliceWords_le h
  have hp := h.pulled
  have hm := h.pulledMax
  have hbd := h.bounded
  have hb : s.acc.toNat < 2 ^ 31 := lt_of_lt_of_le h.accSmall (Nat.pow_le_pow_right (by omega) hv)
  have hsw := (sliceWord s s.wptr.toNat).isLt
  have hw1 : (pull s).wptr.toNat = s.wptr.toNat + 1 := by
    show (s.wptr + 1#32).toNat = _
    rw [BitVec.toNat_add]
    have : (1#32).toNat = 1 := rfl
    omega
  have hnv : (pull s).nvalid = s.nvalid + 16 := rfl
  constructor
  · exact h.posInside
  · exact h.wholeWords
  · exact h.bounded
  · exact h.inactive
  · rw [hnv]; omega
  · rw [hnv, hw1]; show s.bitpos.toNat + _ = _; omega
  · rw [hw1]; show _ ≤ s.brNbits.toNat; omega
  · rw [hnv, Nat.pow_add]
    rw [pull_acc_toNat]
    have := h.accSmall
    generalize 2 ^ s.nvalid = m at *
    omega
  · intro hr t ht
    rw [hnv] at ht ⊢
    rw [pull_acc_getLsbD h.accSmall hv]
    have hbit : sliceBit (pull s) ((pull s).bitpos.toNat + t) = sliceBit s (s.bitpos.toNat + t) := rfl
    rw [hbit]
    split
    · rename_i hi
      unfold sliceBit
      have e1 : (s.bitpos.toNat + t) / 16 = s.wptr.toNat := by omega
      have e2 : 15 - (s.bitpos.toNat + t) % 16 = s.nvalid + 16 - 1 - t := by omega
      rw [e1, e2]
    · rename_i hi
      have e1 : s.nvalid + 16 - 1 - t - 16 = s.nvalid - 1 - t := by omega
      rw [e1]
      exact h.accBits hr t (by omega)

theorem pullIfWords_ok {s : State} (h : s.BitReaderOk) (hv : s.nvalid ≤ 31) : (pullIfWords s).BitReaderOk := by
  unfold pullIfWords; split
  · exact pull_ok h hv ‹_›
  · exact h

theorem pullIfWords_nvalid (s : State) : (pullIfWords s).nvalid ≤ s.nvalid + 16 := by
  unfold pullIfWords; split
  · exact le_refl _
  · omega

/-- `Refill()` keeps the accumulator's invariant. -/
theorem refill_ok {s : State} (h : s.BitReaderOk) : (refill s).BitReaderOk := by
  unfold refill; split
  · have := pullIfWords_nvalid s
    exact pullIfWords_ok (pullIfWords_ok h (by omega)) (by omega)
  · exact h

theorem pullUntil_ok {n : Nat} (hn : n ≤ 32) (fuel : Nat) {s : State} (h : s.BitReaderOk) :
    (pullUntil n fuel s).BitReaderOk := by
  induction fuel generalizing s with
  | zero => exact h
  | succ fuel ih =>
    unfold pullUntil; split
    · rename_i hc; exact ih (pull_ok h (by omega) hc.2)
    · exact h

/-- The loop ends with n valid bits, or with no word left to pull. -/
theorem pullUntil_done (n fuel : Nat) (s : State) (hf : n ≤ s.nvalid + fuel) :
    n ≤ (pullUntil n fuel s).nvalid ∨ sliceWords (pullUntil n fuel s) ≤ (pullUntil n fuel s).wptr.toNat := by
  induction fuel generalizing s with
  | zero => exact .inl (by simpa [pullUntil] using hf)
  | succ fuel ih =>
    unfold pullUntil; split
    · exact ih (pull s) (by show n ≤ s.nvalid + 16 + fuel; omega)
    · rename_i hc
      by_cases hv : s.nvalid < n
      · exact .inr (by by_contra hw; exact hc ⟨hv, by omega⟩)
      · exact .inl (by omega)

/-- `Ensure(n)` keeps the accumulator's invariant. -/
theorem ensure_ok {n : Nat} (hn : n ≤ 32) {s : State} (h : s.BitReaderOk) : (ensure n s).BitReaderOk :=
  pullUntil_ok hn n (refill_ok h)

/-- After `Ensure(n)` the accumulator holds n bits exactly when the slice has n more. -/
theorem ensure_enough {n : Nat} (hn : n ≤ 32) {s : State} (h : s.BitReaderOk) :
    n ≤ (ensure n s).nvalid ↔ s.bitpos.toNat + n ≤ s.brNbits.toNat := by
  have ho := ensure_ok hn h
  have hp := ho.pulled
  have hm := ho.pulledMax
  have hw := sliceWords_le ho
  rw [ensure_bitpos] at hp
  rw [ensure_brNbits] at hm hw
  constructor
  · intro _; omega
  · intro hb
    rcases pullUntil_done n n (refill s) (by omega) with h' | h'
    · exact h'
    · change sliceWords (ensure n s) ≤ (ensure n s).wptr.toNat at h'
      omega

/-- Consuming bits the accumulator holds keeps its invariant. -/
theorem advance_ok {s : State} (h : s.BitReaderOk) {n : Nat} (hn : n ≤ s.nvalid) : (s.advance n).BitReaderOk := by
  have hp := h.pulled
  have hm := h.pulledMax
  have hb : (s.advance n).bitpos.toNat = s.bitpos.toNat + n := advance_bitpos_toNat (s := s) (by omega)
  have hnv : (s.advance n).nvalid = s.nvalid - n := rfl
  have hv := h.validMax
  have hpow : 2 ^ (s.nvalid - n) ≤ 2 ^ 47 := Nat.pow_le_pow_right (by omega) (by omega)
  have hacc : (s.advance n).acc.toNat = s.acc.toNat % 2 ^ (s.nvalid - n) := by
    show (s.acc &&& BitVec.ofNat 48 (2 ^ (s.nvalid - n) - 1)).toNat = _
    rw [BitVec.toNat_and, BitVec.toNat_ofNat, Nat.mod_eq_of_lt (by omega), Nat.and_two_pow_sub_one_eq_mod]
  constructor
  · rw [hb]; show _ ≤ s.brNbits.toNat; omega
  · exact h.wholeWords
  · exact h.bounded
  · exact h.inactive
  · rw [hnv]; omega
  · rw [hb, hnv]; show _ = 16 * s.wptr.toNat; omega
  · exact h.pulledMax
  · rw [hacc, hnv]; exact Nat.mod_lt _ (Nat.two_pow_pos _)
  · intro hr t ht
    rw [hnv] at ht ⊢
    have hbit : sliceBit (s.advance n) ((s.advance n).bitpos.toNat + t) = sliceBit s (s.bitpos.toNat + (n + t)) := by
      rw [hb, Nat.add_assoc]; rfl
    rw [hbit, BitVec.getLsbD, hacc, Nat.testBit_mod_two_pow]
    have e : s.nvalid - n - 1 - t = s.nvalid - 1 - (n + t) := by omega
    have hl : s.nvalid - n - 1 - t < s.nvalid - n := by omega
    rw [decide_eq_true hl, Bool.true_and, e]
    exact h.accBits hr (n + t) (by omega)

/-! ### The primitives -/

theorem brPeek_ok {n : Nat} (hn : n ≤ 32) (short : Exc) {s : State} (h : s.BitReaderOk) :
    (brPeek short n s).state.BitReaderOk := by
  rcases brPeek_cases short n s with ⟨-, e⟩ | ⟨-, e⟩ <;> rw [e] <;> exact ensure_ok hn h

theorem brConsume_ok {n : Nat} (hn : n ≤ 32) (short : Exc) {s : State} (h : s.BitReaderOk) :
    (brConsume short n s).state.BitReaderOk := by
  rcases brConsume_cases short n s with ⟨hb, e⟩ | ⟨-, e⟩ <;> rw [e]
  · exact advance_ok (ensure_ok hn h) ((ensure_enough hn h).2 hb)
  · exact ensure_ok hn h

/-- A property of the state that both parts of a sequence keep is kept by the sequence. -/
theorem flowBind_keeps {α β : Type} {P : State → Prop} {f : Flow α} {k : α → State → Flow β} (hf : P f.state)
    (hk : ∀ a t, f = .ok a t → P t → P (k a t).state) : P (flowBind f k).state := by
  cases f with
  | ok a t => exact hk a t rfl hf
  | raised e i t => exact hf

theorem brRead_ok {n : Nat} (hn : n ≤ 32) (short : Exc) {s : State} (h : s.BitReaderOk) :
    (brRead short n s).state.BitReaderOk :=
  flowBind_keeps (brPeek_ok hn short h) fun _ _ _ ht =>
    flowBind_keeps (brConsume_ok hn short ht) fun _ _ _ hu => hu

end Sys2Proof.Machine
end

