-- ==== Sys2Proof/Laws/Stream.lean ====
section
/-! SUPPORT. The entropy decoder reading what a writer of the bitstream wrote (30_encoding.md R98 to R104): one code,
one raw number, one pair, a run of pairs. -/

namespace Sys2Proof.Machine

/-! ### Bits of a key -/

@[simp] theorem keyBits_length (w l k : Nat) : (keyBits w l k).length = l := by simp [keyBits]

theorem keyBits_get {w l k j : Nat} (h : j < l) : (keyBits w l k)[j]?.getD false = k.testBit (w - 1 - j) := by
  simp [keyBits, h]

/-- The two numbers have the same bits from `d` up. -/
theorem div_two_pow_eq {a b d : Nat} (h : ∀ j, d ≤ j → a.testBit j = b.testBit j) : a / 2 ^ d = b / 2 ^ d := by
  apply Nat.eq_of_testBit_eq
  intro j
  rw [Nat.testBit_div_two_pow, Nat.testBit_div_two_pow]
  exact h (j + d) (by omega)

/-! ### The stream after its first part -/

/-- `t` reads the same slice as `s`. -/
structure SameSlice (s t : State) : Prop where
  base  : t.brBase = s.brBase
  ibuf  : t.ibuf = s.ibuf
  epoch : t.ibufEpoch = s.ibufEpoch
  nbits : t.brNbits = s.brNbits

theorem SameSlice.bit {s t : State} (h : SameSlice s t) (i : Nat) : sliceBit t i = sliceBit s i :=
  sliceBit_congr h.base h.ibuf h.epoch i

theorem VldOnly.sameSlice {s t : State} (h : VldOnly s t) : SameSlice s t := by
  unfold VldOnly at h
  constructor <;> rw [h]

theorem streamBegins_left {s : State} {l m : List Bool} (h : streamBegins s (l ++ m)) : streamBegins s l := by
  obtain ⟨h1, h2⟩ := h
  rw [List.length_append] at h1
  refine ⟨by omega, fun j hj => ?_⟩
  rw [h2 j (by rw [List.length_append]; omega), List.getElem?_append_left hj]

theorem streamBegins_right {s t : State} {l m : List Bool} (h : streamBegins s (l ++ m)) (hs : SameSlice s t)
    (hb : t.bitpos.toNat = s.bitpos.toNat + l.length) : streamBegins t m := by
  obtain ⟨h1, h2⟩ := h
  rw [List.length_append] at h1
  refine ⟨by rw [hs.nbits, hb]; omega, fun j hj => ?_⟩
  have := h2 (l.length + j) (by rw [List.length_append]; omega)
  rw [List.getElem?_append_right (by omega)] at this
  rw [hs.bit, hb, Nat.add_assoc, this]
  congr 2
  omega

/-! ### Reading a number and a code -/

/-- The number the next bits spell. -/
theorem bitsValue_of_stream {s : State} {n k : Nat} (hk : k < 2 ^ n) (h : streamBegins s (keyBits n n k)) :
    bitsValue (sliceBit s) s.bitpos.toNat n = k := by
  apply Nat.eq_of_testBit_eq
  intro j
  rw [bitsValue_testBit]
  by_cases hj : j < n
  · have := h.2 (n - 1 - j) (by simp; omega)
    rw [keyBits_get (by omega)] at this
    rw [this]
    simp only [hj, decide_true, Bool.true_and]
    congr 1
    omega
  · rw [Nat.testBit_lt_two_pow (lt_of_lt_of_le hk (Nat.pow_le_pow_right (by omega) (by omega)))]
    simp [hj]

/-- What the padded look-ahead shows of a code that is there: the code's bits at the top of the key. -/
theorem peekPad_top {s : State} {w l k : Nat} (hl : l ≤ w) (hk : k < 2 ^ w) (h : streamBegins s (keyBits w l k)) :
    peekPadValue w s / 2 ^ (w - l) = k / 2 ^ (w - l) := by
  apply div_two_pow_eq
  intro j hj
  unfold peekPadValue
  rw [bitsValue_testBit]
  by_cases hjw : j < w
  · have hb := h.1
    rw [keyBits_length] at hb
    have := h.2 (w - 1 - j) (by simp; omega)
    rw [keyBits_get (by omega)] at this
    unfold padBit
    rw [if_pos (by omega), this]
    simp only [hjw, decide_true, Bool.true_and]
    congr 1
    omega
  · rw [Nat.testBit_lt_two_pow (lt_of_lt_of_le hk (Nat.pow_le_pow_right (by omega) (by omega)))]
    simp [hjw]

/-- The sharing condition of a table (R7): a key whose top bits are those of a code holds the code's entry. -/
def Shares (w : Nat) (entry : Nat → TableEntry) : Prop :=
  ∀ k k', k < 2 ^ w → k' < 2 ^ w → (entry k).kind ≠ .invalid →
    k' / 2 ^ (w - (entry k).len) = k / 2 ^ (w - (entry k).len) → entry k' = entry k

theorem shares_of_table {table : List TableEntry} {w : Nat} (h : tableShares table w = true) :
    Shares w fun k => table[k]?.getD TableEntry.none := by
  intro k k' hk hk' hkind hdiv
  have h1 := List.all_eq_true.1 h k (List.mem_range.2 hk)
  dsimp only at hkind hdiv ⊢
  unfold sharesFrom at h1
  cases e : table[k]? with
  | none => simp [e, TableEntry.none] at hkind
  | some x =>
    simp only [e, Option.getD_some] at h1 hkind hdiv ⊢
    rw [Bool.or_eq_true] at h1
    rcases h1 with h1 | h1
    · exact absurd (by simpa using h1) hkind
    · have h2 := List.all_eq_true.1 h1 (k' % 2 ^ (w - x.len))
        (List.mem_range.2 (Nat.mod_lt _ (Nat.two_pow_pos _)))
      rw [← hdiv, Nat.div_add_mod'] at h2
      have h3 : table[k']? = some x := by simpa using h2
      rw [h3]; rfl

/-- A consume of bits the slice still has. -/
theorem brConsume_fits {s : State} {n : Nat} (short : Exc) (h : s.bitpos.toNat + n ≤ s.brNbits.toNat) :
    ∃ t, brConsume short n s = .ok () t ∧ CursorOnly s t ∧ t.bitpos.toNat = s.bitpos.toNat + n := by
  rcases brConsume_cases short n s with ⟨-, e⟩ | ⟨h', -⟩
  · refine ⟨_, e, (ensure_hidden n s).cursor.trans (advance_cursor _ n), ?_⟩
    have := advance_bitpos_toNat (s := ensure n s) (n := n) (by simpa using h)
    simpa using this
  · omega

/-- Reading a number that is there. -/
theorem brRead_stream {s : State} {n k : Nat} (short : Exc) (hk : k < 2 ^ n) (h : streamBegins s (keyBits n n k)) :
    ∃ t, brRead short n s = .ok k t ∧ CursorOnly s t ∧ t.bitpos.toNat = s.bitpos.toNat + n := by
  have hb := h.1
  rw [keyBits_length] at hb
  rcases brRead_cases short n s with ⟨-, e⟩ | ⟨h', -⟩
  · rw [bitsValue_of_stream hk h] at e
    refine ⟨_, e, ((ensure_hidden n s).cursor.trans (ensure_hidden n _).cursor).trans (advance_cursor _ n), ?_⟩
    have := advance_bitpos_toNat (s := ensure n (ensure n s)) (n := n) (by simpa using hb)
    simpa using this
  · omega

/-- Looking a code up that is there: its entry, and the cursor after its bits. -/
theorem lookupCode_stream {s : State} {w k : Nat} {entry : Nat → TableEntry} (hsh : Shares w entry)
    (hk : k < 2 ^ w) (hkind : (entry k).kind ≠ .invalid) (hl : (entry k).len ≤ w)
    (h : streamBegins s (keyBits w (entry k).len k)) :
    ∃ t, lookupCode w entry s = .ok (entry k) t ∧ CursorOnly s t ∧
      t.bitpos.toNat = s.bitpos.toNat + (entry k).len := by
  have he : entry (peekPadValue w s) = entry k :=
    hsh k _ hk (bitsValue_lt _ _ _) hkind (peekPad_top hl hk h)
  have hb := h.1
  rw [keyBits_length] at hb
  obtain ⟨t, ht, hc, hp⟩ := brConsume_fits (s := ensure w s) (n := (entry k).len) vldShort (by simpa using hb)
  refine ⟨t, ?_, (ensure_hidden w s).cursor.trans hc, by simpa using hp⟩
  unfold lookupCode
  rw [he]
  cases hx : (entry k).kind with
  | invalid => exact absurd hx hkind
  | pair => simp [ht]
  | escapePrefix => simp [ht]

/-! ### What a well-formed configuration gives -/

section
variable {c : Config} (hc : c.wellFormed = true)
include hc

theorem wellFormed_parts : c.tableAOk = true ∧ c.tableBOk = true ∧ c.zigzagOk = true ∧ c.wB ≤ 16 ∧ c.dcBits ≤ 16 ∧
    c.rawBits ≤ 16 := by
  simp only [Config.wellFormed, Bool.and_eq_true] at hc
  obtain ⟨⟨⟨⟨⟨⟨⟨⟨hA, hB⟩, -⟩, hR⟩, hD⟩, -⟩, hZ⟩, -⟩, -⟩ := hc
  refine ⟨hA, hB, hZ, ?_, ?_, ?_⟩
  · simp [Config.tableBOk] at hB; omega
  · simp [Config.dcBitsOk] at hD; omega
  · simp [Config.rawBitsOk] at hR; omega

theorem shares_entryA : Shares 8 c.entryA := by
  have h := (wellFormed_parts hc).1
  simp only [Config.tableAOk, Bool.and_eq_true] at h
  exact shares_of_table h.2

theorem shares_entryB : Shares c.wB c.entryB := by
  have h := (wellFormed_parts hc).2.1
  simp only [Config.tableBOk, Bool.and_eq_true] at h
  exact shares_of_table h.2

theorem entryA_len {k : Nat} (hk : (c.entryA k).kind ≠ .invalid) : (c.entryA k).len ≤ 8 := by
  have h := (wellFormed_parts hc).1
  simp only [Config.tableAOk, Bool.and_eq_true] at h
  have h2 := List.all_eq_true.1 h.1.2
  unfold Config.entryA at *
  cases e : c.tableA[k]? with
  | none => simp [e, TableEntry.none] at hk
  | some x =>
    have := h2 x (List.mem_of_getElem? e)
    simp [e, TableEntry.okA] at hk this ⊢
    simp [hk] at this; omega

theorem entryB_len {k : Nat} (hk : (c.entryB k).kind ≠ .invalid) : (c.entryB k).len ≤ c.wB := by
  have h := (wellFormed_parts hc).2.1
  simp only [Config.tableBOk, Bool.and_eq_true] at h
  have h2 := List.all_eq_true.1 h.1.2
  unfold Config.entryB at *
  cases e : c.tableB[k]? with
  | none => simp [e, TableEntry.none] at hk
  | some x =>
    have := h2 x (List.mem_of_getElem? e)
    simp [e, TableEntry.okB] at hk this ⊢
    simp [hk] at this; omega

/-- ZIGZAG is a permutation of 0..63 with ZIGZAG[0] = 0 (R7). -/
theorem zigzag_perm : List.Perm (List.range 64) c.zigzag := by
  have h := (wellFormed_parts hc).2.2.1
  simp only [Config.zigzagOk, Bool.and_eq_true, beq_iff_eq] at h
  have hsub : List.range 64 ⊆ c.zigzag := fun i hi => by
    have := List.all_eq_true.1 h.2 i hi
    simpa using this
  exact (List.subperm_of_subset List.nodup_range hsub).perm_of_length_le (by simp [h.1.1])

theorem zigzag_length : c.zigzag.length = 64 := by rw [← (zigzag_perm hc).length_eq]; simp

theorem zigzagAt_lt {k : Nat} (hk : k < 64) : c.zigzagAt k < 64 := by
  have hl := zigzag_length hc
  have hm : c.zigzagAt k ∈ c.zigzag := by
    unfold Config.zigzagAt
    rw [List.getElem?_eq_getElem (by omega)]
    exact List.getElem_mem _
  simpa using (zigzag_perm hc).mem_iff.2 hm

theorem zigzagAt_zero : c.zigzagAt 0 = 0 := by
  have h := (wellFormed_parts hc).2.2.1
  simp only [Config.zigzagOk, Bool.and_eq_true, beq_iff_eq] at h
  have := h.1.2
  unfold Config.zigzagAt
  rw [← List.head?_eq_getElem?, this]; rfl

theorem zigzagAt_inj {j k : Nat} (hj : j < 64) (hk : k < 64) (h : c.zigzagAt j = c.zigzagAt k) : j = k := by
  have hl := zigzag_length hc
  have hn : c.zigzag.Nodup := (zigzag_perm hc).nodup_iff.1 List.nodup_range
  unfold Config.zigzagAt at h
  rw [List.getElem?_eq_getElem (by omega), List.getElem?_eq_getElem (by omega)] at h
  exact (List.Nodup.getElem_inj_iff hn).1 (by simpa using h)

end

/-! ### One code, one value, one pair -/

/-- A legal code decodes to its entry (R101, R102, R104). -/
theorem decodePair_stream {s : State} {p : CodedPair} (hc : s.cfg.wellFormed = true) (hp : codeLegal s.cfg p = true)
    (h : streamBegins s (codeBits s.cfg p)) :
    ∃ t, decodePair s = .ok (codeEntry s.cfg p) t ∧ CursorOnly s t ∧
      t.bitpos.toNat = s.bitpos.toNat + (codeBits s.cfg p).length := by
  simp only [codeLegal, Bool.and_eq_true, decide_eq_true_eq, bne_iff_ne, ne_eq, beq_iff_eq] at hp
  obtain ⟨⟨⟨hkA, hA⟩, hkB⟩, hpair⟩ := hp
  unfold codeBits at h
  obtain ⟨t, ht, hct, hbt⟩ := lookupCode_stream (shares_entryA hc) hkA hA (entryA_len hc hA) (streamBegins_left h)
  unfold decodePair
  rw [ht, flowBind_ok]
  cases hpre : hasPrefix s.cfg p with
  | false =>
    have hk : (s.cfg.entryA p.keyA).kind = .pair := by simpa [codeEntry, hpre] using hpair
    refine ⟨t, by simp [hk, codeEntry, hpre], hct, by simp [codeBits, hpre, hbt]⟩
  | true =>
    have hk : (s.cfg.entryA p.keyA).kind = .escapePrefix := by simpa [hasPrefix] using hpre
    have hcfg : t.cfg = s.cfg := by rw [hct]
    have hB : (s.cfg.entryB p.keyB).kind = .pair := by simpa [codeEntry, hpre] using hpair
    have hB' : (s.cfg.entryB p.keyB).kind ≠ .invalid := by rw [hB]; simp
    have hkB' : p.keyB < 2 ^ s.cfg.wB := by simpa [hpre] using hkB
    have h2 : streamBegins t (keyBits s.cfg.wB (s.cfg.entryB p.keyB).len p.keyB) := by
      have := streamBegins_right h hct.vld.sameSlice (by rw [hbt, keyBits_length])
      simpa [hpre] using this
    obtain ⟨u, hu, hcu, hbu⟩ := lookupCode_stream (shares_entryB hc) hkB' hB' (entryB_len hc hB') h2
    refine ⟨u, ?_, hct.trans hcu, ?_⟩
    · simp only [hk, hcfg, hu, codeEntry, hpre, if_true]
    · rw [hbu, hbt]; simp [codeBits, hpre]; omega

/-- `t` is `s` but for BITPOS, the hidden accumulator and ESCRUN. -/
def EscapeOnly (s t : State) : Prop :=
  t = { s with bitpos := t.bitpos, acc := t.acc, nvalid := t.nvalid, wptr := t.wptr, escrun := t.escrun }

theorem CursorOnly.escape {s t : State} (h : CursorOnly s t) : EscapeOnly s t := by
  unfold CursorOnly at h; unfold EscapeOnly; rw [h]

theorem EscapeOnly.trans {a b c : State} (h : EscapeOnly a b) (k : EscapeOnly b c) : EscapeOnly a c := by
  unfold EscapeOnly at *; rw [k, h]

theorem EscapeOnly.vld {s t : State} (h : EscapeOnly s t) : VldOnly s t := by
  unfold EscapeOnly at h; unfold VldOnly; rw [h]

/-- A pair's code and, behind the sentinel, its raw number (R103, R147). -/
theorem pairValue_stream {s : State} {p : CodedPair} (hv : s.vstate = .readRunValue) (hraw : p.raw < 2 ^ s.cfg.rawBits)
    (h : streamBegins s (if hasRaw s.cfg p then keyBits s.cfg.rawBits s.cfg.rawBits p.raw else [])) :
    ∃ t, pairValue (codeEntry s.cfg p) s = .ok (pairNumber s.cfg p) t ∧ EscapeOnly s t ∧
      t.escrun = (if hasRaw s.cfg p then BitVec.ofNat 6 (codeEntry s.cfg p).run else s.escrun) ∧
      t.bitpos.toNat = s.bitpos.toNat +
        (if hasRaw s.cfg p then keyBits s.cfg.rawBits s.cfg.rawBits p.raw else []).length := by
  unfold pairValue
  cases hr : hasRaw s.cfg p with
  | false =>
    have : (codeEntry s.cfg p).value ≠ s.cfg.escSentinel := by simpa [hasRaw] using hr
    refine ⟨s, by simp [this, pairNumber, hr], rfl, by simp, by simp⟩
  | true =>
    have hval : (codeEntry s.cfg p).value = s.cfg.escSentinel := by simpa [hasRaw] using hr
    simp only [hr, if_true] at h
    obtain ⟨t, ht, hct, hbt⟩ := brRead_stream (s := { s with
      vstate := .readEscape, escrun := BitVec.ofNat 6 (codeEntry s.cfg p).run }) vldShort hraw h
    refine ⟨{ t with vstate := .readRunValue }, ?_, ?_, ?_, ?_⟩
    · simp only [hval, if_true, readEscape]
      rw [ht, flowBind_ok]
      have : t.cfg = s.cfg := by rw [hct]
      simp [pairNumber, hr, this]
    · unfold CursorOnly at hct; unfold EscapeOnly; rw [hct]; simp only; rw [← hv]
    · unfold CursorOnly at hct; simp only [if_true]; rw [hct]
    · simpa using hbt

/-- The code and value of a legal pair, read: what is left is to place it. -/
theorem oneCode_read {s : State} {b : Nat} {pl : Plane} {p : CodedPair} (hc : s.cfg.wellFormed = true)
    (hv : s.vstate = .readRunValue) (hp : pairLegal s.cfg p = true) (h : streamBegins s (pairBits s.cfg p)) :
    ∃ t, EscapeOnly s t ∧ t.bitpos.toNat = s.bitpos.toNat + (pairBits s.cfg p).length ∧
      t.escrun = (if hasRaw s.cfg p then BitVec.ofNat 6 (codeEntry s.cfg p).run else s.escrun) ∧
      oneCode b pl s =
        flowBind (place b pl (codeEntry s.cfg p).run (pairNumber s.cfg p) t) fun _ u => .ok false u := by
  simp only [pairLegal, Bool.and_eq_true, bne_iff_ne, ne_eq, decide_eq_true_eq] at hp
  obtain ⟨⟨hcode, hrun⟩, hraw⟩ := hp
  unfold pairBits at h
  obtain ⟨t, ht, hct, hbt⟩ := decodePair_stream hc hcode (streamBegins_left h)
  have hcfg : t.cfg = s.cfg := by rw [hct]
  have h2 := streamBegins_right h hct.vld.sameSlice hbt
  rw [← hcfg] at h2 hraw
  obtain ⟨u, hu, hcu, heu, hbu⟩ := pairValue_stream (p := p) (by rw [hct]; exact hv) hraw h2
  refine ⟨u, hct.escape.trans hcu, ?_, ?_, ?_⟩
  · rw [hbu, hbt, hcfg]; simp [pairBits]; omega
  · rw [heu, hcfg]; unfold CursorOnly at hct; rw [hct]
  · unfold oneCode
    rw [ht, flowBind_ok]
    simp only [hrun, if_false]
    rw [hcfg] at hu
    rw [hu, flowBind_ok]

/-- The end-of-block code. -/
theorem oneCode_end {s : State} {b : Nat} {pl : Plane} {p : CodedPair} (hc : s.cfg.wellFormed = true)
    (hp : codeLegal s.cfg p = true) (hr : (codeEntry s.cfg p).run = 0) (h : streamBegins s (codeBits s.cfg p)) :
    ∃ t, CursorOnly s t ∧ t.bitpos.toNat = s.bitpos.toNat + (codeBits s.cfg p).length ∧
      oneCode b pl s = .ok true { t with vstate := .endOfBlock } := by
  obtain ⟨t, ht, hct, hbt⟩ := decodePair_stream hc hp h
  refine ⟨t, hct, hbt, ?_⟩
  unfold oneCode
  rw [ht, flowBind_ok]
  simp [hr]

/-! ### The coefficients of a block -/

/-- The coefficient at index `i` of a list of placed numbers. -/
def coefOf (c : Config) (q : Nat) (pl : Plane) (l : List (Nat × Int)) (i : Nat) : Int :=
  match l.find? fun kv => c.zigzagAt kv.1 == i with
  | some kv => kv.2 * c.qstep q pl kv.1
  | none    => 0

theorem blockCoef_eq (c : Config) (q : Nat) (pl : Plane) (b : CodedBlock) (i : Nat) :
    blockCoef c q pl b i = coefOf c q pl (blockPlaced c b) i := rfl

@[simp] theorem coefOf_nil (c : Config) (q : Nat) (pl : Plane) (i : Nat) : coefOf c q pl [] i = 0 := rfl

/-- One more number at a position the list does not hold. -/
theorem coefOf_snoc {c : Config} (hc : c.wellFormed = true) (q : Nat) (pl : Plane) {l : List (Nat × Int)} {k : Nat}
    {v : Int} (hk : k < 64) (hl : ∀ kv ∈ l, kv.1 < k) (i : Nat) :
    coefOf c q pl (l ++ [(k, v)]) i =
      if i = c.zigzagAt k then v * c.qstep q pl k else coefOf c q pl l i := by
  unfold coefOf
  rw [List.find?_append]
  by_cases hi : i = c.zigzagAt k
  · have hnone : l.find? (fun kv => c.zigzagAt kv.1 == i) = none := by
      rw [List.find?_eq_none]
      intro kv hkv
      have := hl kv hkv
      simp only [beq_iff_eq]
      intro h
      have := zigzagAt_inj hc (by omega) hk (h.trans hi)
      omega
    rw [hnone]
    simp [hi]
  · have hne : (c.zigzagAt k == i) = false := by simp; exact fun h => hi h.symm
    simp [hi, hne]

/-- A coefficient that fits 16 bits is stored as it is. -/
theorem toInt_ofInt_of_fits {v : Int} (h1 : -32768 ≤ v) (h2 : v ≤ 32767) : (BitVec.ofInt 32 v).toInt = v := by
  rw [BitVec.toInt_ofInt]
  rw [Int.bmod_def]
  simp only [Nat.reducePow]
  omega

end Sys2Proof.Machine
end

