-- ==== Sys2Proof/Laws/Blocks.lean ====
section
/-! SUPPORT. A stretch of the video stream and the blocks it decodes to (41_vld.md R142 to R150): where a block
stands after some of its pairs, and that pairs, blocks and lists of blocks carry that on. -/

namespace Sys2Proof.Machine

/-- Where VLD.MB stands inside block `b`, in state ReadRunValue, having placed `n` pairs, the last one at scan
position `pos` and the last raw code behind the run `e`: the block holds the numbers `l`, every other block what `C`
says. `s0` is the state the command began in. -/
structure InBlock (s0 s : State) (b : Nat) (pl : Plane) (l : List (Nat × Int)) (n pos e : Nat)
    (C : Nat → Nat → Int) : Prop where
  only : VldOnly s0 s
  vst : s.vstate = .readRunValue
  blk : s.blk.toNat = b
  posE : s.pos.toNat = pos
  accE : s.accnt.toNat = n
  escE : s.escrun.toNat = e
  npos : n ≤ pos
  posl : pos ≤ 63
  le : ∀ kv ∈ l, kv.1 ≤ pos
  cb : ∀ i < 64, s.coefAt b i = coefOf s0.cfg s0.qscale.toNat pl l i
  co : ∀ k ≠ b, ∀ i, s.coefAt k i = C k i

variable {s0 : State}

theorem VldOnly.config {s t : State} (h : VldOnly s t) : t.cfg = s.cfg ∧ t.qscale = s.qscale := by
  unfold VldOnly at h; constructor <;> rw [h]

theorem fitsCoef_iff {c q pl kv} : fitsCoef c q pl kv = true ↔ -32768 ≤ kv.2 * c.qstep q pl kv.1 ∧ kv.2 * c.qstep q pl
    kv.1 ≤ 32767 := by
  simp [fitsCoef]

theorem EscapeOnly.fields {s t : State} (h : EscapeOnly s t) : t.vstate = s.vstate ∧ t.blk = s.blk ∧ t.pos = s.pos ∧
    t.accnt = s.accnt ∧ t.coef = s.coef := by
  unfold EscapeOnly at h; refine ⟨?_, ?_, ?_, ?_, ?_⟩ <;> rw [h]

theorem State.coefAt_congr {s t : State} (h : t.coef = s.coef) (b i) : t.coefAt b i = s.coefAt b i := by
  unfold State.coefAt State.coefBlock; rw [h]

/-- A legal pair is placed (R146, R150). -/
theorem place_pair (hc : s0.cfg.wellFormed = true) {s b pl l n pos e C} (hb : b < 6) (h : InBlock s0 s b pl l n pos e C)
    {run : Nat} {v : Int}
   (hrun : run ≠ 0) (hp : pos + run ≤ 63) (hf : fitsCoef s0.cfg s0.qscale.toNat pl (pos + run, v) = true) :
   ∃ t, place b pl run v s = .ok () t ∧ InBlock s0 t b pl (l ++ [(pos+run, v)]) (n+1) (pos+run) e C ∧ t.bitpos =
       s.bitpos := by
  have hcq := VldOnly.config h.only
  have hacc := h.accE; have hpos := h.posE; have hnp := h.npos
  have ha : (s.accnt + 1#7).toNat = n + 1 := by
    rw [BitVec.toNat_add]; have : (1#7).toNat = 1 := rfl
    omega
  rcases place_cases b pl run v s with ⟨h1, -⟩ | ⟨-, h1, -⟩ | ⟨-, -, e⟩
  · omega
  · omega
  · rw [e, hpos]
    have hd : deq { s with accnt := s.accnt + 1#7, pos := BitVec.ofNat 6 (pos + run) } v pl (pos+run) = v *
        s0.cfg.qstep s0.qscale.toNat pl (pos+run) := by
      show v * s.cfg.qstep s.qscale.toNat pl (pos+run) = _
      rw [hcq.1, hcq.2]
    obtain ⟨f1, f2⟩ := fitsCoef_iff.1 hf
    have hz := zigzagAt_lt hc (k := pos+run) (by omega)
    rcases storeDeq_cases b (s.cfg.zigzagAt (pos + run)) v pl (pos+run)
        { s with accnt := s.accnt + 1#7, pos := BitVec.ofNat 6 (pos + run) } with ⟨-, -, e'⟩ | ⟨hbad, -⟩
    · refine ⟨_, e', ?_, rfl⟩
      rw [hd]
      constructor
      · exact h.only.trans rfl
      · exact h.vst
      · exact h.blk
      · show (BitVec.ofNat 6 (pos+run)).toNat = _
        rw [BitVec.toNat_ofNat]; omega
      · exact ha
      · exact h.escE
      · omega
      · omega
      · intro kv hkv
        rcases List.mem_append.1 hkv with hkv | hkv
        · have := h.le kv hkv; omega
        · simp at hkv; rw [hkv]
      · intro i hi
        rw [State.coefAt_setCoef _ hb (by rw [hcq.1]; exact hz), coefOf_snoc hc _ _ (by omega)
            (fun kv hkv => by have := h.le kv hkv; omega), hcq.1]
        simp only [true_and]
        rw [toInt_ofInt_of_fits f1 f2]
        by_cases hh : i = s0.cfg.zigzagAt (pos+run)
        · simp [hh]
        · simp only [hh, if_false]; exact h.cb i hi
      · intro k hk i
        rw [State.coefAt_setCoef _ hb (by rw [hcq.1]; exact hz)]
        simp only [hk, false_and, if_false]
        exact h.co k hk i
    · rw [hd] at hbad; simp only at f1 f2; omega

/-- Reading the pair's bits changes nothing of that. -/
theorem InBlock.esc {s t b pl l n pos e e' C} (h : InBlock s0 s b pl l n pos e C) (he : EscapeOnly s t)
    (hr : t.escrun.toNat = e') : InBlock s0 t b pl l n pos e' C := by
  obtain ⟨h1, h2, h3, h4, h5⟩ := EscapeOnly.fields he
  exact ⟨h.only.trans he.vld, by rw [h1]; exact h.vst, by rw [h2]; exact h.blk, by rw [h3]; exact h.posE,
    by rw [h4]; exact h.accE, hr, h.npos, h.posl, h.le,
    fun i hi => by rw [State.coefAt_congr h5]; exact h.cb i hi,
    fun k hk i => by rw [State.coefAt_congr h5]; exact h.co k hk i⟩

/-- The pairs of a block, one after the other. -/
theorem codeLoop_pairs (hc : s0.cfg.wellFormed = true) {b : Nat} {pl : Plane} {C : Nat → Nat → Int} (hb : b < 6)
    (ps : List CodedPair) :
   ∀ {s l n pos e} (room : Nat), InBlock s0 s b pl l n pos e C → ps.all (pairLegal s0.cfg) = true →
    pos + (ps.map fun p => (codeEntry s0.cfg p).run).sum ≤ 63 →
    (placedFrom s0.cfg pos ps).all (fitsCoef s0.cfg s0.qscale.toNat pl) = true →
    streamBegins s (ps.flatMap (pairBits s0.cfg)) → 63 ≤ n + room →
    ∃ t, codeLoop b pl room s = codeLoop b pl (room - ps.length) t ∧
      InBlock s0 t b pl (l ++ placedFrom s0.cfg pos ps) (n + ps.length)
          (pos + (ps.map fun p => (codeEntry s0.cfg p).run).sum)
          (ps.foldl (fun e p => if hasRaw s0.cfg p then (codeEntry s0.cfg p).run else e) e) C ∧
      t.bitpos.toNat = s.bitpos.toNat + (ps.flatMap (pairBits s0.cfg)).length := by
  induction ps with
  | nil => intro s l n pos e room h _ _ _ _ _; exact ⟨s, rfl, by simpa [placedFrom] using h, by simp⟩
  | cons p ps ih =>
    intro s l n pos e room h hl hs hf hst hr
    simp only [List.all_cons, Bool.and_eq_true] at hl
    simp only [List.map_cons, List.sum_cons] at hs
    simp only [placedFrom, List.all_cons, Bool.and_eq_true] at hf
    simp only [List.flatMap_cons] at hst
    have hcq := VldOnly.config h.only
    have hrun : (codeEntry s0.cfg p).run ≠ 0 := by
      have := hl.1; simp [pairLegal] at this; exact this.1.2
    obtain ⟨t, het, hbt, hesc, hone⟩ := oneCode_read (b := b) (pl := pl) (p := p) (s := s) (by rw [hcq.1]; exact hc) h.vst
        (by rw [hcq.1]; exact hl.1)
      (by rw [hcq.1]; exact streamBegins_left hst)
    rw [hcq.1] at hone hbt hesc
    have hesc' : t.escrun.toNat = if hasRaw s0.cfg p then (codeEntry s0.cfg p).run else e := by
      rw [hesc]
      split
      · rw [BitVec.toNat_ofNat, Nat.mod_eq_of_lt (by omega)]
      · exact h.escE
    obtain ⟨u, hu, hin, hbu⟩ := place_pair hc hb (h.esc het hesc') hrun (by omega) hf.1
    rw [hu, flowBind_ok] at hone
    have hnp := hin.npos
    have hpl := hin.posl
    obtain ⟨room, rfl⟩ : ∃ r, room = r + 1 := ⟨room - 1, by omega⟩
    have hst' : streamBegins u (ps.flatMap (pairBits s0.cfg)) := by
      refine streamBegins_right hst ?_ (by rw [hbu, hbt])
      have a := h.only.sameSlice; have b := hin.only.sameSlice
      exact ⟨by rw [b.base, a.base], by rw [b.ibuf, a.ibuf], by rw [b.epoch, a.epoch], by rw [b.nbits, a.nbits]⟩
    obtain ⟨w, hw, hinw, hbw⟩ := ih room hin hl.2 (by omega) hf.2 hst' (by omega)
    refine ⟨w, ?_, ?_, ?_⟩
    · rw [show (p :: ps).length = ps.length + 1 from rfl, Nat.add_sub_add_right, ← hw]
      conv_lhs => unfold codeLoop
      rw [hone]; simp
    · simp only [placedFrom, List.map_cons, List.sum_cons, List.length_cons]
      rw [← Nat.add_assoc, Nat.add_assoc n, Nat.add_comm 1, ← Nat.add_assoc] at *
      simpa [List.append_assoc, Nat.add_assoc, Nat.add_comm, Nat.add_left_comm] using hinw
    · rw [hbw, hbu, hbt]; simp [List.flatMap_cons]; omega

/-- The DC and the pairs of a block (R143 to R147). -/
theorem decodeBlock_start (hc : s0.cfg.wellFormed = true) {b : Nat} {pl : Plane} {C : Nat → Nat → Int} {s : State}
    (hpl : pl = planeOf b) (hb : b < 6) (hv : VldOnly s0 s)
   (h0 : ∀ i < 64, s.coefAt b i = 0) (hC : ∀ k ≠ b, ∀ i, s.coefAt k i = C k i) (blk : CodedBlock)
   (hl : startLegal s0.cfg s0.qscale.toNat pl blk = true) (hst : streamBegins s (startBits s0.cfg blk)) :
   ∃ t, decodeBlock b s = codeLoop b pl (63 - blk.pairs.length) t ∧ 
     InBlock s0 t b pl (blockPlaced s0.cfg blk) blk.pairs.length (lastPosition s0.cfg blk)
       (escapeRun s0.cfg blk) C ∧
     t.bitpos.toNat = s.bitpos.toNat + (startBits s0.cfg blk).length := by
  simp only [startLegal, Bool.and_eq_true, decide_eq_true_eq] at hl
  obtain ⟨⟨⟨hdc, hpairs⟩, hlast⟩, hfit⟩ := hl
  simp only [blockPlaced, List.all_cons, Bool.and_eq_true] at hfit
  have hcq := VldOnly.config hv
  unfold startBits at hst
  obtain ⟨t, ht, hct, hbt⟩ := brRead_stream (s := s.openBlock b) (n := s0.cfg.dcBits) (k := blk.dc) vldShort hdc
      (streamBegins_left hst)
  have hcfg : (s.openBlock b).cfg = s0.cfg := hcq.1
  have htcfg : t.cfg = s0.cfg := by rw [hct]; exact hcq.1
  have htq : t.qscale = s0.qscale := by rw [hct]; exact hcq.2
  obtain ⟨f1, f2⟩ := fitsCoef_iff.1 hfit.1
  have hd : deq t (sext s0.cfg.dcBits blk.dc) pl 0 = sext s0.cfg.dcBits blk.dc * s0.cfg.qstep s0.qscale.toNat pl 0 :=
      by
    unfold deq; rw [htcfg, htq]
  have hstart : startBlock b pl (s.openBlock b) = .ok () (t.setCoef b 0 (deq t (sext s0.cfg.dcBits blk.dc) pl 0)) :=
      by
    unfold startBlock
    rw [hcfg, ht, flowBind_ok]
    simp only [htcfg]
    rcases storeDeq_cases b 0 (sext s0.cfg.dcBits blk.dc) pl 0 t with ⟨-, -, e⟩ | ⟨hbad, -⟩
    · exact e
    · rw [hd] at hbad; simp only at f1 f2 hbad; omega
  have hco : t.coef = s.coef := by rw [hct]; rfl
  have hin : InBlock s0 (t.setCoef b 0 (deq t (sext s0.cfg.dcBits blk.dc) pl 0)) b pl [(0, sext s0.cfg.dcBits blk.dc)]
      0 0 0 C := by
    constructor
    · exact (hv.trans (VldOnly.trans (b := s.openBlock b) rfl hct.vld)).trans rfl
    · show t.vstate = _; rw [hct]; rfl
    · show t.blk.toNat = _; rw [hct]; show (BitVec.ofNat 3 b).toNat = b; rw [BitVec.toNat_ofNat]; omega
    · show t.pos.toNat = _; rw [hct]; rfl
    · show t.accnt.toNat = _; rw [hct]; rfl
    · show t.escrun.toNat = _; rw [hct]; rfl
    · omega
    · omega
    · intro kv hkv; simp at hkv; rw [hkv]
    · intro i hi
      rw [State.coefAt_setCoef _ hb (by omega)]
      have := coefOf_snoc hc s0.qscale.toNat pl (l := []) (k := 0) (v := sext s0.cfg.dcBits blk.dc) (by omega)
          (by simp) i
      simp only [List.nil_append, coefOf_nil, zigzagAt_zero hc] at this
      rw [this, hd, toInt_ofInt_of_fits f1 f2]
      simp only [true_and]
      split
      · rfl
      · rw [State.coefAt_congr hco]; exact h0 i hi
    · intro k hk i
      rw [State.coefAt_setCoef _ hb (by omega)]
      simp only [hk, false_and, if_false]
      rw [State.coefAt_congr hco]; exact hC k hk i
  have hsame : SameSlice (s.openBlock b) (t.setCoef b 0 (deq t (sext s0.cfg.dcBits blk.dc) pl 0)) := by
    have := hct.vld.sameSlice
    exact ⟨this.base, this.ibuf, this.epoch, this.nbits⟩
  have hbt' : (t.setCoef b 0 (deq t (sext s0.cfg.dcBits blk.dc) pl 0)).bitpos.toNat = (s.openBlock b).bitpos.toNat +
      (keyBits s0.cfg.dcBits s0.cfg.dcBits blk.dc).length := by
    rw [keyBits_length]; exact hbt
  have hst2 := streamBegins_right (s := s.openBlock b) hst hsame hbt'
  obtain ⟨u, hu, hinu, hbu⟩ := codeLoop_pairs hc hb blk.pairs 63 hin hpairs (by simpa [lastPosition] using hlast)
      hfit.2 hst2 (by omega)
  refine ⟨u, ?_, ?_, ?_⟩
  · unfold decodeBlock; rw [← hpl, hstart, flowBind_ok, hu]
  · simpa [blockPlaced, lastPosition, escapeRun] using hinu
  · rw [hbu]
    show t.bitpos.toNat + _ = _
    rw [hbt]; simp [startBits]; show s.bitpos.toNat + _ + _ = _; omega

/-- An end-of-block code ends the loop. -/
theorem codeLoop_end {b pl r s t} (h : oneCode b pl s = .ok true t) : codeLoop b pl r s = .ok () t := by
  cases r <;> (unfold codeLoop; rw [h]; simp)
/-- A raise ends the loop. -/
theorem codeLoop_raise {b pl r s e i t} (h : oneCode b pl s = .raised e i t) : codeLoop b pl r s = .raised e i t := by
  cases r <;> (unfold codeLoop; rw [h]; simp)

/-- What the VLD registers say of a block that has ended (R142, R148). -/
structure EndsBlock (c : Config) (t : State) (blk : CodedBlock) : Prop where
  vst  : t.vstate = .endOfBlock
  posE : t.pos.toNat = lastPosition c blk
  accE : t.accnt.toNat = blk.pairs.length
  escE : t.escrun.toNat = escapeRun c blk

/-- A whole block of the stream (R98). -/
theorem decodeBlock_stream (hc : s0.cfg.wellFormed = true) {b : Nat} {C : Nat → Nat → Int} {s : State} (hb : b < 6)
    (hv : VldOnly s0 s)
   (h0 : ∀ i < 64, s.coefAt b i = 0) (hC : ∀ k ≠ b, ∀ i, s.coefAt k i = C k i) (blk : CodedBlock)
   (hl : blockLegal s0.cfg s0.qscale.toNat (planeOf b) blk = true) (hst : streamBegins s (blockBits s0.cfg blk)) :
   ∃ t, decodeBlock b s = .ok () t ∧ VldOnly s0 t ∧ EndsBlock s0.cfg t blk ∧ t.blk.toNat = b ∧
     (∀ i < 64, t.coefAt b i = blockCoef s0.cfg s0.qscale.toNat (planeOf b) blk i) ∧
         (∀ k ≠ b, ∀ i, t.coefAt k i = C k i) ∧
     t.bitpos.toNat = s.bitpos.toNat + (blockBits s0.cfg blk).length := by
  simp only [blockLegal, Bool.and_eq_true, beq_iff_eq] at hl
  unfold blockBits at hst
  obtain ⟨t, ht, hin, hbt⟩ := decodeBlock_start hc rfl hb hv h0 hC blk hl.1.1 (streamBegins_left hst)
  have hs1 : SameSlice s t := by
    have a := hv.sameSlice; have b := hin.only.sameSlice
    exact ⟨by rw [b.base, a.base], by rw [b.ibuf, a.ibuf], by rw [b.epoch, a.epoch], by rw [b.nbits, a.nbits]⟩
  have hst2 := streamBegins_right hst hs1 hbt
  have htc := (VldOnly.config hin.only).1
  obtain ⟨u, hcu, hbu, hone⟩ := oneCode_end (b := b) (pl := planeOf b) (s := t) (p := blk.eob) (by rw [htc]; exact hc)
      (by rw [htc]; exact hl.1.2) (by rw [htc]; exact hl.2) (by rw [htc]; exact hst2)
  have hco : u.coef = t.coef := by rw [hcu]
  refine ⟨{u with vstate := .endOfBlock}, ?_, ?_, ⟨rfl, ?_, ?_, ?_⟩, ?_, ?_, ?_, ?_⟩
  · rw [ht, codeLoop_end hone]
  · exact (hin.only.trans hcu.vld).trans rfl
  · show u.pos.toNat = _; rw [hcu]; exact hin.posE
  · show u.accnt.toNat = _; rw [hcu]; exact hin.accE
  · show u.escrun.toNat = _; rw [hcu]; exact hin.escE
  · show u.blk.toNat = b; rw [hcu]; exact hin.blk
  · intro i hi
    show u.coefAt b i = _
    rw [State.coefAt_congr hco, blockCoef_eq]; exact hin.cb i hi
  · intro k hk i
    show u.coefAt k i = _
    rw [State.coefAt_congr hco]; exact hin.co k hk i
  · show u.bitpos.toNat = _
    rw [hbu, hbt, htc]; simp [blockBits]; omega

/-- Blocks of the stream from block `b` on, out of `m` still to decode. -/
theorem decodeBlocks_stream (hc : s0.cfg.wellFormed = true) (bs : List CodedBlock) : ∀ (b m : Nat) (s : State)
    (C : Nat → Nat → Int), b + bs.length ≤ 6 → bs.length ≤ m → VldOnly s0 s →
    (∀ k, ∀ i < 64, s.coefAt k i = C k i) →
    (∀ k, b ≤ k → ∀ i < 64, C k i = 0) →
    (∀ j < bs.length, ∀ x, bs[j]? = some x → blockLegal s0.cfg s0.qscale.toNat (planeOf (b + j)) x = true) →
    streamBegins s (blocksBits s0.cfg bs) →
    ∃ t, decodeBlocks (List.range' b m) s = decodeBlocks (List.range' (b + bs.length) (m - bs.length)) t ∧ VldOnly s0
        t ∧
      (bs = [] → t = s) ∧ (∀ x, bs.getLast? = some x → EndsBlock s0.cfg t x ∧ t.blk.toNat = b + bs.length - 1) ∧ t.bitpos.toNat =
          s.bitpos.toNat + (blocksBits s0.cfg bs).length ∧
      (∀ k, ∀ i < 64, t.coefAt k i = if b ≤ k then
          (match bs[k - b]? with | some x => blockCoef s0.cfg s0.qscale.toNat (planeOf k) x i | none => 0) else C k i)
              := by
  induction bs with
  | nil =>
    intro b m s C _ _ hv hC hz _ _
    refine ⟨s, rfl, hv, fun _ => rfl, by simp, by simp [blocksBits], fun k i hi => ?_⟩
    rw [hC k i hi]; split
    · simp [hz k (by assumption) i hi]
    · rfl
  | cons x bs ih =>
    intro b m s C hlen hm hv hC hz hlegal hst
    simp only [List.length_cons] at hlen hm hlegal ⊢
    simp only [blocksBits, List.flatMap_cons] at hst
    have hx := hlegal 0 (by omega) x rfl
    obtain ⟨t, ht, hvt, hvs, hblk, hcb, hck, hbt⟩ := decodeBlock_stream hc (b := b) (C := fun k i => s.coefAt k i)
        (s := s) (by omega) hv (fun i hi => by rw [hC b i hi]; exact hz b (le_refl _) i hi) (fun _ _ _ => rfl) x
            (by simpa using hx) (streamBegins_left hst)
    have hs1 : SameSlice s t := by
      have a := hv.sameSlice; have b := hvt.sameSlice
      exact ⟨by rw [b.base, a.base], by rw [b.ibuf, a.ibuf], by rw [b.epoch, a.epoch], by rw [b.nbits, a.nbits]⟩
    have hst2 := streamBegins_right hst hs1 hbt
    obtain ⟨m, rfl⟩ : ∃ r, m = r + 1 := ⟨m - 1, by omega⟩
    obtain ⟨u, hu, hvu, hnil, hend, hbu, hcu⟩ := ih (b+1) m t
        (fun k i => if k = b then blockCoef s0.cfg s0.qscale.toNat (planeOf k) x i else C k i) (by omega) (by omega)
            hvt
      (fun k i hi => by
        by_cases hk : k = b
        · subst hk; simp [hcb i hi]
        · simp only [hk, if_false]; rw [hck k hk i]; exact hC k i hi)
      (fun k hk i hi => by
        have : k ≠ b := by omega
        simp only [this, if_false]; exact hz k (by omega) i hi)
      (fun j hj y hy => by
        have := hlegal (j+1) (by omega) y (by simpa using hy)
        rwa [show b + (j+1) = b + 1 + j by omega] at this)
      hst2
    refine ⟨u, ?_, hvu, by simp, ?_, ?_, ?_⟩
    · rw [List.range'_succ]
      show flowBind (decodeBlock b s) _ = _
      rw [ht, flowBind_ok, hu]
      congr 2 <;> omega
    · intro z hz
      cases bs with
      | nil =>
        obtain rfl : x = z := by simpa using hz
        rw [hnil rfl]; exact ⟨hvs, by rw [hblk]; simp⟩
      | cons y ys =>
        have := hend z (by simpa using hz)
        refine ⟨this.1, ?_⟩; rw [this.2]; simp; omega
    · rw [hbu, hbt]; simp [blocksBits, List.flatMap_cons]; omega
    · intro k i hi
      rw [hcu k i hi]
      by_cases h1 : b + 1 ≤ k
      · have h2 : b ≤ k := by omega
        simp only [h1, h2, if_true]
        have : k - b = (k - (b+1)) + 1 := by omega
        rw [this]; rfl
      · by_cases h2 : k = b
        · subst h2; simp
        · have : ¬ b ≤ k := by omega
          simp [h1, this, h2]

end Sys2Proof.Machine
end

