-- ==== Sys2Proof/Laws/Command.lean ====
section
/-! SUPPORT. What no command writes before its completion or its fault entry, said once for all fourteen. -/

namespace Sys2Proof.Machine

/-- `t` is `s` but for what some command writes: not the configuration, CMDCNT, BUSY, the fault registers, IBUF,
IBUF_LEN nor the host's side of the run. -/
def CommandOnly (s t : State) : Prop :=
  t = { s with
    coef := t.coef, spat := t.spat, result := t.result, brActive := t.brActive, brBase := t.brBase, brNbits :=
        t.brNbits
    bitpos := t.bitpos, acc := t.acc, nvalid := t.nvalid, wptr := t.wptr, hdrOk := t.hdrOk, qscale := t.qscale
    vstate := t.vstate, blk := t.blk, pos := t.pos, accnt := t.accnt, escrun := t.escrun
    frameW := t.frameW, frameH := t.frameH, channels := t.channels, prev1 := t.prev1, prev2 := t.prev2
    pcmcnt := t.pcmcnt, pix := t.pix, pcmout := t.pcmout, pixFresh := t.pixFresh, sliceRewritten := t.sliceRewritten }

theorem CommandOnly.trans {a b c : State} (h : CommandOnly a b) (k : CommandOnly b c) : CommandOnly a c := by
  unfold CommandOnly at *; rw [k, h]

theorem CursorOnly.command {s t : State} (h : CursorOnly s t) : CommandOnly s t := by
  unfold CursorOnly CommandOnly at *; rw [h]

theorem VldOnly.command {s t : State} (h : VldOnly s t) : CommandOnly s t := by
  unfold VldOnly CommandOnly at *; rw [h]

theorem PixOnly.command {s t : State} (h : PixOnly s t) : CommandOnly s t := by
  unfold PixOnly CommandOnly at *; rw [h]

theorem AudioOnly.command {s t : State} (h : AudioOnly s t) : CommandOnly s t := by
  unfold AudioOnly CommandOnly at *; rw [h]

theorem flowBind_command {α β : Type} {s : State} {f : Flow α} {k : α → State → Flow β} (hf : CommandOnly s f.state)
    (hk : ∀ a t, CommandOnly t (k a t).state) : CommandOnly s (flowBind f k).state :=
  flowBind_rel (R := CommandOnly) (fun _ _ _ => CommandOnly.trans) hf fun a t _ => hk a t

theorem needSlice_command (i s) : CommandOnly s (needSlice i s).state := by
  rcases needSlice_cases i s with ⟨-, e⟩ | ⟨-, e⟩ <;> rw [e] <;> rfl

theorem needCount_command (i s) : CommandOnly s (needCount i s).state := by
  rcases needCount_cases i s with ⟨-, e⟩ | ⟨-, e⟩ <;> rw [e] <;> rfl

/-- The pseudocode of a command writes no more than that (R24, R31, R32, R75, R280). -/
theorem commandFlow_frame (i : Instr) (s : State) : CommandOnly s (commandFlow i s).state := by
  cases i with
  | nop => rfl
  | cfgFrame w hh => simp only [commandFlow]; split <;> rfl
  | cfgAudio ch => simp only [commandFlow]; split <;> rfl
  | brInit l b => simp only [commandFlow]; split <;> rfl
  | brPeek n =>
    exact flowBind_command (needCount_command _ _) fun _ t => flowBind_command (needSlice_command _ _) fun _ t =>
        flowBind_command (brPeek_frame _ _ _).cursor.command fun _ _ => rfl
  | brConsume n =>
    exact flowBind_command (needCount_command _ _) fun _ t => flowBind_command (needSlice_command _ _) fun _ t =>
        (brConsume_frame _ _ _).command
  | brRefill => exact flowBind_command (needSlice_command _ _) fun _ t => (refill_hidden t).cursor.command
  | vldHdr =>
    refine flowBind_command (needSlice_command _ _) fun _ t => ?_
    split
    · rfl
    · refine flowBind_command (brPeek_frame _ _ _).cursor.command fun _ t => ?_
      split
      · exact flowBind_command (brConsume_frame _ _ _).command fun _ _ => rfl
      · rfl
  | vldMb =>
    refine flowBind_command (needSlice_command _ _) fun _ t => ?_
    split
    · exact CommandOnly.trans (b := t.clearCoef) rfl (decodeBlocks_frame _ _).command
    · rfl
  | idctBlk b => simp only [commandFlow]; split <;> rfl
  | idctMb =>
    have := transforms_frame [0, 1, 2, 3, 4, 5] s
    simp only [commandFlow, Flow.state_ok]
    generalize [0, 1, 2, 3, 4, 5].foldl State.transform s = y at *
    obtain ⟨z, rfl⟩ := this; rfl
  | cscMb x y =>
    simp only [commandFlow, Flow.state_ok]
    exact (cscMacroblock_frame _ _ _).command
  | adpcmInit => rfl
  | adpcmDec g b =>
    simp only [commandFlow]; split
    · rfl
    · split
      · rfl
      · exact (decodeGroups_frame _ _ _).command

end Sys2Proof.Machine
end

