-- ==== Sys2Proof/Laws/Encoding.lean ====
section
/-! SUPPORT. The fields of a command word put together from them (30_encoding.md R90), and what the format's mask
says of a word whose opcode is known (R91). -/

namespace Sys2Proof

/-- The OP field of `OP ++ A ++ B`. -/
@[simp] theorem cwOp_append (op : Byte) (a : BitVec 24) (b : Word) : cwOp ((op ++ a) ++ b) = op := by
  apply BitVec.eq_of_getLsbD_eq
  intro i hi
  simp only [cwOp, BitVec.getLsbD_extractLsb', BitVec.getLsbD_append]
  have h1 : ¬ 56 + i < 32 := by omega
  have h2 : ¬ 56 + i - 32 < 24 := by omega
  have h3 : 56 + i - 32 - 24 = i := by omega
  simp only [h1, h2, h3, hi, decide_true, Bool.true_and, if_false]

/-- The A field. -/
@[simp] theorem cwA_append (op : Byte) (a : BitVec 24) (b : Word) : cwA ((op ++ a) ++ b) = a := by
  apply BitVec.eq_of_getLsbD_eq
  intro i hi
  simp only [cwA, BitVec.getLsbD_extractLsb', BitVec.getLsbD_append]
  have h1 : ¬ 32 + i < 32 := by omega
  have h2 : 32 + i - 32 < 24 := by omega
  have h3 : 32 + i - 32 = i := by omega
  simp only [h1, h3, hi, decide_true, Bool.true_and, if_true, if_false]

/-- The B field. -/
@[simp] theorem cwB_append (op : Byte) (a : BitVec 24) (b : Word) : cwB ((op ++ a) ++ b) = b := by
  apply BitVec.eq_of_getLsbD_eq
  intro i hi
  simp only [cwB, BitVec.getLsbD_extractLsb', BitVec.getLsbD_append]
  have h3 : 0 + i = i := by omega
  simp only [h3, hi, decide_true, Bool.true_and, if_true]

/-- The fields of an encoded command. -/
@[simp] theorem cwOp_encode (i : Instr) : cwOp (encode i) = i.opcode := cwOp_append ..
@[simp] theorem cwA_encode (i : Instr) : cwA (encode i) = i.fieldA := cwA_append ..
@[simp] theorem cwB_encode (i : Instr) : cwB (encode i) = i.fieldB := cwB_append ..

/-- A word is its three fields (R90). -/
theorem cw_eq_fields (w : CommandWord) : (cwOp w ++ cwA w) ++ cwB w = w := by
  apply BitVec.eq_of_getLsbD_eq
  intro i hi
  simp only [cwOp, cwA, cwB, BitVec.getLsbD_extractLsb', BitVec.getLsbD_append]
  by_cases h1 : i < 32
  · simp [h1]
  · by_cases h2 : i - 32 < 24
    · have h3 : 32 + (i - 32) = i := by omega
      simp [h1, h2, h3]
    · have h3 : 56 + (i - 32 - 24) = i := by omega
      have h4 : i - 32 - 24 < 8 := by omega
      simp [h1, h2, h3, h4]

/-- The two halves of a format XY operand. -/
@[simp] theorem xyFirst_append (x y : Half) : xyFirst (y ++ x) = x := by
  apply BitVec.eq_of_getLsbD_eq
  intro i hi
  simp only [xyFirst, BitVec.getLsbD_extractLsb', BitVec.getLsbD_append]
  have h3 : 0 + i = i := by omega
  simp only [h3, hi, decide_true, Bool.true_and, if_true]

@[simp] theorem xySecond_append (x y : Half) : xySecond (y ++ x) = y := by
  apply BitVec.eq_of_getLsbD_eq
  intro i hi
  simp only [xySecond, BitVec.getLsbD_extractLsb', BitVec.getLsbD_append]
  have h1 : ¬ 16 + i < 16 := by omega
  have h3 : 16 + i - 16 = i := by omega
  simp [h1, h3, hi]

theorem xy_eq_halves (b : Word) : xySecond b ++ xyFirst b = b := by
  apply BitVec.eq_of_getLsbD_eq
  intro i hi
  simp only [xyFirst, xySecond, BitVec.getLsbD_extractLsb', BitVec.getLsbD_append]
  by_cases h1 : i < 16
  · simp [h1]
  · have h3 : 16 + (i - 16) = i := by omega
    have h4 : i - 16 < 16 := by omega
    simp [h1, h3, h4]

/-- A word with a known opcode is well formed when its operand bits lie inside the mask. -/
theorem wordWellFormed_of_mask {i : Instr} {m : CommandWord} (hm : operandMask i.opcode = some m)
    (hz : encode i &&& 0x00FFFFFFFFFFFFFF#64 &&& ~~~m = 0#64) : wordWellFormed (encode i) = true := by
  have h : (encode i).extractLsb' 56 8 = i.opcode := cwOp_encode i
  simp [wordWellFormed, opcodeDefined, reservedZero, h, hm, hz]

end Sys2Proof
end

