-- ==== Sys2Proof/Laws/PerInstr.lean ====
section
/-! SUPPORT. The family EncodedWordAdmitted: the word of a command is one its format admits (30_encoding.md R91, R94),
whatever its operands. One lemma per command. -/

namespace Sys2Proof.Laws.EncodedWordAdmitted

/-- The opcode is defined and every field the format requires to be zero is zero. -/
def Statement (i : Instr) : Prop := wordWellFormed (encode i) = true

/-- A word built from its fields, with the bits its mask leaves out. -/
theorem mask_append (op : Byte) (a : BitVec 24) (b : Word) (ma : BitVec 24) (mb : Word)
    (ha : a &&& ~~~ma = 0#24) (hb : b &&& ~~~mb = 0#32) :
    ((op ++ a) ++ b) &&& 0x00FFFFFFFFFFFFFF#64 &&& ~~~((0#8 ++ ma) ++ mb) = 0#64 := by
  have e : 0x00FFFFFFFFFFFFFF#64 = (0#8 ++ BitVec.allOnes 24) ++ BitVec.allOnes 32 := by decide
  rw [e]
  apply BitVec.eq_of_getLsbD_eq
  intro i hi
  have ha' := congrArg (BitVec.getLsbD · (i - 32)) ha
  have hb' := congrArg (BitVec.getLsbD · i) hb
  simp only [BitVec.getLsbD_and, BitVec.getLsbD_not, BitVec.getLsbD_zero] at ha' hb'
  simp only [BitVec.getLsbD_and, BitVec.getLsbD_not, BitVec.getLsbD_append, BitVec.getLsbD_zero]
  by_cases h1 : i < 32
  · have : b[i] = true → mb[i] = true := by simpa [h1] using hb'
    simpa [h1, hi] using fun x _ => this x
  · by_cases h2 : i - 32 < 24
    · have : a[i - 32] = true → ma[i - 32] = true := by simpa [h2] using ha'
      simpa [h1, h2, hi] using fun x _ => this x
    · simp [h1, h2]

/-- A command of format N or XY: field A is 0. -/
theorem of_fieldA_zero {i : Instr} (hm : operandMask i.opcode = some 0x00000000FFFFFFFF#64) (ha : i.fieldA = 0#24) :
    Statement i := by
  refine wordWellFormed_of_mask hm ?_
  unfold encode
  rw [ha]
  exact mask_append _ _ _ 0#24 (BitVec.allOnes 32) (by decide) (by simp)

/-- A command of format SL: every operand bit is used. -/
theorem of_all_fields {i : Instr} (hm : operandMask i.opcode = some 0x00FFFFFFFFFFFFFF#64) : Statement i :=
  wordWellFormed_of_mask hm (mask_append _ _ _ (BitVec.allOnes 24) (BitVec.allOnes 32) (by simp) (by simp))

theorem nop : Statement .nop := by unfold Statement; decide

theorem cfgFrame (w h : Half) : Statement (.cfgFrame w h) :=
  of_fieldA_zero rfl rfl

theorem cfgAudio (channels : Word) : Statement (.cfgAudio channels) :=
  of_fieldA_zero rfl rfl

theorem brInit (len : BitVec 24) (base : Word) : Statement (.brInit len base) :=
  of_all_fields rfl

theorem brPeek (n : Word) : Statement (.brPeek n) :=
  of_fieldA_zero rfl rfl

theorem brConsume (n : Word) : Statement (.brConsume n) :=
  of_fieldA_zero rfl rfl

theorem brRefill : Statement .brRefill := by unfold Statement; decide

theorem vldHdr : Statement .vldHdr := by unfold Statement; decide

theorem vldMb : Statement .vldMb := by unfold Statement; decide

theorem idctBlk (b : Word) : Statement (.idctBlk b) :=
  of_fieldA_zero rfl rfl

theorem idctMb : Statement .idctMb := by unfold Statement; decide

theorem cscMb (mbx mby : Half) : Statement (.cscMb mbx mby) :=
  of_fieldA_zero rfl rfl

theorem adpcmInit : Statement .adpcmInit := by unfold Statement; decide

theorem adpcmDec (groups : BitVec 24) (base : Word) : Statement (.adpcmDec groups base) :=
  of_all_fields rfl

end Sys2Proof.Laws.EncodedWordAdmitted
end

