-- ==== Sys2Proof/Machine/Assembler.lean ====
section
/-! DEFINITION. The assembler's side of the command set: the pseudo-commands (30_encoding.md R97) and the syntax of
one line of text (R96). The block never sees either. -/

namespace Sys2Proof.Machine

/-! ### Pseudo-commands (R97) -/

/-- The three abbreviations of R97. -/
inductive PseudoCommand where
  | brRead (n : Word)
  | vidMb (mbx mby : Half)
  | vidBegin (base : Word) (len : BitVec 24)
deriving DecidableEq, Repr

/-- The sequence of real commands a pseudo-command stands for. -/
def expandPseudo : PseudoCommand → List Instr
  | .brRead n          => [.brPeek n, .brConsume n]
  | .vidMb mbx mby     => [.vldMb, .idctMb, .cscMb mbx mby]
  | .vidBegin base len => [.brInit len base, .vldHdr]

/-! ### One line of assembler text (R96)

One command per line; the mnemonic in upper case with its dot; operands separated by commas, in the order of R96;
numbers in decimal or in hexadecimal with `0x`; a comment runs from `;` to the end of the line. How many blanks may
stand between the parts is not stated: any number may (log entry 17). -/

/-- The line without its comment. -/
def stripComment (l : List Char) : List Char := l.takeWhile (· != ';')

/-- A blank. -/
def isBlank (c : Char) : Bool := c == ' ' || c == '\t'

/-- The text without blanks at either end. -/
def trimBlanks (l : List Char) : List Char :=
  ((l.dropWhile isBlank).reverse.dropWhile isBlank).reverse

/-- The value of a digit below `base`. -/
def digitValue (base : Nat) (c : Char) : Option Nat :=
  let v :=
    if '0' ≤ c ∧ c ≤ '9' then c.toNat - '0'.toNat
    else if 'a' ≤ c ∧ c ≤ 'f' then c.toNat - 'a'.toNat + 10
    else if 'A' ≤ c ∧ c ≤ 'F' then c.toNat - 'A'.toNat + 10
    else base
  if v < base then some v else none

/-- The number that digits spell, `acc` being the number before them. -/
def digitsValue (base : Nat) (acc : Nat) : List Char → Option Nat
  | []     => some acc
  | c :: t => (digitValue base c).bind fun v => digitsValue base (base * acc + v) t

/-- A number: decimal, or hexadecimal behind `0x`; at least one digit. -/
def parseNumber (l : List Char) : Option Nat :=
  match l with
  | []               => none
  | ['0', 'x']       => none
  | '0' :: 'x' :: ds => digitsValue 16 0 ds
  | ds               => digitsValue 10 0 ds

/-- The operands of a line: nothing, or numbers separated by commas. -/
def parseOperands (l : List Char) : Option (List Nat) :=
  if l = [] then some [] else (l.splitOn ',').mapM fun o => parseNumber (trimBlanks o)

/-- What one line says: nothing, a command, or a pseudo-command. -/
inductive AsmLine where
  | empty
  | command (i : Instr)
  | pseudo (p : PseudoCommand)
deriving DecidableEq, Repr

/-- An operand in a field of `w` bits; one that does not fit is no operand of the command. -/
def operandField (w n : Nat) : Option (BitVec w) := if n < 2 ^ w then some (BitVec.ofNat w n) else none

/-- A mnemonic with its operands in the order of R96 (base before length, though the base is in field B). -/
def parseMnemonic (m : String) (ops : List Nat) : Option AsmLine :=
  match m, ops with
  | "NOP", []              => some (.command .nop)
  | "CFG.FRAME", [w, h]    => (operandField 16 w).bind fun w => (operandField 16 h).map fun h => .command (.cfgFrame w h)
  | "CFG.AUDIO", [c]       => (operandField 32 c).map fun c => .command (.cfgAudio c)
  | "BR.INIT", [b, l]      => (operandField 32 b).bind fun b => (operandField 24 l).map fun l => .command (.brInit l b)
  | "BR.PEEK", [n]         => (operandField 32 n).map fun n => .command (.brPeek n)
  | "BR.CONSUME", [n]      => (operandField 32 n).map fun n => .command (.brConsume n)
  | "BR.REFILL", []        => some (.command .brRefill)
  | "VLD.HDR", []          => some (.command .vldHdr)
  | "VLD.MB", []           => some (.command .vldMb)
  | "IDCT.BLK", [b]        => (operandField 32 b).map fun b => .command (.idctBlk b)
  | "IDCT.MB", []          => some (.command .idctMb)
  | "CSC.MB", [x, y]       => (operandField 16 x).bind fun x => (operandField 16 y).map fun y => .command (.cscMb x y)
  | "ADPCM.INIT", []       => some (.command .adpcmInit)
  | "ADPCM.DEC", [b, g]    => (operandField 32 b).bind fun b => (operandField 24 g).map fun g => .command (.adpcmDec g b)
  | "BR.READ", [n]         => (operandField 32 n).map fun n => .pseudo (.brRead n)
  | "VID.MB", [x, y]       => (operandField 16 x).bind fun x => (operandField 16 y).map fun y => .pseudo (.vidMb x y)
  | "VID.BEGIN", [b, l]    => (operandField 32 b).bind fun b => (operandField 24 l).map fun l => .pseudo (.vidBegin b l)
  | _, _                   => none

/-- One line of text. -/
def parseLine (line : List Char) : Option AsmLine :=
  let l := trimBlanks (stripComment line)
  if l = [] then some .empty
  else
    (parseOperands (trimBlanks (l.dropWhile fun c => !isBlank c))).bind
      (parseMnemonic (String.ofList (l.takeWhile fun c => !isBlank c)))

/-- The command words a line assembles to. -/
def lineWords : AsmLine → List CommandWord
  | .empty     => []
  | .command i => [encode i]
  | .pseudo p  => (expandPseudo p).map encode

/-- A text, line by line, to the command words it assembles to; `none` when a line is no line of R96. -/
def assemble (text : String) : Option (List CommandWord) :=
  ((text.toList.splitOn '\n').mapM parseLine).map fun ls => ls.flatMap lineWords

end Sys2Proof.Machine
end

