-- ==== Sys2Proof/Tests/Slice0.lean ====
section
/-! SUPPORT. The model's own tests: ill-formed words and configurations, one word per command written out from its
encoding, one or two small steps per command with the results of 95_test_vectors.md, and for every statement with
hypotheses a concrete state and operands that meet them (`witness_<statement>`). -/

namespace Sys2Proof.Tests

set_option Elab.async false

open Sys2Proof.Machine

/-! ### Small states -/

/-- The state an answer goes on to. -/
def nextOf : StepResult → Option State
  | .next t    => some t
  | .fault _   => none
  | .refused _ => none

/-- Bytes as memory cells from offset 0 on. -/
def cells (bs : List Nat) : Memory := bs.zipIdx.map fun p => (p.2, BitVec.ofNat 8 p.1)

/-- The bytes are the valid input. -/
def inputState (bs : List Nat) : State := { State.reset with ibuf := cells bs, ibufLen := BitVec.ofNat 32 bs.length }

/-- The bytes are the active slice, with no bit of it taken yet. -/
def sliceState (bs : List Nat) : State :=
  { inputState bs with brActive := true, brNbits := BitVec.ofNat 32 (16 * (bs.length / 2)) }

/-- The bytes are the active slice, whose header (its first word, of value `q`) was read. -/
def mbState (q : Nat) (bs : List Nat) : State :=
  { sliceState bs with bitpos := 16#32, wptr := 1#32, hdrOk := true, qscale := BitVec.ofNat 16 q }

/-- COEF[0] holds the numbers, the other blocks 0. -/
def coefState (F : List Int) : State :=
  { State.reset with
    coef := State.reset.coef.setIfInBounds 0 (Vector.ofFn fun i : Fin 64 => BitVec.ofInt 32 (F[i.val]?.getD 0)) }

/-- Every block of COEF holds `d` at index 0 and nothing else. -/
def dcState (d : Int) : State := (List.range 6).foldl (fun s b => s.setCoef b 0 d) State.reset

/-- ERR, ERRINFO and CMDCNT of a faulted state. -/
def errOf (t : State) : Word × Word × Word := (errWord t, t.errInfo, t.cmdcnt)

/-! ### Well-formedness: each check refuses an ill-formed term (R7, R91) -/

/-- The sharing condition of one key, on the run of keys itself: quicker to evaluate. -/
def runShares (table : List TableEntry) (width key : Nat) : Bool :=
  match table[key]? with
  | none   => true
  | some e =>
    e.kind == .invalid ||
      (table.drop (key / 2 ^ (width - e.len) * 2 ^ (width - e.len))).take (2 ^ (width - e.len)) ==
        List.replicate (2 ^ (width - e.len)) e

theorem sharesFrom_of_runShares {table : List TableEntry} {width key : Nat} (h : runShares table width key = true) :
    sharesFrom table width key = true := by
  cases hk : table[key]? with
  | none   => simp only [sharesFrom, hk]
  | some e =>
    simp only [runShares, hk] at h
    simp only [sharesFrom, hk]
    simp only [Bool.or_eq_true, beq_iff_eq, List.all_eq_true, List.mem_range] at h ⊢
    refine h.imp_right fun h j hj => ?_
    have := congrArg (fun l => l[j]?) h
    simpa [List.getElem?_take, hj] using this

theorem tableShares_of_runShares {table : List TableEntry} {width : Nat}
    (h : (List.range (2 ^ width)).all (runShares table width) = true) : tableShares table width = true := by
  simp only [tableShares, List.all_eq_true] at *
  exact fun k hk => sharesFrom_of_runShares (h k hk)

theorem test_t0_tableA : Config.t0.tableAOk = true := by
  simp only [Config.tableAOk, Bool.and_eq_true]
  exact ⟨⟨by decide +kernel, by decide +kernel⟩, tableShares_of_runShares (by decide +kernel)⟩

theorem test_t0_tableB : Config.t0.tableBOk = true := by
  simp only [Config.tableBOk, Bool.and_eq_true]
  exact ⟨⟨⟨⟨by decide +kernel, by decide +kernel⟩, by decide +kernel⟩, by decide +kernel⟩,
    tableShares_of_runShares (by decide +kernel)⟩

theorem test_t0_quant : Config.t0.quantOk = true := by decide +kernel

/-- T0 is well formed (95_test_vectors.md section 2). -/
theorem test_t0_wellFormed : Config.t0.wellFormed = true := by
  simp only [Config.wellFormed, Bool.and_eq_true]
  exact ⟨⟨⟨⟨⟨⟨⟨⟨test_t0_tableA, test_t0_tableB⟩, by decide +kernel⟩, by decide +kernel⟩, by decide +kernel⟩,
    test_t0_quant⟩, by decide +kernel⟩, by decide +kernel⟩, by decide +kernel⟩

theorem test_word_refused_opcode : wordWellFormed 0x0300000000000000#64 = false := by decide +kernel
theorem test_word_refused_reserved_a : wordWellFormed 0x1100000100000004#64 = false := by decide +kernel
theorem test_word_refused_reserved_b : wordWellFormed 0x2100000000000001#64 = false := by decide +kernel
theorem test_word_admitted : wordWellFormed 0x10FFFFFFFFFFFFFF#64 = true := by decide +kernel

theorem test_tableA_refused_length : ({ Config.t0 with tableA := t0TableA.drop 1 } : Config).tableAOk = false := by
  decide +kernel

theorem test_tableA_refused_entry :
    ({ Config.t0 with tableA := { kind := .pair, len := 9, run := 0, value := 0 } :: t0TableA.drop 1 } :
        Config).tableAOk
      = false := by decide +kernel

theorem test_tableA_refused_sharing :
    ({ Config.t0 with tableA := { kind := .pair, len := 7, run := 0, value := 0 } :: t0TableA.drop 1 } :
        Config).tableAOk
      = false := by decide +kernel

theorem test_tableB_refused_width : ({ Config.t0 with wB := 17 } : Config).tableBOk = false := by decide +kernel

theorem test_tableB_refused_escapePrefix :
    ({ Config.t0 with tableB := { kind := .escapePrefix, len := 6, run := 1, value := 0 } :: t0TableB.drop 1 } :
      Config).tableBOk = false := by decide +kernel

theorem test_entry_refused_run :
    TableEntry.fieldsInRange { kind := .pair, len := 1, run := 64, value := 0 } = false := by decide +kernel

theorem test_sentinel_refused : ({ Config.t0 with escSentinel := 32768 } : Config).escSentinelOk = false := by
  decide +kernel
theorem test_rawBits_refused : ({ Config.t0 with rawBits := 17 } : Config).rawBitsOk = false := by decide +kernel
theorem test_dcBits_refused : ({ Config.t0 with dcBits := 0 } : Config).dcBitsOk = false := by decide +kernel
theorem test_quant_refused_empty : ({ Config.t0 with quant := [] } : Config).quantOk = false := by decide +kernel

theorem test_quant_refused_step :
    ({ Config.t0 with quant := [{ scale := 1, luma := List.replicate 64 0, chroma := List.replicate 64 1 }] } :
      Config).quantOk = false := by decide +kernel

theorem test_zigzag_refused_first : ({ Config.t0 with zigzag := zigzagTable.reverse } : Config).zigzagOk = false := by
  decide +kernel

theorem test_zigzag_refused_repeat :
    ({ Config.t0 with zigzag := List.replicate 64 0 } : Config).zigzagOk = false := by decide +kernel

theorem test_ibufSize_refused : ({ Config.t0 with ibufSize := 2 ^ 32 + 1 } : Config).ibufSizeOk = false := by
  decide +kernel
theorem test_pixSize_refused : ({ Config.t0 with pixSize := 3 } : Config).pixSizeOk = false := by decide +kernel

/-! ### Decoding: a word of each command, written out from its encoding (R90 to R92) -/

theorem test_decode_nop : decode (0x00#8 ++ 0#24 ++ 0#32) = .command .nop := by decide +kernel
theorem test_decode_cfgFrame : decode 0x01000000000D0014#64 = .command (.cfgFrame 20#16 13#16) := by decide +kernel
theorem test_decode_cfgAudio : decode 0x0200000080000001#64 = .command (.cfgAudio 0x80000001#32) := by decide +kernel
theorem test_decode_brInit : decode 0x10ABCDEF01234567#64 = .command (.brInit 0xABCDEF#24 0x01234567#32) := by
  decide +kernel
theorem test_decode_brPeek : decode 0x11000000FFFFFFFF#64 = .command (.brPeek 0xFFFFFFFF#32) := by decide +kernel
theorem test_decode_brConsume : decode 0x1200000000000020#64 = .command (.brConsume 32#32) := by decide +kernel
theorem test_decode_brRefill : decode 0x1300000000000000#64 = .command .brRefill := by decide +kernel
theorem test_decode_vldHdr : decode 0x2000000000000000#64 = .command .vldHdr := by decide +kernel
theorem test_decode_vldMb : decode 0x2100000000000000#64 = .command .vldMb := by decide +kernel
theorem test_decode_idctBlk : decode 0x3000000000000005#64 = .command (.idctBlk 5#32) := by decide +kernel
theorem test_decode_idctMb : decode 0x3100000000000000#64 = .command .idctMb := by decide +kernel
theorem test_decode_cscMb : decode 0x4000000000020001#64 = .command (.cscMb 1#16 2#16) := by decide +kernel
theorem test_decode_adpcmInit : decode 0x5000000000000000#64 = .command .adpcmInit := by decide +kernel
theorem test_decode_adpcmDec : decode 0x5100000200000080#64 = .command (.adpcmDec 2#24 128#32) := by decide +kernel

/-- V-SYS-1: the table's word through the host's question. -/
theorem test_table_word : decodeTableWord 64 0x5100000200000080 = some (.adpcmDec 2#24 128#32) ∧
    decodeTableWord 64 0xFF00000000001234 = none := by decide +kernel

/-- R96 and R97: two lines of text, a pseudo-command among them. -/
theorem test_assemble : assemble "BR.INIT 0x0, 16 ; a slice\nBR.READ 4" =
    some [0x1000001000000000#64, 0x1100000000000004#64, 0x1200000000000004#64] := by decide +kernel

/-! ### The commands -/

theorem test_nop : (nextOf (exec .nop State.reset)).map (·.cmdcnt) = some 1#32 := by decide +kernel

/-- V-CSC-5: 4 × 20 × 12 = 960 bytes fit exactly. -/
theorem test_cfgFrame_fits :
    (nextOf (exec (.cfgFrame 20#16 12#16) { State.reset with cfg := { Config.t0 with pixSize := 960 } })).map
      (fun t => (readCr t 10, t.errCode)) = some (0x000C0014#32, 0#8) := by decide +kernel

/-- V-CSC-5: one row more does not. -/
theorem test_cfgFrame_too_large :
    (nextOf (exec (.cfgFrame 20#16 13#16) { State.reset with cfg := { Config.t0 with pixSize := 960 } })).map
      (fun t => (errOf t, readCr t 10)) = some ((0x00010506#32, 0x000D0014#32, 0#32), 0#32) := by decide +kernel

theorem test_cfgAudio_mono : (nextOf (exec (.cfgAudio 1#32) State.reset)).map statusWord = some 0#32 := by
  decide +kernel

/-- V-SYS-7. -/
theorem test_cfgAudio_fault :
    (nextOf (exec (.cfgAudio 3#32) State.reset)).map errOf = some (0x00020406#32, 3#32, 0#32) := by decide +kernel

/-- V-BR-1: the odd last byte is dropped. -/
theorem test_brInit_odd :
    (nextOf (exec (.brInit 5#24 0#32) (inputState [0x34, 0x12, 0xCD, 0xAB, 0xEF]))).map
      (fun t => (t.brNbits, t.bitpos, statusWord t)) = some (32#32, 0#32, 0x00010004#32) := by decide +kernel

/-- V-BR-11: one byte too many. -/
theorem test_brInit_fault :
    (nextOf (exec (.brInit 4#24 2#32) (inputState [0x34, 0x12, 0xCD, 0xAB]))).map
      (fun t => (errOf t, t.brActive)) = some ((0x00100202#32, 2#32, 0#32), false) := by decide +kernel

/-- V-BR-3: all 32 bits, little-endian words, most significant bit first. -/
theorem test_brPeek_32 :
    (nextOf (exec (.brPeek 32#32) (sliceState [0x34, 0x12, 0xCD, 0xAB, 0xEF]))).map (·.result) =
      some 0x1234ABCD#32 := by decide +kernel

/-- V-BR-6: one bit more than remains. -/
theorem test_brPeek_past_end :
    (nextOf (exec (.brPeek 29#32) { sliceState [0x34, 0x12, 0xCD, 0xAB] with bitpos := 4#32, nvalid := 0 })).map
      errOf = some (0x00110102#32, 4#32, 0#32) := by decide +kernel

/-- V-BR-4: after four bits, the next eight. -/
theorem test_brConsume :
    (((nextOf (exec (.brConsume 4#32) (sliceState [0x34, 0x12, 0xCD, 0xAB]))).bind fun t =>
      nextOf (exec (.brPeek 8#32) t)).map fun t => (t.bitpos, t.result)) = some (4#32, 0x23#32) := by decide +kernel

/-- V-BR-10 for BR.CONSUME: the operand is tested before the slice. -/
theorem test_brConsume_range :
    (nextOf (exec (.brConsume 40#32) State.reset)).map errOf = some (0x00120106#32, 40#32, 0#32) := by decide +kernel

/-- V-BR-13: only CMDCNT and the hidden accumulator; two words were pulled. -/
theorem test_brRefill :
    (nextOf (exec .brRefill (sliceState [0x34, 0x12, 0xCD, 0xAB]))).map
      (fun t => (t.bitpos, t.cmdcnt, t.acc, t.nvalid)) = some (0#32, 1#32, 0x1234ABCD#48, 32) := by decide +kernel

theorem test_vldHdr :
    (nextOf (exec .vldHdr (sliceState [0x02, 0x00, 0x73, 0x01]))).map (fun t => (t.qscale, t.bitpos, t.hdrOk)) =
      some (2#16, 16#32, true) := by decide +kernel

/-- V-VLD-11: 101 is no scale of T0. -/
theorem test_vldHdr_fault :
    (nextOf (exec .vldHdr (sliceState [0x65, 0x00]))).map (fun t => (errOf t, t.bitpos, t.hdrOk)) =
      some ((0x00200603#32, 0x65#32, 0#32), 0#32, false) := by decide +kernel

/-- The payload of V-VLD-1. -/
def payload : List Nat :=
  [0x02, 0x00, 0x73, 0x01, 0xD7, 0xA8, 0x44, 0x38, 0x05, 0xC0, 0xCF, 0xFE, 0x00, 0xFD, 0x3C, 0x40]

/-- V-VLD-1: every kind of code. -/
theorem test_vldMb :
    (nextOf (exec .vldMb (mbState 2 payload))).map
      (fun t => (t.bitpos, [0, 1, 8, 9, 10, 18].map (t.coefAt 0), (List.range 6).map fun b => t.coefAt b 0)) =
      some (127#32, [40, 2, -4, 2, -200, -6], [40, 0, -24, 4088, -4096, 56]) := by decide +kernel

/-- V-VLD-4: the slice ends in the raw code; what was placed stays. -/
theorem test_vldMb_budget :
    (nextOf (exec .vldMb (mbState 2 (payload.take 6)))).map
      (fun t => (errOf t, statusWord t, t.accnt, t.escrun, [0, 1, 8, 9, 10].map (t.coefAt 0))) =
      some ((0x00210403#32, 45#32, 0#32), 0x0001082E#32, 3#7, 3#6, [40, 2, -4, 2, 0]) := by decide +kernel

/-- V-IDCT-1: the highest frequency. -/
theorem test_idctBlk :
    (nextOf (exec (.idctBlk 0#32) (coefState (List.replicate 63 0 ++ [100])))).map
      (fun t => (List.range 16).map (t.spatAt 0)) =
      some ([1, -3, 4, -5, 5, -4, 3, -1] ++ [-3, 8, -12, 14, -14, 12, -8, 3]) := by decide +kernel

/-- V-IDCT-5. -/
theorem test_idctBlk_fault :
    (nextOf (exec (.idctBlk 6#32) State.reset)).map errOf = some (0x00300206#32, 6#32, 0#32) := by decide +kernel

/-- V-IDCT-2: 800 in every block gives 100 in every sample. -/
theorem test_idctMb :
    (nextOf (exec .idctMb (dcState 800))).map
      (fun t => (t.spatAt 0 0, t.spatAt 5 63)) = some (100, 100) := by decide +kernel

/-- V-CSC-1, first row: Y = 100, Cb = −20, Cr = 30. -/
theorem test_csc_arithmetic :
    (redByte 100 (-20) 30, greenByte 100 (-20) 30, blueByte 100 (-20) 30) = (142#8, 85#8, 65#8) := by decide +kernel

/-- As V-CSC-4, with two rows: of macroblock (1, 0) a 20×2 frame holds 4 × 2 pixels, the first at offset 64; they are
black from reset. -/
theorem test_cscMb_clips :
    (nextOf (exec (.cscMb 1#16 0#16) { State.reset with frameW := 20#16, frameH := 2#16 })).map
      (fun t => (t.pix.length, t.pix.take 4)) = some (32, [(64, 0#8), (65, 0#8), (66, 0#8), (67, 255#8)]) := by
  decide +kernel

theorem test_adpcmInit :
    (nextOf (exec .adpcmInit { State.reset with prev1 := #v[1#16, 2#16], prev2 := #v[3#16, 4#16] })).map
      (fun t => (readCr t 13, readCr t 14)) = some (0#32, 0#32) := by decide +kernel

/-- Group G1 of V-ADPCM-2. -/
def groupG1 : List Nat :=
  [0x28, 0x1A, 0x0C, 0x3B, 0x28, 0x1A, 0x0C, 0x3B, 0x00, 0x19, 0x2A, 0x3C, 0x00, 0x19, 0x2A, 0x3C] ++
    (List.range 112).map fun k => (7 * k + 3) % 256

/-- V-ADPCM-2: the end state and the last sample. -/
theorem test_adpcmDec :
    (nextOf (exec (.adpcmDec 1#24 0#32) (inputState groupG1))).map
      (fun t => (readCr t 13, readCr t 14, t.pcmcnt, t.pcmout[223]?)) =
      some (0x04120278#32, 0xFFDBFFDB#32, 224#32, some 0xFFDB#16) := by decide +kernel

/-- V-ADPCM-8: a reserved range in the second group; the first is decoded. -/
theorem test_adpcmDec_reserved :
    (nextOf (exec (.adpcmDec 2#24 0#32) (inputState (groupG1 ++ groupG1.set 6 0x0D)))).map
      (fun t => (errOf t, t.pcmcnt, readCr t 13)) =
      some ((0x00510703#32, 0x80#32, 0#32), 224#32, 0x04120278#32) := by decide +kernel

/-! ### The step and the host's moves -/

/-- V-SYS-1 and V-SYS-8: the fault, the dropped NOP, CLRERR, the NOP. -/
theorem test_step_clrerr :
    ((nextOf (step { State.reset with moves :=
        [.issue 0xFF00000000001234#64, .issue 0#64, .writeCr 12 2#32, .issue 0#64] })).bind
      fun t => (nextOf (step t)).bind fun u => (nextOf (step u)).bind fun v => (nextOf (step v)).map fun w =>
        (errOf t, errOf u, errOf v, errOf w)) =
      some ((0x00FF0105#32, 0x1234#32, 0#32), (0x00FF0105#32, 0x1234#32, 0#32), (0#32, 0#32, 0#32),
        (0#32, 0#32, 1#32)) := by decide +kernel

/-- V-SYS-10. -/
theorem test_reset_registers :
    ((List.finRange 16).map fun n => readCr State.reset n) = [0x4D444201#32, 0x00010000#32] ++ List.replicate 14 0#32
        := by
  decide +kernel

/-- withFetchWord runs the word's command, and STATUS is read at any time. -/
theorem test_withFetchWord :
    (nextOf (step (State.reset.withFetchWord 64 0x0200000000000001))).map (·.channels) = some .mono := by
  decide +kernel

/-! ### Witnesses: states and operands that meet the statements' hypotheses, clause by clause -/

/-- A test of the state an answer goes on to. -/
theorem next_of_any {r : StepResult} {p : State → Bool} (h : (nextOf r).any p = true) :
    ∃ t, r = .next t ∧ p t = true := by
  cases r with
  | next t    => exact ⟨t, rfl, h⟩
  | fault _   => simp [nextOf] at h
  | refused _ => simp [nextOf] at h

theorem witness_EncodeOfDecodeIsTheWord : decode 0x10ABCDEF01234567#64 = .command (.brInit 0xABCDEF#24 0x01234567#32)
    :=
  test_decode_brInit

/-- Each clause, at an undefined opcode beside a defined one, at the lowest bit of a field that must be 0, and at the
three ways to be legal. -/
theorem witness_DecodeIsTheTotalFunction :
    0x03#8 ∉ opcodesZ ++ opcodesB ++ opcodesAB ∧ 0xFF#8 ∉ opcodesZ ++ opcodesB ++ opcodesAB ∧
    (0x13#8 ∈ opcodesZ ∧ (1#24 ≠ 0#24 ∨ 0#32 ≠ 0#32)) ∧ (0x50#8 ∈ opcodesZ ∧ (0#24 ≠ 0#24 ∨ 1#32 ≠ 0#32)) ∧
    (0x40#8 ∈ opcodesB ∧ 0x800000#24 ≠ 0#24) ∧
    ((0x00#8 ∈ opcodesZ ∧ 0#24 = 0#24 ∧ 0#32 = 0#32) ∧ (0x40#8 ∈ opcodesB ∧ 0#24 = 0#24) ∧ 0x51#8 ∈ opcodesAB) := by
  decide +kernel

/-- A word that may run with its slice in place, and one that needs no slice with the slice moved. -/
theorem witness_StepRunsTheDecodedCommand :
    (∃ s : State, s.moves = .issue 0x1300000000000000#64 :: [] ∧ s.busy = false ∧ s.errCode = 0#8 ∧
      decode 0x1300000000000000#64 = .command .brRefill ∧ s.brActive = true ∧ s.sliceRewritten = false) ∧
    (∃ s : State, s.moves = .issue 0#64 :: [] ∧ s.busy = false ∧ s.errCode = 0#8 ∧ decode 0#64 = .command .nop ∧
      s.sliceRewritten = true ∧ usesSlice s .nop = false) :=
  ⟨⟨{ sliceState [1, 2] with moves := [.issue 0x1300000000000000#64] }, by decide +kernel⟩,
    ⟨{ sliceState [1, 2] with moves := [.issue 0#64], sliceRewritten := true }, by decide +kernel⟩⟩

theorem witness_StepFaultsOnAnIllegalWord :
    (∃ s : State, s.moves = .issue (commandWord 0xFF#8 0#24 0x1234#32) :: [] ∧ s.busy = false ∧ s.errCode = 0#8 ∧
      0xFF#8 ∉ opcodesZ ++ opcodesB ++ opcodesAB) ∧
    (∃ s : State, s.moves = .issue (commandWord 0x11#8 1#24 4#32) :: [] ∧ s.busy = false ∧ s.errCode = 0#8 ∧
      0x11#8 ∈ opcodesB ∧ 1#24 ≠ 0#24) :=
  ⟨⟨{ State.reset with moves := [.issue (commandWord 0xFF#8 0#24 0x1234#32)] }, by decide +kernel⟩,
    ⟨{ State.reset with moves := [.issue (commandWord 0x11#8 1#24 4#32)] }, by decide +kernel⟩⟩

theorem witness_WordsAreDroppedWhileBusyOrFaulted :
    { State.reset with busy := true }.busy = true ∧
    (State.reset.takeFault 0#8 .illegalOpcode 0#32).errCode ≠ 0#8 := by decide +kernel

theorem witness_StepStopsOnlyAtAForbiddenHostMove : State.reset.moves = [] := rfl

/-- One row of 32 pixels more than 4096 bytes, and exactly 4096 bytes. -/
theorem witness_CfgFrameDeclaresTheFrame :
    State.reset.cfg.pixSize < 4 * (32#16).toNat * (33#16).toNat ∧
    4 * (32#16).toNat * (32#16).toNat ≤ State.reset.cfg.pixSize := by decide +kernel

theorem witness_CfgAudioDeclaresTheLayout : 0#32 ≠ 1#32 ∧ 0#32 ≠ 2#32 ∧ 3#32 ≠ 1#32 ∧ 3#32 ≠ 2#32 := by decide

/-- The whole input, and one byte more. -/
theorem witness_BrInitSetsUpTheSlice :
    (inputState [1, 2, 3, 4]).ibufLen.toNat < (1#32).toNat + (4#24).toNat ∧
    (0#32).toNat + (4#24).toNat ≤ (inputState [1, 2, 3, 4]).ibufLen.toNat := by decide +kernel

/-- The four cases of BR.PEEK and BR.CONSUME, at 33 bits, at 32 with no slice, one bit past the end, and at the end.
-/
theorem witness_BrPeekReadsTheNextBits :
    32 < (33#32).toNat ∧
    ((32#32).toNat ≤ 32 ∧ State.reset.brActive = false) ∧
    ((32#32).toNat ≤ 32 ∧ (sliceState [1, 2]).brActive = true ∧
      (sliceState [1, 2]).brNbits.toNat < (sliceState [1, 2]).bitpos.toNat + (17#32).toNat) ∧
    ((32#32).toNat ≤ 32 ∧ (sliceState [1, 2, 3, 4]).brActive = true ∧
      (sliceState [1, 2, 3, 4]).bitpos.toNat + (32#32).toNat ≤ (sliceState [1, 2, 3, 4]).brNbits.toNat) := by
  decide +kernel

theorem witness_BrConsumeAdvancesByN :
    32 < (33#32).toNat ∧
    ((32#32).toNat ≤ 32 ∧ State.reset.brActive = false) ∧
    ((32#32).toNat ≤ 32 ∧ (sliceState [1, 2]).brActive = true ∧
      (sliceState [1, 2]).brNbits.toNat < (sliceState [1, 2]).bitpos.toNat + (17#32).toNat) ∧
    ((32#32).toNat ≤ 32 ∧ (sliceState [1, 2, 3, 4]).brActive = true ∧
      (sliceState [1, 2, 3, 4]).bitpos.toNat + (32#32).toNat ≤ (sliceState [1, 2, 3, 4]).brNbits.toNat) :=
  witness_BrPeekReadsTheNextBits

/-- No slice; a slice whose two words were pulled: 32 valid bits and no word left. -/
theorem witness_BrRefillTouchesTheAccumulatorOnly :
    State.reset.brActive = false ∧ (refill (sliceState [1, 2, 3, 4])).brActive = true ∧
    16 ≤ (refill (sliceState [1, 2, 3, 4])).nvalid ∧
    (refill (sliceState [1, 2, 3, 4])).brNbits.toNat / 16 ≤ (refill (sliceState [1, 2, 3, 4])).wptr.toNat := by
  decide +kernel

/-- One word left and none valid; two words left and 15 bits valid. -/
theorem witness_BrRefillTouchesTheAccumulatorOnly_pulls :
    ((sliceState [1, 2]).brActive = true ∧ (sliceState [1, 2]).nvalid < 16 ∧
      (sliceState [1, 2]).brNbits.toNat / 16 = (sliceState [1, 2]).wptr.toNat + 1) ∧
    (∃ s : State, s.brActive = true ∧ s.nvalid = 15 ∧ s.nvalid < 16 ∧ s.wptr.toNat + 2 ≤ s.brNbits.toNat / 16) :=
  ⟨by decide +kernel, { sliceState [1, 2, 3, 4, 5, 6] with bitpos := 1#32, nvalid := 15, wptr := 1#32 },
    by decide +kernel⟩

/-- A slice with one word in the accumulator and its first bit taken. -/
def brState : State :=
  { sliceState [0x34, 0x12, 0xCD, 0xAB] with
    bitpos := 1#32, acc := 0x1234#48, nvalid := 15, wptr := 1#32, moves := [.issue 0x1100000000000005#64] }

theorem test_bitReaderOk : brState.BitReaderOk where
  posInside  := by decide +kernel
  wholeWords := by decide +kernel
  bounded    := by decide +kernel
  inactive   := fun h => absurd h (by decide +kernel)
  validMax   := by decide +kernel
  pulled     := by decide +kernel
  pulledMax  := by decide +kernel
  accSmall   := by decide +kernel
  accBits    := fun _ => by decide +kernel

theorem witness_EveryStepKeepsTheBitReader :
    ∃ s t : State, s.cfg.wellFormed = true ∧ s.BitReaderOk ∧ s.brActive = true ∧ step s = .next t :=
  have ⟨t, ht, _⟩ := next_of_any (r := step brState) (p := fun _ => true) (by decide +kernel)
  ⟨brState, t, test_t0_wellFormed, test_bitReaderOk, rfl, ht⟩

/-- Both clauses at 31 bits, all that is left, and the first beyond them. -/
theorem witness_AccumulatorFormAgreesWithTheDirectForm :
    ∃ s : State, s.BitReaderOk ∧ s.sliceRewritten = false ∧ 31 ≤ 32 ∧ s.bitpos.toNat + 31 ≤ s.brNbits.toNat ∧
      s.brNbits.toNat < s.bitpos.toNat + 32 :=
  ⟨brState, test_bitReaderOk, rfl, by decide, by decide +kernel, by decide +kernel⟩

/-- The five cases of VLD.HDR; T0's largest scale is 100. -/
theorem witness_VldHdrReadsTheScale :
    State.reset.brActive = false ∧
    ((mbState 2 payload).brActive = true ∧ (mbState 2 payload).hdrOk = true) ∧
    ((sliceState []).brActive = true ∧ (sliceState []).hdrOk = false ∧
      (sliceState []).brNbits.toNat < (sliceState []).bitpos.toNat + 16) ∧
    ((sliceState [0x65, 0]).brActive = true ∧ (sliceState [0x65, 0]).hdrOk = false ∧
      (sliceState [0x65, 0]).bitpos.toNat + 16 ≤ (sliceState [0x65, 0]).brNbits.toNat ∧
      bitSum (sliceBit (sliceState [0x65, 0])) (sliceState [0x65, 0]).bitpos.toNat 16 ∉
        (sliceState [0x65, 0]).cfg.qdom) ∧
    ((sliceState [0x64, 0]).brActive = true ∧ (sliceState [0x64, 0]).hdrOk = false ∧
      (sliceState [0x64, 0]).bitpos.toNat + 16 ≤ (sliceState [0x64, 0]).brNbits.toNat ∧
      bitSum (sliceBit (sliceState [0x64, 0])) (sliceState [0x64, 0]).bitpos.toNat 16 ∈
        (sliceState [0x64, 0]).cfg.qdom) := by decide +kernel

theorem witness_VldMbCompletesOrIsCorrupt :
    State.reset.brActive = false ∧ ((sliceState [2, 0]).brActive = true ∧ (sliceState [2, 0]).hdrOk = false) ∧
    ((mbState 2 payload).brActive = true ∧ (mbState 2 payload).hdrOk = true) := by decide +kernel

/-- A code of table A. -/
def codeA (keyA : Nat) : CodedPair := { keyA := keyA, keyB := 0, raw := 0 }

/-- T0's end of block. -/
def eobT0 : CodedPair := codeA 0x80

/-- The blocks of V-VLD-1: plain codes, an escape with its raw number, a prefix with its second code. -/
def blocksV1 : List CodedBlock :=
  [{ dc := 5, eob := eobT0, pairs := [codeA 0xC0, codeA 0x70, codeA 0x50, { keyA := 0x34, keyB := 0, raw := 0x39C },
      { keyA := 0x20, keyB := 9, raw := 0 }] },
    { dc := 0, pairs := [], eob := eobT0 }, { dc := 1021, pairs := [], eob := eobT0 },
    { dc := 511, pairs := [], eob := eobT0 }, { dc := 512, pairs := [], eob := eobT0 },
    { dc := 7, pairs := [], eob := eobT0 }]

theorem vldReady_mbState (q : Nat) (bs : List Nat) : vldReady (mbState q bs) := ⟨test_t0_wellFormed, rfl, rfl⟩

/-- Legal block by block. -/
theorem blocksLegal_of_all {s : State} {bs : List CodedBlock}
    (h : (bs.zipIdx.all fun p => blockLegal s.cfg s.qscale.toNat (planeOf p.2) p.1) = true) : blocksLegal s bs := by
  intro k hk b hb
  rw [List.all_eq_true] at h
  exact h (b, k) (by simpa [List.mem_zipIdx_iff_getElem?] using hb)

theorem witness_VldMbDecodesTheGrammar :
    vldReady (mbState 2 payload) ∧ blocksV1.length = 6 ∧ blocksLegal (mbState 2 payload) blocksV1 ∧
    streamBegins (mbState 2 payload) (blocksBits (mbState 2 payload).cfg blocksV1) :=
  ⟨vldReady_mbState _ _, rfl, blocksLegal_of_all (by decide +kernel), by unfold streamBegins; decide +kernel⟩

/-- A first block whose DC and pairs the stream spells. -/
theorem blockBegun_first {q : Nat} {bs : List Nat} {part : CodedBlock}
    (hp : startLegal (mbState q bs).cfg (mbState q bs).qscale.toNat (planeOf 0) part = true)
    (hs : streamBegins (mbState q bs) (startBits (mbState q bs).cfg part)) : blockBegun (mbState q bs) [] part :=
  ⟨vldReady_mbState _ _, by decide, blocksLegal_of_all rfl, hp, by simpa [blocksBits] using hs⟩

/-- A block of T0 with DC `dc` and the codes `keys` of table A. -/
def blockOf (dc : Nat) (keys : List Nat) : CodedBlock := { dc := dc, pairs := keys.map codeA, eob := eobT0 }

theorem test_v2_begun : blockBegun (mbState 2 [0x02, 0x00, 0x70, 0x00, 0x00, 0xFC]) [] (blockOf 1 [0xC0]) :=
  blockBegun_first (by decide +kernel) (by unfold streamBegins; decide +kernel)

theorem test_v3_begun : blockBegun (mbState 2 [0x02, 0x00, 0x4B, 0x00, 0x00, 0xF8]) [] (blockOf 1 []) :=
  blockBegun_first (by decide +kernel) (by unfold streamBegins; decide +kernel)

theorem test_v6_begun : blockBegun (mbState 2 [0x02, 0x00, 0x76, 0x01]) [] (blockOf 5 [0xC0, 0xC0]) :=
  blockBegun_first (by decide +kernel) (by unfold streamBegins; decide +kernel)

/-- V-VLD-2: after DC 1 and one pair, a key of table A that is no code. V-VLD-6: the slice ends after two pairs, and the
key is all padding. V-VLD-3: a prefix, then a key of table B that is no code. -/
theorem witness_VldMbStopsAtAnInvalidCode :
    (∃ s part, blockBegun s [] part ∧ afterStart s [] part + 8 ≤ s.brNbits.toNat ∧
      (levelA s (afterStart s [] part)).kind = .invalid) ∧
    (∃ s part, blockBegun s [] part ∧ afterStart s [] part = s.brNbits.toNat ∧
      (levelA s (afterStart s [] part)).kind = .invalid) ∧
    (∃ s part, blockBegun s [] part ∧ (levelA s (afterStart s [] part)).kind = .escapePrefix ∧
      afterStart s [] part + (levelA s (afterStart s [] part)).len ≤ s.brNbits.toNat ∧
      (levelB s (afterStart s [] part + (levelA s (afterStart s [] part)).len)).kind = .invalid) :=
  ⟨⟨_, _, test_v2_begun, by decide +kernel, by decide +kernel⟩,
    ⟨_, _, test_v6_begun, by decide +kernel, by decide +kernel⟩,
    ⟨_, _, test_v3_begun, by decide +kernel, by decide +kernel, by decide +kernel⟩⟩

theorem test_v4_begun : blockBegun (mbState 2 (payload.take 6)) [] (blockOf 5 [0xC0, 0x70, 0x50]) :=
  blockBegun_first (by decide +kernel) (by unfold streamBegins; decide +kernel)

theorem test_v5_begun : blockBegun (mbState 2 [0x02, 0x00, 0x73, 0x01]) [] (blockOf 5 [0xC0]) :=
  blockBegun_first (by decide +kernel) (by unfold streamBegins; decide +kernel)

/-- DC 1 and a prefix, and two bits of the second code. -/
theorem test_cut_begun : blockBegun (mbState 2 [0x02, 0x00, 0x48, 0x00]) [] (blockOf 1 []) :=
  blockBegun_first (by decide +kernel) (by unfold streamBegins; decide +kernel)

/-- V-VLD-5: three bits of a four-bit code. Two bits of a six-bit code behind its prefix. V-VLD-4: three bits of a
ten-bit raw code behind the run 3. -/
theorem witness_VldMbStopsWhereACodeDoesNotFit :
    (∃ s part, blockBegun s [] part ∧ (levelA s (afterStart s [] part)).kind ≠ .invalid ∧
      s.brNbits.toNat < afterStart s [] part + (levelA s (afterStart s [] part)).len) ∧
    (∃ s part start, blockBegun s [] part ∧
      start = afterStart s [] part + (levelA s (afterStart s [] part)).len ∧
      (levelA s (afterStart s [] part)).kind = .escapePrefix ∧ start ≤ s.brNbits.toNat ∧
      (levelB s start).kind ≠ .invalid ∧ s.brNbits.toNat < start + (levelB s start).len) ∧
    (∃ s part p, blockBegun s [] part ∧ codeLegal s.cfg p = true ∧ (codeEntry s.cfg p).run ≠ 0 ∧
      hasRaw s.cfg p = true ∧
      streamBegins s (blocksBits s.cfg [] ++ startBits s.cfg part ++ codeBits s.cfg p) ∧
      s.brNbits.toNat < afterStart s [] part + (codeBits s.cfg p).length + s.cfg.rawBits) :=
  ⟨⟨_, _, test_v5_begun, by decide +kernel, by decide +kernel⟩,
    ⟨_, _, 30, test_cut_begun, by decide +kernel, by decide +kernel, by decide +kernel, by decide +kernel,
      by decide +kernel⟩,
    ⟨_, _, codeA 0x34, test_v4_begun, by decide +kernel, by decide +kernel, by decide +kernel,
      by unfold streamBegins; decide +kernel, by decide +kernel⟩⟩

/-- T0 with one scale, whose DC step is 128. -/
def bigStep : Config :=
  { Config.t0 with quant :=
      [{ scale := 1, luma := 128 :: List.replicate 63 1, chroma := 128 :: List.replicate 63 1 }] }

theorem test_bigStep_wellFormed : bigStep.wellFormed = true := by
  simp only [Config.wellFormed, Bool.and_eq_true]
  exact ⟨⟨⟨⟨⟨⟨⟨⟨test_t0_tableA, test_t0_tableB⟩, by decide +kernel⟩, by decide +kernel⟩, by decide +kernel⟩,
    by decide +kernel⟩, by decide +kernel⟩, by decide +kernel⟩, by decide +kernel⟩

/-- DC 256, the least whose product with 128 is above 32767; and DC −257, the greatest whose product is below
−32768. -/
theorem witness_VldMbStopsAtADcOutOfRange :
    ∃ s t : State, vldReady s ∧ vldReady t ∧ blocksLegal s [] ∧ blocksLegal t [] ∧
      256 < 2 ^ s.cfg.dcBits ∧ streamBegins s (blocksBits s.cfg [] ++ keyBits s.cfg.dcBits s.cfg.dcBits 256) ∧
      32767 < sext s.cfg.dcBits 256 * s.cfg.qstep s.qscale.toNat (planeOf 0) 0 ∧
      767 < 2 ^ t.cfg.dcBits ∧ streamBegins t (blocksBits t.cfg [] ++ keyBits t.cfg.dcBits t.cfg.dcBits 767) ∧
      sext t.cfg.dcBits 767 * t.cfg.qstep t.qscale.toNat (planeOf 0) 0 < -32768 := by
  refine ⟨{ mbState 1 [0x01, 0x00, 0x00, 0x40] with cfg := bigStep },
    { mbState 1 [0x01, 0x00, 0xC0, 0xBF] with cfg := bigStep }, ⟨test_bigStep_wellFormed, rfl, rfl⟩,
    ⟨test_bigStep_wellFormed, rfl, rfl⟩, blocksLegal_of_all rfl, blocksLegal_of_all rfl, ?_⟩
  unfold streamBegins
  decide +kernel

/-- The hypotheses of the next statement for a first block. -/
def stuckAt (s : State) (part : CodedBlock) (p : CodedPair) : Prop :=
  startLegal s.cfg s.qscale.toNat (planeOf 0) part = true ∧ pairLegal s.cfg p = true ∧
    streamBegins s (blocksBits s.cfg [] ++ startBits s.cfg part ++ pairBits s.cfg p)

/-- V-VLD-8: 63 values are placed, the 64th does not fit. V-VLD-7: the run leaves the block. V-VLD-10: the product
does not fit 16 bits. -/
theorem witness_VldMbStopsAtAPairItCannotPlace :
    (∃ s part p, vldReady s ∧ blocksLegal s [] ∧ stuckAt s part p ∧ part.pairs.length = 63 ∧
      63 < lastPosition s.cfg part + (codeEntry s.cfg p).run) ∧
    (∃ s part p, vldReady s ∧ blocksLegal s [] ∧ stuckAt s part p ∧ part.pairs.length = 1 ∧
      63 < lastPosition s.cfg part + (codeEntry s.cfg p).run) ∧
    (∃ s part p, vldReady s ∧ blocksLegal s [] ∧ stuckAt s part p ∧
      lastPosition s.cfg part + (codeEntry s.cfg p).run ≤ 63 ∧
      fitsCoef s.cfg s.qscale.toNat (planeOf 0)
        (lastPosition s.cfg part + (codeEntry s.cfg p).run, pairNumber s.cfg p) = false) := by
  refine ⟨⟨mbState 2 ([0x02, 0x00, 0x36, 0x00, 0x6D, 0xDB, 0xDB, 0xB6, 0xB6, 0x6D, 0x6D, 0xDB, 0xDB, 0xB6] ++
      [0xB6, 0x6D, 0x6D, 0xDB, 0xDB, 0xB6, 0xB6, 0x6D, 0x6D, 0xDB, 0xDB, 0xB6, 0xA0, 0x6D]),
      { dc := 0, pairs := List.replicate 63 (codeA 0xC0), eob := eobT0 }, codeA 0xC0, vldReady_mbState _ _,
      blocksLegal_of_all rfl, ?_⟩,
    ⟨mbState 2 [0x02, 0x00, 0x0B, 0x00, 0xFA, 0xE2],
      { dc := 0, pairs := [{ keyA := 0x20, keyB := 62, raw := 0 }], eob := eobT0 },
      { keyA := 0x20, keyB := 62, raw := 0 }, vldReady_mbState _ _, blocksLegal_of_all rfl, ?_⟩,
    ⟨mbState 100 [0x64, 0x00, 0x0C, 0x00, 0x10, 0x32], { dc := 0, pairs := [], eob := eobT0 },
      { keyA := 0x30, keyB := 0, raw := 400 }, vldReady_mbState _ _, blocksLegal_of_all rfl, ?_⟩⟩ <;>
  · unfold stuckAt streamBegins
    decide +kernel

/-- P2's first frame cut after ten bytes: five blocks are there, of the sixth four bits; and a slice with a header
only. -/
theorem witness_VldMbStopsWhereTheDcDoesNotFit :
    (∃ s done, vldReady s ∧ done.length = 5 ∧ blocksLegal s done ∧ streamBegins s (blocksBits s.cfg done) ∧
      s.brNbits.toNat < s.bitpos.toNat + (blocksBits s.cfg done).length + s.cfg.dcBits) ∧
    (∃ s, vldReady s ∧ blocksLegal s [] ∧ streamBegins s (blocksBits s.cfg []) ∧
      s.brNbits.toNat < s.bitpos.toNat + (blocksBits s.cfg []).length + s.cfg.dcBits) := by
  refine ⟨⟨mbState 2 [0x02, 0x00, 0x21, 0x19, 0x19, 0x92, 0x92, 0x21, 0x20, 0xFB],
      [100, 100, 100, 100, 1004].map fun dc => { dc := dc, pairs := [], eob := eobT0 }, vldReady_mbState _ _, rfl,
      blocksLegal_of_all (by decide +kernel), ?_⟩,
    ⟨mbState 5 [0x05, 0x00], vldReady_mbState _ _, blocksLegal_of_all rfl, ?_⟩⟩ <;>
  · unfold streamBegins
    decide +kernel

/-- The first block out of range, and the last one in range with the most negative coefficient. -/
theorem witness_IdctBlkIsTheTwoPasses :
    5 < (6#32).toNat ∧ (5#32).toNat ≤ 5 ∧ coefInRange (dcState (-32768)) (5#32).toNat := by
  unfold coefInRange; decide +kernel

theorem witness_IdctOutputIsBounded :
    (5#32).toNat ≤ 5 ∧ coefInRange (dcState 32767) (5#32).toNat ∧ ∃ t, exec (.idctBlk 5#32) (dcState 32767) = .next t
        :=
  ⟨by decide, by unfold coefInRange; decide +kernel, exec_total _ _⟩

/-- Both ends of the DC range, and both ends of the exact one. -/
theorem witness_DcOnlyBlockIsFlat :
    dcOnly (dcState 32767) 5 32767 ∧ dcOnly (dcState (-32768)) 0 (-32768) ∧ (-18312 : Int) % 8 = 0 ∧
    (18528 : Int) % 8 = 0 := by
  unfold dcOnly; decide +kernel

/-- The last pixel of a 16×16 frame is in it, and offset 1024 is no byte of any. -/
theorem witness_CscMbWritesTheInFramePixels :
    inFrame { State.reset with frameW := 16#16, frameH := 16#16 } 0#16 0#16 15 15 ∧
    ∀ px < 16, ∀ py < 16, inFrame { State.reset with frameW := 16#16, frameH := 16#16 } 0#16 0#16 px py →
      ∀ c < 4, 1024 ≠ pixelStart { State.reset with frameW := 16#16, frameH := 16#16 } 0#16 0#16 px py + c := by
  constructor
  · unfold inFrame; decide +kernel
  · intro px hx py hy _ c hc h
    have : pixelStart { State.reset with frameW := 16#16, frameH := 16#16 } 0#16 0#16 px py = 4 * (py * 16 + px) := by
      simp [pixelStart]
    omega

/-- Just right of a frame of 16 columns, and a frame with no row. -/
theorem witness_CscMbOutsideTheFrameWritesNothing :
    { State.reset with frameW := 16#16, frameH := 16#16 }.frameW.toNat ≤ 16 * (1#16).toNat ∧
    State.reset.frameH.toNat ≤ 16 * (0#16).toNat := by decide +kernel

theorem witness_DcOnlyMacroblockIsOneColour :
    (∀ b < 4, dcOnly { dcState 800 with frameW := 16#16, frameH := 16#16 } b 800) ∧
    dcOnly { dcState 800 with frameW := 16#16, frameH := 16#16 } 4 800 ∧
    dcOnly { dcState 800 with frameW := 16#16, frameH := 16#16 } 5 800 ∧
    inFrame { dcState 800 with frameW := 16#16, frameH := 16#16 } 0#16 0#16 15 15 := by
  unfold dcOnly inFrame; decide +kernel

/-- No group, and one group of 127 bytes. -/
theorem witness_AdpcmDecChecksItsOperands :
    1#24 ≠ 0#24 ∧ (inputState (List.replicate 127 0)).ibufLen.toNat < (0#32).toNat + 128 * (1#24).toNat := by
  decide +kernel

/-- G1, whose largest range is 12, ends where the valid bytes end. -/
theorem witness_AdpcmDecMonoIsOneChannel :
    { inputState groupG1 with channels := .mono }.channels = .mono ∧
    audioInside { inputState groupG1 with channels := .mono } 1#24 0#32 ∧
    ∀ n < (1#24).toNat, groupLegal { inputState groupG1 with channels := .mono } ((0#32).toNat + 128 * n) := by
  unfold audioInside groupLegal; decide +kernel

theorem witness_AdpcmDecStereoIsTwoChannels :
    (inputState groupG1).channels = .stereo ∧ audioInside (inputState groupG1) 1#24 0#32 ∧
    ∀ n < (1#24).toNat, groupLegal (inputState groupG1) ((0#32).toNat + 128 * n) := by
  unfold audioInside groupLegal; decide +kernel

/-- One group that may be decoded is decoded. -/
theorem adpcmDec_one {s : State} {base : Word} (hl : base.toNat + 128 ≤ s.ibufLen.toNat)
    (hr : groupReserved s base.toNat = false) :
    ∃ t, exec (.adpcmDec 1#24 base) s = .next t ∧ t.cmdcnt = s.cmdcnt + 1#32 ∧ t.ibuf = s.ibuf ∧
      t.ibufLen = s.ibufLen ∧ t.ibufEpoch = s.ibufEpoch := by
  have hf := foldl_groupSample_frame base.toNat (groupOrder s.channels) s
  rcases decodeGroup_cases base.toNat s with ⟨-, h⟩ | ⟨h, -⟩
  · refine ⟨_, by
      rw [exec_eq_finish]
      have h1 : groupsZero 1#24 = false := rfl
      have h2 : ¬ s.ibufLen.toNat < groupOffset base (1#24).toNat := by
        simp only [groupOffset, BitVec.toNat_ofNat]; omega
      simp only [commandFlow, h1, h2, if_false, Bool.false_eq_true]
      have h3 : decodeGroups (1#24).toNat (groupOffset base 0) s =
          .ok () ((groupOrder s.channels).foldl (State.groupSample base.toNat) s) := by
        show flowBind (decodeGroup (groupOffset base 0) s) _ = _
        simp only [groupOffset, Nat.mul_zero, Nat.add_zero, h, flowBind_ok]; rfl
      rw [h3, finish_ok], ?_⟩
    generalize (groupOrder s.channels).foldl (State.groupSample base.toNat) s = u at hf
    unfold AudioOnly at hf
    rw [hf]
    exact ⟨rfl, rfl, rfl, rfl⟩
  · rw [hr] at h; simp at h

/-- Two groups, one command each. -/
theorem witness_AdpcmDecSplitsAtAnyGroup :
    ∃ s t u : State, (2#24).toNat = (1#24).toNat + (1#24).toNat ∧ (128#32).toNat = (0#32).toNat + 128 * (1#24).toNat ∧
      exec (.adpcmDec 1#24 0#32) s = .next t ∧ t.cmdcnt = s.cmdcnt + 1#32 ∧
      exec (.adpcmDec 1#24 128#32) t = .next u ∧ u.cmdcnt = t.cmdcnt + 1#32 := by
  obtain ⟨t, ht, hc, hi, hl, he⟩ := adpcmDec_one (s := inputState (groupG1 ++ groupG1)) (base := 0#32)
    (by decide +kernel) (by decide +kernel)
  have hr : groupReserved (inputState (groupG1 ++ groupG1)) 128 = false := by decide +kernel
  have hread : ∀ a, t.ibufRead a = (inputState (groupG1 ++ groupG1)).ibufRead a := fun a => by
    simp only [State.ibufRead, hi, he]
  obtain ⟨u, hu, hcu, -⟩ := adpcmDec_one (s := t) (base := 128#32) (by rw [hl]; decide +kernel)
    (by rw [← hr]; simp only [groupReserved, unitParam, hread]; rfl)
  exact ⟨_, t, u, by decide, by decide, ht, hc, hu, hcu⟩

/-- V-ADPCM-8: the second group has a reserved range; and a first group that has. -/
theorem witness_AdpcmDecStopsAtAReservedRange :
    (audioInside (inputState (groupG1 ++ groupG1.set 6 0x0D)) 2#24 0#32 ∧ 1 < (2#24).toNat ∧
      (∀ k < 1, groupLegal (inputState (groupG1 ++ groupG1.set 6 0x0D)) ((0#32).toNat + 128 * k)) ∧
      ¬ groupLegal (inputState (groupG1 ++ groupG1.set 6 0x0D)) ((0#32).toNat + 128 * 1)) ∧
    (audioInside (inputState (groupG1.set 6 0x0D)) 1#24 0#32 ∧
      ¬ groupLegal (inputState (groupG1.set 6 0x0D)) ((0#32).toNat + 128 * 0)) := by
  unfold audioInside groupLegal; decide +kernel

/-- V-ADPCM-5: an all-zero group, from zero predictors; its filters are 0. -/
theorem witness_AdpcmDecOfZeroNibbles :
    audioInside (inputState (List.replicate 128 0)) 1#24 0#32 ∧
    (∀ n < (1#24).toNat, groupLegal (inputState (List.replicate 128 0)) ((0#32).toNat + 128 * n) ∧
      ∀ k < 112, (inputState (List.replicate 128 0)).ibufRead ((0#32).toNat + 128 * n + 16 + k) = 0#8) ∧
    (inputState (List.replicate 128 0)).prev1 = #v[0#16, 0#16] ∧
    (inputState (List.replicate 128 0)).prev2 = #v[0#16, 0#16] ∧
    (∀ n < (1#24).toNat, ∀ u < 8, parByte (inputState (List.replicate 128 0)) ((0#32).toNat + 128 * n) u / 16 % 4 = 0)
    := by
  unfold audioInside groupLegal; decide +kernel

/-- An operand fault of IDCT.BLK, and an opcode of either kind. -/
theorem witness_FaultsAreThoseOfTheMatrix :
    (∃ t, exec (.idctBlk 6#32) State.reset = .next t ∧ decide (t.cmdcnt = State.reset.cmdcnt) = true) ∧
    0x00#8 ∈ opcodesZ ++ opcodesB ++ opcodesAB ∧ 0x51#8 ∈ opcodesZ ++ opcodesB ++ opcodesAB :=
  ⟨next_of_any (by decide +kernel), by decide, by decide⟩

/-- A peek past the end of the slice. -/
theorem witness_FaultingCommandsAreAtomic :
    Instr.brPeek 17#32 ≠ .vldMb ∧ (∀ groups base, Instr.brPeek 17#32 ≠ .adpcmDec groups base) ∧
    ∃ t, exec (.brPeek 17#32) (sliceState [1, 2]) = .next t ∧
      decide (t.cmdcnt = (sliceState [1, 2]).cmdcnt) = true :=
  ⟨by decide, fun _ _ => by simp, next_of_any (by decide +kernel)⟩

/-- Each register changes under the command that owns it. -/
theorem witness_RegistersHaveTheirOwners :
    (∃ t, exec .vldMb (mbState 2 payload) = .next t ∧ decide (t.coef ≠ (mbState 2 payload).coef ∧
      t.bitpos ≠ (mbState 2 payload).bitpos ∧ t.vstate ≠ (mbState 2 payload).vstate) = true) ∧
    (∃ t, exec (.idctBlk 5#32) (dcState 800) = .next t ∧ decide (t.spat ≠ (dcState 800).spat) = true) ∧
    (∃ t, exec (.brPeek 16#32) (sliceState [1, 2]) = .next t ∧
      decide (t.result ≠ (sliceState [1, 2]).result) = true) ∧
    (∃ t, exec (.brInit 2#24 1#32) (inputState [1, 2, 3]) = .next t ∧ decide (t.brBase ≠ 0#32) = true) ∧
    (∃ t, exec .vldHdr (sliceState [2, 0]) = .next t ∧ decide (t.hdrOk ≠ false ∧ t.qscale ≠ 0#16) = true) ∧
    (∃ t, exec (.cfgFrame 1#16 1#16) State.reset = .next t ∧ decide (t.frameW ≠ 0#16) = true) ∧
    (∃ t, exec (.cfgAudio 1#32) State.reset = .next t ∧ decide (t.channels ≠ .stereo) = true) ∧
    (∃ t, exec .adpcmInit { State.reset with prev1 := #v[1#16, 0#16] } = .next t ∧
      decide (t.prev1 ≠ #v[1#16, 0#16]) = true) ∧
    (∃ t, exec (.cscMb 0#16 0#16) { State.reset with frameW := 1#16, frameH := 1#16 } = .next t ∧
      decide (t.pix ≠ []) = true) :=
  ⟨next_of_any (by decide +kernel), next_of_any (by decide +kernel), next_of_any (by decide +kernel),
    next_of_any (by decide +kernel), next_of_any (by decide +kernel), next_of_any (by decide +kernel),
    next_of_any (by decide +kernel), next_of_any (by decide +kernel), next_of_any (by decide +kernel)⟩

/-- The accumulator changes under BR.REFILL, CMDCNT under NOP, the fault registers under IDCT.BLK 6, pixFresh and
sliceRewritten under CFG.FRAME and BR.INIT. -/
theorem witness_RegistersHaveTheirOwners_hidden :
    (∃ t, exec .brRefill (sliceState [1, 2]) = .next t ∧
      decide (t.acc ≠ (sliceState [1, 2]).acc ∧ t.nvalid ≠ 0 ∧ t.wptr ≠ 0#32) = true) ∧
    (∃ t, exec .nop State.reset = .next t ∧ decide (t.cmdcnt ≠ 0#32) = true) ∧
    (∃ t, exec (.idctBlk 6#32) { State.reset with busy := true } = .next t ∧
      decide (t.errCode ≠ 0#8 ∧ t.errInfo ≠ 0#32 ∧ t.busy ≠ true) = true) ∧
    (∃ t, exec (.cfgFrame 1#16 1#16) { State.reset with pix := [(0, 1#8)], pixFresh := [0] } = .next t ∧
      decide (t.pixFresh ≠ [0]) = true) ∧
    (∃ t, exec (.brInit 2#24 0#32) { inputState [1, 2] with sliceRewritten := true } = .next t ∧
      decide (t.sliceRewritten ≠ true) = true) :=
  ⟨next_of_any (by decide +kernel), next_of_any (by decide +kernel), next_of_any (by decide +kernel),
    next_of_any (by decide +kernel), next_of_any (by decide +kernel)⟩

/-- PCMCNT and PCMOUT change under ADPCM.DEC. -/
theorem witness_RegistersHaveTheirOwners_pcm :
    ∃ t, exec (.adpcmDec 1#24 0#32) (inputState groupG1) = .next t ∧ t.pcmcnt ≠ (inputState groupG1).pcmcnt := by
  have h := test_adpcmDec
  obtain ⟨t, ht⟩ := exec_total (.adpcmDec 1#24 0#32) (inputState groupG1)
  rw [ht] at h
  simp only [nextOf, Option.map_some, Option.some.injEq, Prod.mk.injEq] at h
  refine ⟨t, ht, ?_⟩
  rw [h.2.2.1]
  decide +kernel

theorem witness_AudioAndVideoCommandsCommute :
    ∃ sa sv : State, isAudio (.cfgAudio 1#32) = true ∧ isVideo (.brConsume 16#32) = true ∧
      exec (.cfgAudio 1#32) (sliceState [1, 2]) = .next sa ∧ sa.cmdcnt = (sliceState [1, 2]).cmdcnt + 1#32 ∧
      exec (.brConsume 16#32) (sliceState [1, 2]) = .next sv ∧ sv.cmdcnt = (sliceState [1, 2]).cmdcnt + 1#32 := by
  obtain ⟨sa, ha, ca⟩ := next_of_any (r := exec (.cfgAudio 1#32) (sliceState [1, 2]))
    (p := fun t => t.cmdcnt == 1#32) (by decide +kernel)
  obtain ⟨sv, hv, cv⟩ := next_of_any (r := exec (.brConsume 16#32) (sliceState [1, 2]))
    (p := fun t => t.cmdcnt == 1#32) (by decide +kernel)
  exact ⟨sa, sv, rfl, rfl, ha, beq_iff_eq.1 ca, hv, beq_iff_eq.1 cv⟩

/-- SRST with CLRERR, CLRERR alone, neither. -/
theorem witness_CtrlWriteResetsOrClears :
    (3#32).getLsbD 0 = true ∧ ((2#32).getLsbD 0 = false ∧ (2#32).getLsbD 1 = true) ∧
    ((4#32).getLsbD 0 = false ∧ (4#32).getLsbD 1 = false) ∧
    { State.reset with moves := [.writeCr 12 3#32] }.moves = .writeCr 12 3#32 :: [] := by decide +kernel

/-- Power-on, and an SRST. -/
theorem witness_ResetValuesAreThoseOfTheTable :
    (∃ c, State.reset = State.resetWith c) ∧
    ∃ s t : State, s.moves = .writeCr 12 1#32 :: [] ∧ (1#32).getLsbD 0 = true ∧ step s = .next t := by
  obtain ⟨t, ht, -⟩ := next_of_any (r := step { mbState 2 payload with moves := [.writeCr 12 1#32] })
    (p := fun _ => true) (by decide +kernel)
  exact ⟨⟨Config.t0, rfl⟩, _, t, rfl, by decide, ht⟩

/-- A read while idle, one of STATUS while busy, and writes beside CR11 and CR12. -/
theorem witness_ControlRegisterReadsChangeNothing :
    { State.reset with moves := [.readCr 2] }.busy = false ∧
    { State.reset with moves := [.readCr 1], busy := true }.moves = .readCr 1 :: [] ∧
    (10 : Fin 16) ≠ 11 ∧ (10 : Fin 16) ≠ 12 ∧ (13 : Fin 16) ≠ 12 := by decide +kernel

/-- A byte that was written, one that was not, and one written before FRAME_W changed; the last offset. -/
theorem witness_PixReadsGiveTheLastWrittenByte :
    (4095 ∈ { State.reset with pix := [(4095, 7#8)], pixFresh := [4095] }.pixFresh ∧
      Memory.read? { State.reset with pix := [(4095, 7#8)], pixFresh := [4095] }.pix 4095 = some 7#8) ∧
    4095 < State.reset.cfg.pixSize ∧ Memory.read? State.reset.pix 4095 = none ∧
    4095 ∉ { State.reset with pix := [(4095, 7#8)] }.pixFresh := by decide +kernel

/-- The last offset, and a length above IBUF_SIZE. -/
theorem witness_HostLoadsInput :
    State.reset.busy = false ∧
    { State.reset with moves := [.writeIbuf 4095 1#8] }.moves = .writeIbuf 4095 1#8 :: [] ∧
    4095 < State.reset.cfg.ibufSize ∧
    { State.reset with moves := [.writeCr 11 4097#32] }.moves = .writeCr 11 4097#32 :: [] := by decide +kernel

theorem witness_DrainTakesFromTheFront :
    { State.reset with moves := [.drainPcm 2], pcmout := [0x1234#16] }.moves = .drainPcm 2 :: [] ∧
    State.reset.busy = false := by decide +kernel

/-- Listed bytes at the ends of both memories, a frame that fills PIX. -/
theorem test_memoryOk :
    { State.reset with
      ibuf := [(0, 1#8), (4095, 2#8)], ibufLen := 4096#32, pix := [(0, 1#8), (4095, 2#8)], pixFresh := [4095]
      frameW := 32#16, frameH := 32#16, moves := [.issue 0#64] }.MemoryOk where
  ibufForm   := by decide +kernel
  ibufInside := by decide +kernel
  pixForm    := by decide +kernel
  pixInside  := by decide +kernel
  freshForm  := by decide +kernel
  freshKnown := by decide +kernel
  frameFits  := by decide +kernel
  lenCapped  := by decide +kernel

theorem witness_EveryStepKeepsTheMemories : ∃ s t : State, s.MemoryOk ∧ step s = .next t := ⟨_, _, test_memoryOk, rfl⟩

theorem test_arraysOk : { dcState (-32768) with moves := [.issue 0x3000000000000000#64] }.ArraysOk where
  coefRange := by decide +kernel
  spatRange := by decide +kernel

theorem witness_EveryStepKeepsTheWorkArrays : ∃ s t : State, s.ArraysOk ∧ step s = .next t := by
  obtain ⟨t, ht, -⟩ := next_of_any (r := step { dcState (-32768) with moves := [.issue 0x3000000000000000#64] })
    (p := fun _ => true) (by decide +kernel)
  exact ⟨_, t, test_arraysOk, ht⟩

theorem test_vldOk : { mbState 100 payload with blk := 5#3, accnt := 64#7 }.VldOk where
  blkMax   := by decide +kernel
  accntMax := by decide +kernel
  header   := fun _ => by decide +kernel

theorem witness_EveryStepKeepsTheDecoderState : ∃ s t : State, s.VldOk ∧ step s = .next t := ⟨_, _, test_vldOk, rfl⟩

theorem witness_EveryStepKeepsTheFaultRegisters : ∃ s t : State, s.FaultOk ∧ s.errCode ≠ 0#8 ∧ step s = .next t :=
  ⟨State.reset.takeFault 0x21#8 .corruptAdpcmRange 0#32, _, ⟨rfl, .inr rfl⟩, by decide, rfl⟩

/-- A run of one host move from the reset of T0. -/
theorem witness_ReachableStatesHaveEveryInvariant :
    ∃ s, Config.t0.wellFormed = true ∧ Reachable Config.t0 s ∧ s.cmdcnt = 1#32 := by
  obtain ⟨t, ht, hc⟩ := next_of_any (r := step { State.resetWith Config.t0 with moves := [.issue 0#64] })
    (p := fun t => t.cmdcnt == 1#32) (by decide +kernel)
  exact ⟨t, test_t0_wellFormed, ⟨[.issue 0#64], .tail (.refl _) ht⟩, by simpa using hc⟩

end Sys2Proof.Tests
end

section
/-! PROOFS. What each command writes and leaves unchanged, the upkeep that no invariant looks at, and how a property
gets through a step and through VLD.MB. -/

namespace Sys2Proof.Machine

/-! ### What each command writes (R21 to R32, R281) -/

/-- `s` with the fields that command `i` may write taken from `t`. -/
def ownWrites : Instr → State → State → State
  | .nop, s, _ => s
  | .cfgFrame _ _, s, t => { s with frameW := t.frameW, frameH := t.frameH, pixFresh := t.pixFresh }
  | .cfgAudio _, s, t => { s with channels := t.channels }
  | .brInit _ _, s, t =>
    { s with
      brBase := t.brBase, brNbits := t.brNbits, bitpos := t.bitpos, brActive := t.brActive
      acc := t.acc, nvalid := t.nvalid, wptr := t.wptr
      hdrOk := t.hdrOk, vstate := t.vstate, blk := t.blk, pos := t.pos, accnt := t.accnt, escrun := t.escrun
      sliceRewritten := t.sliceRewritten }
  | .brPeek _, s, t => { s with result := t.result, acc := t.acc, nvalid := t.nvalid, wptr := t.wptr }
  | .brConsume _, s, t => { s with bitpos := t.bitpos, acc := t.acc, nvalid := t.nvalid, wptr := t.wptr }
  | .brRefill, s, t => { s with acc := t.acc, nvalid := t.nvalid, wptr := t.wptr }
  | .vldHdr, s, t =>
    { s with
      bitpos := t.bitpos, acc := t.acc, nvalid := t.nvalid, wptr := t.wptr, hdrOk := t.hdrOk, qscale := t.qscale }
  | .vldMb, s, t => vldWrites s t
  | .idctBlk _, s, t | .idctMb, s, t => { s with spat := t.spat }
  | .cscMb _ _, s, t => { s with pix := t.pix, pixFresh := t.pixFresh }
  | .adpcmInit, s, t => { s with prev1 := t.prev1, prev2 := t.prev2 }
  | .adpcmDec _ _, s, t =>
    { s with prev1 := t.prev1, prev2 := t.prev2, pcmcnt := t.pcmcnt, pcmout := t.pcmout }

/-- `t` is `s` but for what command `i` may write. -/
def Writes (i : Instr) (s t : State) : Prop := t = ownWrites i s t

theorem Writes.refl (i : Instr) (s : State) : Writes i s s := by cases i <;> rfl

theorem Writes.trans {i : Instr} {a b c : State} (h : Writes i a b) (k : Writes i b c) : Writes i a c := by
  unfold Writes at *
  cases i <;> rw [k, h] <;> rfl

theorem HiddenOnly.writes_brPeek {s t : State} (n : Word) (h : HiddenOnly s t) : Writes (.brPeek n) s t := by
  unfold HiddenOnly at h; rw [h]; rfl

theorem CursorOnly.writes_vldHdr {s t : State} (h : CursorOnly s t) : Writes .vldHdr s t := by
  unfold CursorOnly at h; rw [h]; rfl

theorem flowBind_writes {α β : Type} {i : Instr} {s : State} {f : Flow α} {k : α → State → Flow β}
    (hf : Writes i s f.state) (hk : ∀ a t, Writes i t (k a t).state) : Writes i s (flowBind f k).state :=
  flowBind_rel (R := Writes i) (fun _ _ _ => Writes.trans) hf fun a t _ => hk a t

/-- A command that needs a slice: what holds of the state before and after its rest holds of its end. -/
theorem flowBind_needSlice {α : Type} {P : State → Prop} {info : Word} {s : State} {k : Unit → State → Flow α}
    (h : P s) (hk : s.brActive = true → P (k () s).state) : P (flowBind (needSlice info s) k).state := by
  rcases needSlice_cases info s with ⟨ha, e⟩ | ⟨-, e⟩ <;> rw [e]
  · exact hk ha
  · exact h

/-- The same of the operand check of BR.PEEK and BR.CONSUME. -/
theorem flowBind_needCount {α : Type} {P : State → Prop} {n : Word} {s : State} {k : Unit → State → Flow α}
    (h : P s) (hk : n.toNat ≤ 32 → P (k () s).state) : P (flowBind (needCount n s) k).state := by
  rcases needCount_cases n s with ⟨hn, e⟩ | ⟨-, e⟩ <;> rw [e]
  · exact hk hn
  · exact h

/-- The pseudocode of a command writes only that command's fields. -/
theorem commandFlow_writes (i : Instr) (s : State) : Writes i s (commandFlow i s).state := by
  cases i with
  | nop => rfl
  | cfgFrame w h => simp only [commandFlow]; split <;> rfl
  | cfgAudio c => simp only [commandFlow]; split <;> rfl
  | brInit len base => simp only [commandFlow]; split <;> rfl
  | brPeek n =>
    exact flowBind_needCount (P := Writes (.brPeek n) s) rfl fun _ =>
      flowBind_needSlice (P := Writes (.brPeek n) s) rfl fun _ =>
      flowBind_writes ((brPeek_frame _ _ s).writes_brPeek n) fun _ _ => rfl
  | brConsume n =>
    exact flowBind_needCount (P := Writes (.brConsume n) s) rfl fun _ =>
      flowBind_needSlice (P := Writes (.brConsume n) s) rfl fun _ => brConsume_frame _ _ s
  | brRefill => exact flowBind_needSlice (P := Writes .brRefill s) rfl fun _ => refill_hidden s
  | vldHdr =>
    refine flowBind_needSlice (P := Writes .vldHdr s) rfl fun _ => ?_
    split
    · rfl
    · refine flowBind_writes (brPeek_frame _ _ s).cursor.writes_vldHdr fun q t => ?_
      split
      · exact flowBind_writes (brConsume_frame _ _ t).writes_vldHdr fun _ _ => rfl
      · rfl
  | vldMb =>
    refine flowBind_needSlice (P := Writes .vldMb s) rfl fun _ => ?_
    split
    · exact Writes.trans (b := s.clearCoef) rfl (decodeBlocks_frame _ _)
    · rfl
  | idctBlk b => simp only [commandFlow]; split <;> rfl
  | idctMb =>
    obtain ⟨z, hz⟩ := transforms_frame [0, 1, 2, 3, 4, 5] s
    simp only [commandFlow, Flow.state_ok, hz]; rfl
  | cscMb mbx mby =>
    have hpix := cscMacroblock_frame s mbx.toNat mby.toNat
    simp only [commandFlow, Flow.state_ok]
    exact hpix
  | adpcmInit => rfl
  | adpcmDec groups base =>
    simp only [commandFlow]
    split
    · rfl
    · split
      · rfl
      · exact decodeGroups_frame _ _ s

/-! ### A step, for a property that does not look at the upkeep -/

/-- `t` is `s` but for the upkeep of a step: CMDCNT, BUSY, the fault registers, PCMOUT and the host's side of the
run. -/
def UpkeepOnly (s t : State) : Prop :=
  t = { s with
    cmdcnt := t.cmdcnt, busy := t.busy, errCode := t.errCode, errCause := t.errCause, errOp := t.errOp
    errCmd := t.errCmd, errInfo := t.errInfo, pcmout := t.pcmout, freeNext := t.freeNext, moves := t.moves
    replies := t.replies }

/-- A property that upkeep leaves alone is kept by a step when every command's pseudocode, the two input moves and the
soft reset keep it. -/
theorem step_keeps_of_upkeep {P : State → Prop} (hup : ∀ s t, UpkeepOnly s t → P s → P t)
    (hcmd : ∀ i s, P s → P (commandFlow i s).state)
    (hload : ∀ s o b, P s → o < s.cfg.ibufSize → P (s.loadByte o b))
    (hdecl : ∀ s v, P s → P (s.declareLength (cappedLength s v))) (hreset : ∀ s, P s → P s.softReset)
    {s t : State} (h : P s) (ht : step s = .next t) : P t := by
  refine step_keeps (fun s _ h => hup s _ rfl h) ?command (fun s _ _ _ _ h _ => hup s _ rfl h)
    (fun s o b h _ ho => hload s o b h ho) (fun s v h _ => hdecl s v h) hreset (fun s h => hup s _ rfl h)
    (fun s _ h => hup s _ rfl h) (fun s _ h => hup s _ rfl h) (fun s _ h => hup s _ rfl h) h ht
  case command =>
    intro s ms i t h he _ _
    have hflow := hcmd i _ (hup s { s with moves := ms, busy := true } rfl h)
    rcases exec_next he with ⟨u, hu, rfl⟩ | ⟨e, info, u, hu, rfl⟩ <;> rw [hu] at hflow <;> exact hup u _ rfl hflow

/-- No step changes the configuration (R7, R311). -/
theorem step_cfg {s t : State} (ht : step s = .next t) : t.cfg = s.cfg := by
  refine step_keeps_of_upkeep (P := fun u => u.cfg = s.cfg) ?_ ?_ (fun _ _ _ h _ => h) (fun _ _ h => h)
    (fun _ h => h) rfl ht
  · intro u v huv h; rw [huv]; exact h
  · intro i u h; rw [commandFlow_frame i u]; exact h

/-- A property that every step keeps holds all along a run (R264). -/
theorem Steps.keeps {P : State → Prop} (hstep : ∀ s t, P s → step s = .next t → P t) {s t : State}
    (hrun : Steps s t) (h : P s) : P t := by
  induction hrun with
  | refl => exact h
  | tail _ ht ih => exact hstep _ _ ih ht

/-! ### VLD.MB, for a property of the state -/

/-- `t` is `s` but for the registers that tell VLD.MB's place in a block (R27). -/
def PlaceOnly (s t : State) : Prop :=
  t = { s with vstate := t.vstate, blk := t.blk, pos := t.pos, accnt := t.accnt, escrun := t.escrun }

/-- A property that each of the operations VLD.MB is made of keeps: reading a number, looking a code up, moving on in
the block, storing a coefficient (R143 to R150). -/
structure KeptByVld (P : State → Prop) : Prop where
  readDc  : ∀ s, P s → P (brRead vldShort s.cfg.dcBits s).state
  readRaw : ∀ s, P s → P (brRead vldShort s.cfg.rawBits s).state
  codeA   : ∀ s, P s → P (lookupCode 8 s.cfg.entryA s).state
  codeB   : ∀ s, P s → P (lookupCode s.cfg.wB s.cfg.entryB s).state
  move    : ∀ s t, PlaceOnly s t → P s → P t
  store   : ∀ b i v p k s, P s → P (storeDeq b i v p k s).state

section
variable {P : State → Prop} (hP : KeptByVld P)
include hP

theorem KeptByVld.startBlock (b : Nat) (p : Plane) {s : State} (h : P s) : P (startBlock b p s).state :=
  flowBind_keeps (hP.readDc s h) fun _ t _ ht => hP.store b 0 _ p 0 t ht

theorem KeptByVld.decodePair {s : State} (h : P s) : P (decodePair s).state := by
  refine flowBind_keeps (hP.codeA s h) fun e t _ ht => ?_
  split
  · exact hP.codeB t ht
  · exact ht
  · exact ht

theorem KeptByVld.readEscape (run : Nat) {s : State} (h : P s) : P (readEscape run s).state :=
  flowBind_keeps (hP.readRaw _ (hP.move s _ rfl h)) fun _ t _ ht => hP.move t _ rfl ht

theorem KeptByVld.pairValue (e : TableEntry) {s : State} (h : P s) : P (pairValue e s).state := by
  unfold Machine.pairValue
  split
  · exact hP.readEscape e.run h
  · exact h

theorem KeptByVld.place (b : Nat) (p : Plane) (run : Nat) (v : Int) {s : State} (h : P s) :
    P (place b p run v s).state := by
  rcases place_cases b p run v s with ⟨-, e⟩ | ⟨-, -, e⟩ | ⟨-, -, e⟩ <;> rw [e]
  · exact hP.move s _ rfl h
  · exact hP.move s _ rfl h
  · exact hP.store b _ v p _ _ (hP.move s _ rfl h)

theorem KeptByVld.oneCode (b : Nat) (p : Plane) {s : State} (h : P s) : P (oneCode b p s).state := by
  refine flowBind_keeps (hP.decodePair h) fun e t _ ht => ?_
  split
  · exact hP.move t _ rfl ht
  · exact flowBind_keeps (hP.pairValue e ht) fun v u _ hu =>
      flowBind_keeps (hP.place b p e.run v hu) fun _ _ _ hw => hw

theorem KeptByVld.codeLoop (b : Nat) (p : Plane) (room : Nat) {s : State} (h : P s) :
    P (codeLoop b p room s).state := by
  induction room generalizing s with
  | zero => exact flowBind_keeps (hP.oneCode b p h) fun _ _ _ ht => ht
  | succ room ih =>
    refine flowBind_keeps (hP.oneCode b p h) fun ended t _ ht => ?_
    split
    · exact ht
    · exact ih ht

theorem KeptByVld.decodeBlocks (bs : List Nat) {s : State} (h : P s) : P (decodeBlocks bs s).state := by
  induction bs generalizing s with
  | nil => exact h
  | cons b bs ih =>
    refine flowBind_keeps ?block fun _ t _ ht => ih ht
    exact flowBind_keeps (hP.startBlock b (planeOf b) (hP.move s (s.openBlock b) rfl h)) fun _ t _ ht =>
      hP.codeLoop b (planeOf b) 63 ht

end

end Sys2Proof.Machine
end

section
/-! PROOFS. The memories along a step (R32, R60, R63, R251). -/

namespace Sys2Proof.Machine

/-- The memories' invariant looks at these fields only. -/
theorem State.MemoryOk.congr {s t : State} (h : s.MemoryOk) (hcfg : t.cfg = s.cfg) (hibuf : t.ibuf = s.ibuf)
    (hlen : t.ibufLen = s.ibufLen) (hpix : t.pix = s.pix) (hfresh : t.pixFresh = s.pixFresh)
    (hw : t.frameW = s.frameW) (hh : t.frameH = s.frameH) : t.MemoryOk where
  ibufForm := by rw [hibuf]; exact h.ibufForm
  ibufInside := by rw [hibuf, hcfg]; exact h.ibufInside
  pixForm := by rw [hpix]; exact h.pixForm
  pixInside := by rw [hpix, hcfg]; exact h.pixInside
  freshForm := by rw [hfresh]; exact h.freshForm
  freshKnown := by rw [hfresh, hpix]; exact h.freshKnown
  frameFits := by rw [hw, hh, hcfg]; exact h.frameFits
  lenCapped := by rw [hlen, hcfg]; exact h.lenCapped

theorem resetWith_memoryOk (c : Config) : (State.resetWith c).MemoryOk where
  ibufForm := rfl
  ibufInside := by simp [State.resetWith]
  pixForm := rfl
  pixInside := by simp [State.resetWith]
  freshForm := rfl
  freshKnown := by simp [State.resetWith]
  frameFits := by simp [State.resetWith]
  lenCapped := by simp [State.resetWith]

theorem setFrame_memoryOk {s : State} (h : s.MemoryOk) {w hh : Half} (hfit : frameTooLarge s w hh = false) :
    (s.setFrame w hh).MemoryOk where
  ibufForm := h.ibufForm
  ibufInside := h.ibufInside
  pixForm := h.pixForm
  pixInside := h.pixInside
  freshForm := by
    rw [State.setFrame_pixFresh]; split
    · exact h.freshForm
    · rfl
  freshKnown := by
    rw [State.setFrame_pixFresh]; split
    · exact h.freshKnown
    · simp
  frameFits := by simpa [frameTooLarge] using hfit
  lenCapped := h.lenCapped

theorem loadByte_memoryOk {s : State} (h : s.MemoryOk) {o : Nat} (b : Byte) (ho : o < s.cfg.ibufSize) :
    (s.loadByte o b).MemoryOk where
  ibufForm := Memory.wf_write _ _ _ h.ibufForm
  ibufInside := fun c hc => by
    rcases Memory.mem_write hc with rfl | hc
    · exact ho
    · exact h.ibufInside c hc
  pixForm := h.pixForm
  pixInside := h.pixInside
  freshForm := h.freshForm
  freshKnown := h.freshKnown
  frameFits := h.frameFits
  lenCapped := h.lenCapped

/-- A declared length is capped at IBUF_SIZE (R32). -/
theorem cappedLength_le (s : State) (v : Word) : (cappedLength s v).toNat ≤ s.cfg.ibufSize := by
  unfold cappedLength
  split
  · rw [BitVec.toNat_ofNat]; exact Nat.mod_le _ _
  · omega

theorem declareLength_memoryOk {s : State} (h : s.MemoryOk) (v : Word) :
    (s.declareLength (cappedLength s v)).MemoryOk where
  ibufForm := h.ibufForm
  ibufInside := h.ibufInside
  pixForm := h.pixForm
  pixInside := h.pixInside
  freshForm := h.freshForm
  freshKnown := h.freshKnown
  frameFits := h.frameFits
  lenCapped := cappedLength_le s v

theorem pixWrite_memoryOk {s : State} (h : s.MemoryOk) {o : Nat} (v : Byte) (ho : o < s.cfg.pixSize) :
    (s.pixWrite o v).MemoryOk where
  ibufForm := h.ibufForm
  ibufInside := h.ibufInside
  pixForm := Memory.wf_write _ _ _ h.pixForm
  pixInside := fun c hc => by
    rcases Memory.mem_write hc with rfl | hc
    · exact ho
    · exact h.pixInside c hc
  freshForm := offsetsRising_insert _ _ h.freshForm
  freshKnown := fun a ha => by
    rcases (mem_offsetInsert _ _ _).1 ha with rfl | ha
    · simp
    · exact Memory.read?_isSome_write _ _ _ _ (h.freshKnown a ha)
  frameFits := h.frameFits
  lenCapped := h.lenCapped

theorem storePixel_memoryOk {s : State} (h : s.MemoryOk) {o : Nat} (y cb cr : Int) (ho : o + 3 < s.cfg.pixSize) :
    (s.storePixel o y cb cr).MemoryOk := by
  have h0 := pixWrite_memoryOk h (redByte y cb cr) (o := o) (by omega)
  have h1 := pixWrite_memoryOk h0 (greenByte y cb cr) (o := o + 1) (by rw [State.pixWrite_cfg]; omega)
  have h2 := pixWrite_memoryOk h1 (blueByte y cb cr) (o := o + 2) (by simp only [State.pixWrite_cfg]; omega)
  exact pixWrite_memoryOk h2 alphaByte (o := o + 3) ho

/-- The four bytes of a pixel of the frame lie in PIX when the frame fits it (R63, R205). -/
theorem pixelOffset_inside {s : State} (h : s.MemoryOk) {x y : Nat} (hx : x < s.frameW.toNat)
    (hy : y < s.frameH.toNat) : pixelOffset s x y + 3 < s.cfg.pixSize := by
  have hrow : (y + 1) * s.frameW.toNat ≤ s.frameH.toNat * s.frameW.toNat := Nat.mul_le_mul_right _ hy
  have hfits : 4 * (s.frameH.toNat * s.frameW.toNat) ≤ s.cfg.pixSize := by
    have := h.frameFits; rwa [Nat.mul_assoc, Nat.mul_comm s.frameW.toNat] at this
  rw [Nat.succ_mul] at hrow
  unfold pixelOffset
  omega

theorem cscPixel_memoryOk {s : State} (h : s.MemoryOk) (mbx mby px py : Nat) :
    (s.cscPixel mbx mby px py).MemoryOk := by
  unfold State.cscPixel
  split
  · rename_i hin
    exact storePixel_memoryOk h _ _ _ (pixelOffset_inside h hin.1 hin.2)
  · exact h

theorem cscMacroblock_memoryOk {s : State} (h : s.MemoryOk) (mbx mby : Nat) : (s.cscMacroblock mbx mby).MemoryOk :=
  List.foldlRecOn _ _ h fun _ ht _ _ => cscPixel_memoryOk ht mbx mby _ _

theorem commandFlow_memoryOk (i : Instr) {s : State} (h : s.MemoryOk) : (commandFlow i s).state.MemoryOk := by
  cases i with
  | cfgFrame w hh =>
    simp only [commandFlow]
    split
    · exact h
    · rename_i hfit; exact setFrame_memoryOk h (by simpa using hfit)
  | cscMb mbx mby =>
    simp only [commandFlow, Flow.state_ok]
    exact cscMacroblock_memoryOk h _ _
  | _ =>
    rw [commandFlow_writes _ s, ownWrites]
    exact h.congr rfl rfl rfl rfl rfl rfl rfl

/-- Every step keeps the memories' invariant. -/
theorem step_memoryOk {s t : State} (h : s.MemoryOk) (ht : step s = .next t) : t.MemoryOk := by
  refine step_keeps_of_upkeep (P := State.MemoryOk) ?_ (fun i _ h => commandFlow_memoryOk i h)
    (fun _ _ b h ho => loadByte_memoryOk h b ho) (fun _ v h => declareLength_memoryOk h v) ?_ h ht
  · intro u v huv h
    rw [huv]; exact h.congr rfl rfl rfl rfl rfl rfl rfl
  · intro u _
    exact (resetWith_memoryOk u.cfg).congr rfl rfl rfl rfl rfl rfl rfl

end Sys2Proof.Machine
end

section
/-! PROOFS. The fault registers along a step (R31, R73, R270 to R276). -/

namespace Sys2Proof.Machine

/-- The fault invariant looks at BUSY and the five fault registers only. -/
theorem State.FaultOk.congr {s t : State} (h : s.FaultOk) (hbusy : t.busy = s.busy) (hcode : t.errCode = s.errCode)
    (hcause : t.errCause = s.errCause) (hop : t.errOp = s.errOp) (hcmd : t.errCmd = s.errCmd)
    (hinfo : t.errInfo = s.errInfo) : t.FaultOk where
  idle := by rw [hbusy]; exact h.idle
  fault := by rw [hcode, hcause, hop, hcmd, hinfo]; exact h.fault

theorem resetWith_faultOk (c : Config) : (State.resetWith c).FaultOk := ⟨rfl, .inl ⟨rfl, rfl, rfl, rfl, rfl⟩⟩

theorem clearFault_faultOk {s : State} (h : s.FaultOk) : s.clearFault.FaultOk :=
  ⟨h.idle, .inl ⟨rfl, rfl, rfl, rfl, rfl⟩⟩

/-- Fault entry leaves a legal code and cause, and BUSY = 0 (R280). -/
theorem takeFault_faultOk (s : State) (op : Byte) (e : Exc) (info : Word) : (s.takeFault op e info).FaultOk :=
  ⟨rfl, .inr (legalFault_exc e)⟩

/-- An accepted command, once BUSY is 0 again: it completed with the fault registers as they were, or took a fault. -/
theorem exec_faultOk {i : Instr} {s t : State} (ms : List HostMove) (h : s.FaultOk)
    (he : exec i { s with moves := ms, busy := true } = .next t) : State.FaultOk { t with busy := false } := by
  rcases exec_next he with ⟨u, hu, rfl⟩ | ⟨e, info, u, -, rfl⟩
  · have hframe := commandFlow_frame i { s with moves := ms, busy := true }
    rw [hu, Flow.state_ok] at hframe
    rw [hframe]
    exact h.congr h.idle.symm rfl rfl rfl rfl rfl
  · exact (takeFault_faultOk u i.opcode e info).congr rfl rfl rfl rfl rfl rfl

/-- Every step keeps the fault registers' invariant. -/
theorem step_faultOk {s t : State} (h : s.FaultOk) (ht : step s = .next t) : t.FaultOk :=
  step_keeps (P := State.FaultOk) (fun _ _ h => h.congr rfl rfl rfl rfl rfl rfl)
    (fun _ ms _ _ h he _ _ => exec_faultOk ms h he) (fun _ _ _ _ _ _ _ => takeFault_faultOk _ _ _ _)
    (fun _ _ _ h _ _ => h.congr rfl rfl rfl rfl rfl rfl) (fun _ _ h _ => h.congr rfl rfl rfl rfl rfl rfl)
    (fun s _ => (resetWith_faultOk s.cfg).congr rfl rfl rfl rfl rfl rfl) (fun _ h => clearFault_faultOk h)
    (fun _ _ h => h.congr rfl rfl rfl rfl rfl rfl) (fun _ _ h => h.congr rfl rfl rfl rfl rfl rfl)
    (fun _ _ h => h.congr rfl rfl rfl rfl rfl rfl) h ht

end Sys2Proof.Machine
end

section
/-! PROOFS. The entropy decoder's registers along a step (R27, R99, R141, R151). -/

namespace Sys2Proof.Machine

/-- The decoder's invariant looks at these fields only. -/
theorem State.VldOk.congr {s t : State} (h : s.VldOk) (hcfg : t.cfg = s.cfg) (hblk : t.blk = s.blk)
    (haccnt : t.accnt = s.accnt) (hhdr : t.hdrOk = s.hdrOk) (hq : t.qscale = s.qscale) : t.VldOk where
  blkMax := by rw [hblk]; exact h.blkMax
  accntMax := by rw [haccnt]; exact h.accntMax
  header := by rw [hhdr, hq, hcfg]; exact h.header

theorem resetWith_vldOk (c : Config) : (State.resetWith c).VldOk where
  blkMax := by simp [State.resetWith]
  accntMax := by simp [State.resetWith]
  header := by simp [State.resetWith]

theorem setSlice_vldOk (s : State) (base : Word) (len : Nat) : (s.setSlice base len).VldOk where
  blkMax := by simp
  accntMax := by simp
  header := by simp

/-- A header scale that passed VLD.HDR's test is the 16 bits read, so QSCALE holds it whole (R141). -/
theorem vldHdr_vldOk {s : State} (h : s.VldOk) : (commandFlow .vldHdr s).state.VldOk := by
  refine flowBind_needSlice h fun _ => ?_
  split
  · exact h
  · rcases brPeek_cases vldShort 16 s with ⟨-, e⟩ | ⟨-, e⟩ <;> rw [e]
    · have hq := bitsValue_lt (sliceBit s) s.bitpos.toNat 16
      generalize bitsValue (sliceBit s) s.bitpos.toNat 16 = q at hq
      have hens : (ensure 16 s).VldOk := by
        rw [ensure_hidden 16 s]; exact h.congr rfl rfl rfl rfl rfl
      simp only [flowBind_ok]
      split
      · rename_i hmem
        have hcur := brConsume_frame vldShort 16 (ensure 16 s)
        refine flowBind_keeps (P := State.VldOk) (f := brConsume vldShort 16 (ensure 16 s)) ?_ fun _ t hok ht => ?_
        · rw [hcur]; exact hens.congr rfl rfl rfl rfl rfl
        · rw [hok, Flow.state_ok] at hcur
          refine ⟨ht.blkMax, ht.accntMax, fun _ => ?_⟩
          show (BitVec.ofNat 16 q).toNat ∈ t.cfg.qdom
          rw [BitVec.toNat_ofNat, Nat.mod_eq_of_lt hq, hcur]
          exact hmem
      · exact hens
    · rw [flowBind_raised, Flow.state_raised, ensure_hidden 16 s]
      exact h.congr rfl rfl rfl rfl rfl

/-! ### BLK and ACCNT inside VLD.MB -/

/-- How a flow ends: with `P` when it goes on, with `Q` when it raises. -/
def Flow.Ends {α : Type} (P Q : State → Prop) : Flow α → Prop
  | .ok _ s       => P s
  | .raised _ _ s => Q s

theorem Flow.Ends.bind {α β : Type} {P Q R : State → Prop} {f : Flow α} {k : α → State → Flow β} (hf : f.Ends P Q)
    (hk : ∀ a t, P t → (k a t).Ends R Q) : (flowBind f k).Ends R Q := by
  cases f with
  | ok a t => exact hk a t hf
  | raised e info t => exact hf

/-- A flow that leaves `P` however it ends. -/
theorem Flow.Ends.of_state {α : Type} {P Q : State → Prop} {f : Flow α} (h : P f.state) (hPQ : ∀ s, P s → Q s) :
    f.Ends P Q := by
  cases f with
  | ok a t => exact h
  | raised e info t => exact hPQ t h

theorem Flow.Ends.state {α : Type} {P Q : State → Prop} {f : Flow α} (h : f.Ends P Q) (hPQ : ∀ s, P s → Q s) :
    Q f.state := by
  cases f with
  | ok a t => exact hPQ t h
  | raised e info t => exact h

/-- BLK names a block and ACCNT is at most `n`. -/
def CountAtMost (n : Nat) (s : State) : Prop := s.blk.toNat ≤ 5 ∧ s.accnt.toNat ≤ n

theorem CountAtMost.le {m n : Nat} (hmn : m ≤ n) {s : State} (h : CountAtMost m s) : CountAtMost n s :=
  ⟨h.1, Nat.le_trans h.2 hmn⟩

theorem CountAtMost.cursor {n : Nat} {s t : State} (h : CountAtMost n s) (hst : CursorOnly s t) :
    CountAtMost n t := by
  rw [hst]; exact h

theorem storeDeq_count {n : Nat} (b i : Nat) (v : Int) (p : Plane) (k : Nat) {s : State} (h : CountAtMost n s) :
    CountAtMost n (storeDeq b i v p k s).state := by
  rcases storeDeq_cases b i v p k s with ⟨-, -, e⟩ | ⟨-, e⟩ <;> rw [e] <;> exact h

theorem startBlock_count {n : Nat} (b : Nat) (p : Plane) {s : State} (h : CountAtMost n s) :
    CountAtMost n (startBlock b p s).state :=
  flowBind_keeps (h.cursor (brRead_frame _ _ s)) fun _ _ _ ht => storeDeq_count b 0 _ p 0 ht

theorem pairValue_count {n : Nat} (e : TableEntry) {s : State} (h : CountAtMost n s) :
    CountAtMost n (pairValue e s).state := by
  unfold pairValue
  split
  · have hs : CountAtMost n { s with vstate := .readEscape, escrun := BitVec.ofNat 6 e.run } := h
    exact flowBind_keeps (hs.cursor (brRead_frame _ _ _)) fun _ _ _ ht => ht
  · exact h

/-- `Place` counts the coefficient first: at most 63 when it goes on, 64 when it raises (R146). -/
theorem place_count (b : Nat) (p : Plane) (run : Nat) (v : Int) {s : State} (h : CountAtMost 63 s) :
    (place b p run v s).Ends (CountAtMost 63) (CountAtMost 64) := by
  obtain ⟨hblk, haccnt⟩ := h
  have hnext : (s.accnt + 1#7).toNat ≤ 64 := by
    rw [BitVec.toNat_add, BitVec.toNat_ofNat]; omega
  rcases place_cases b p run v s with ⟨-, e⟩ | ⟨-, -, e⟩ | ⟨hle, -, e⟩ <;> rw [e]
  · exact ⟨hblk, hnext⟩
  · exact ⟨hblk, hnext⟩
  · exact .of_state (storeDeq_count b _ v p _ ⟨hblk, hle⟩) fun _ => CountAtMost.le (by omega)

theorem oneCode_count (b : Nat) (p : Plane) {s : State} (h : CountAtMost 63 s) :
    (oneCode b p s).Ends (CountAtMost 63) (CountAtMost 64) := by
  refine .bind (.of_state (h.cursor (decodePair_frame s)) fun _ => CountAtMost.le (by omega)) fun e t ht => ?_
  split
  · exact ht
  · exact .bind (.of_state (pairValue_count e ht) fun _ => CountAtMost.le (by omega)) fun v u hu =>
      .bind (place_count b p e.run v hu) fun _ _ hw => hw

theorem codeLoop_count (b : Nat) (p : Plane) (room : Nat) {s : State} (h : CountAtMost 63 s) :
    (codeLoop b p room s).Ends (CountAtMost 63) (CountAtMost 64) := by
  induction room generalizing s with
  | zero => exact .bind (oneCode_count b p h) fun _ _ ht => ht
  | succ room ih =>
    refine .bind (oneCode_count b p h) fun ended t ht => ?_
    split
    · exact ht
    · exact ih ht

theorem openBlock_count {b : Nat} (hb : b ≤ 5) (s : State) : CountAtMost 63 (s.openBlock b) := by
  refine ⟨?_, by simp⟩
  rw [State.openBlock_blk, BitVec.toNat_ofNat]; omega

theorem decodeBlock_count {b : Nat} (hb : b ≤ 5) (s : State) :
    (decodeBlock b s).Ends (CountAtMost 63) (CountAtMost 64) :=
  .bind (.of_state (startBlock_count b _ (openBlock_count hb s)) fun _ => CountAtMost.le (by omega)) fun _ _ ht =>
    codeLoop_count b _ 63 ht

theorem decodeBlocks_count {bs : List Nat} (hbs : ∀ b ∈ bs, b ≤ 5) {s : State} (h : CountAtMost 64 s) :
    CountAtMost 64 (decodeBlocks bs s).state := by
  induction bs generalizing s with
  | nil => exact h
  | cons b bs ih =>
    have hblock := decodeBlock_count (hbs b (by simp)) s
    refine flowBind_keeps (hblock.state fun _ => CountAtMost.le (by omega)) fun _ t _ ht => ?_
    exact ih (fun c hc => hbs c (by simp [hc])) ht

theorem vldMb_vldOk {s : State} (h : s.VldOk) : (commandFlow .vldMb s).state.VldOk := by
  refine flowBind_needSlice h fun _ => ?_
  split
  · obtain ⟨hblk, haccnt⟩ := decodeBlocks_count (bs := [0, 1, 2, 3, 4, 5]) (s := s.clearCoef) (by simp)
      ⟨h.blkMax, h.accntMax⟩
    refine ⟨hblk, haccnt, ?_⟩
    rw [decodeBlocks_frame [0, 1, 2, 3, 4, 5] s.clearCoef]
    exact h.header
  · exact h

theorem commandFlow_vldOk (i : Instr) {s : State} (h : s.VldOk) : (commandFlow i s).state.VldOk := by
  cases i with
  | brInit len base =>
    simp only [commandFlow]
    split
    · exact h
    · exact setSlice_vldOk s base len.toNat
  | vldHdr => exact vldHdr_vldOk h
  | vldMb => exact vldMb_vldOk h
  | _ =>
    rw [commandFlow_writes _ s, ownWrites]
    exact h.congr rfl rfl rfl rfl rfl

/-- Every step keeps the decoder's invariant. -/
theorem step_vldOk {s t : State} (h : s.VldOk) (ht : step s = .next t) : t.VldOk := by
  refine step_keeps_of_upkeep (P := State.VldOk) ?_ (fun i _ h => commandFlow_vldOk i h)
    (fun _ _ _ h _ => h.congr rfl rfl rfl rfl rfl) (fun _ _ h => h.congr rfl rfl rfl rfl rfl) ?_ h ht
  · intro u v huv h
    rw [huv]; exact h.congr rfl rfl rfl rfl rfl
  · intro u _
    exact (resetWith_vldOk u.cfg).congr rfl rfl rfl rfl rfl

end Sys2Proof.Machine
end

section
/-! PROOFS. The work arrays along a step (R21, R22, R150) and the range of the inverse DCT (R180 to R186). -/

namespace Sys2Proof.Machine

/-! ### The range of the inverse DCT -/

theorem sum8_eq_sum (f : Nat → Int) : sum8 f = ∑ u ∈ Finset.range 8, f u := by
  simp [sum8, Finset.sum_range_succ]

/-- Every row of K has the same sum of magnitudes (R180). -/
theorem sum_abs_idctK {x : Nat} (hx : x < 8) : ∑ u ∈ Finset.range 8, |idctK x u| = 21641 := by
  revert x; decide

theorem abs_sum8_idctK_le {x : Nat} (hx : x < 8) {f : Nat → Int} {M : Int} (hf : ∀ u < 8, |f u| ≤ M) :
    |sum8 fun u => idctK x u * f u| ≤ 21641 * M := by
  calc |sum8 fun u => idctK x u * f u|
      = |∑ u ∈ Finset.range 8, idctK x u * f u| := by rw [sum8_eq_sum]
    _ ≤ ∑ u ∈ Finset.range 8, |idctK x u * f u| := Finset.abs_sum_le_sum_abs _ _
    _ ≤ ∑ u ∈ Finset.range 8, |idctK x u| * M := Finset.sum_le_sum fun u hu => by
        rw [abs_mul]; exact mul_le_mul_of_nonneg_left (hf u (Finset.mem_range.1 hu)) (abs_nonneg _)
    _ = 21641 * M := by rw [← Finset.sum_mul, sum_abs_idctK hx]

/-- The row pass over 16-bit coefficients (R181). -/
theorem abs_idctRow_le {F : Nat → Int} (hF : ∀ i < 64, -32768 ≤ F i ∧ F i ≤ 32767) {v x : Nat} (hv : v < 8)
    (hx : x < 8) : |idctRow F v x| ≤ 1385024 := by
  have hsum := abs_sum8_idctK_le hx (f := fun u => F (8 * v + u)) (M := 32768) fun u hu =>
    abs_le.2 ⟨(hF _ (by omega)).1, by have := (hF (8 * v + u) (by omega)).2; omega⟩
  rw [abs_le] at hsum ⊢
  unfold idctRow asr
  omega

/-- The transform of 16-bit coefficients stays in R186's range. -/
theorem idctSample_range {F : Nat → Int} (hF : ∀ i < 64, -32768 ≤ F i ∧ F i ≤ 32767) {y x : Nat} (hy : y < 8)
    (hx : x < 8) : -228678 ≤ idctSample F y x ∧ idctSample F y x ≤ 228678 := by
  have hsum := abs_sum8_idctK_le hy (f := fun v => idctRow F v x) (M := 1385024) fun v hv => abs_idctRow_le hF hv hx
  rw [abs_le] at hsum
  unfold idctSample idctCol asr
  omega

/-! ### What is stored reads back -/

/-- A 32-bit element holds every number the arrays' ranges allow (R21, R22). -/
theorem toInt_ofInt_word {v : Int} (hlo : -228678 ≤ v) (hhi : v ≤ 228678) : (BitVec.ofInt 32 v).toInt = v := by
  rw [BitVec.toInt_ofInt]
  exact Int.bmod_eq_of_le (by omega) (by omega)

/-- After storing one element of COEF, an element reads the stored number or as before, wherever the store went. -/
theorem coefAt_setCoef_or (s : State) (b i : Nat) (v : Int) (c j : Nat) :
    (s.setCoef b i v).coefAt c j = (BitVec.ofInt 32 v).toInt ∨ (s.setCoef b i v).coefAt c j = s.coefAt c j := by
  unfold State.coefAt
  rw [State.coefBlock_setCoef]
  split
  · rename_i hc
    rw [hc.1]
    unfold blockGet
    rw [Vector.getElem?_setIfInBounds]
    split
    · split
      · exact .inl rfl
      · rename_i hi hout
        subst hi
        exact .inr (by rw [Vector.getElem?_eq_none (by omega)])
    · exact .inr rfl
  · exact .inr rfl

/-- A transformed block reads the transform's samples, every other block as before (R183). -/
theorem spatAt_transform (s : State) (b c : Nat) {i : Nat} (hi : i < 64) :
    (s.transform b).spatAt c i =
      if c = b ∧ b < 6 then (BitVec.ofInt 32 (idctSample (s.coefAt b) (i / 8) (i % 8))).toInt
      else s.spatAt c i := by
  unfold State.spatAt State.transform
  rw [State.spatBlock_setSpatBlock]
  split
  · have hget := idctBlock_get (s.coefBlock b) (y := i / 8) (x := i % 8) (by omega) (by omega)
    rwa [Nat.div_add_mod] at hget
  · rfl

/-! ### The invariant -/

/-- The arrays' invariant looks at COEF and SPAT only. -/
theorem State.ArraysOk.congr {s t : State} (h : s.ArraysOk) (hcoef : t.coef = s.coef) (hspat : t.spat = s.spat) :
    t.ArraysOk where
  coefRange := by unfold State.coefAt State.coefBlock; rw [hcoef]; exact h.coefRange
  spatRange := by unfold State.spatAt State.spatBlock; rw [hspat]; exact h.spatRange

theorem clearCoef_arraysOk {s : State} (h : s.ArraysOk) : s.clearCoef.ArraysOk where
  coefRange := fun b _ i _ => by rw [State.coefAt_clearCoef]; omega
  spatRange := h.spatRange

theorem resetWith_arraysOk (c : Config) : (State.resetWith c).ArraysOk := by
  have hcoef : ∀ b i, (State.resetWith c).coefAt b i = 0 := (State.resetWith c).coefAt_clearCoef
  have hspat : ∀ b i, (State.resetWith c).spatAt b i = 0 := (State.resetWith c).coefAt_clearCoef
  exact ⟨fun b _ i _ => by rw [hcoef]; omega, fun b _ i _ => by rw [hspat]; omega⟩

theorem setCoef_arraysOk {s : State} (h : s.ArraysOk) (b i : Nat) {v : Int} (hlo : -32768 ≤ v) (hhi : v ≤ 32767) :
    (s.setCoef b i v).ArraysOk where
  coefRange := fun c hc j hj => by
    rcases coefAt_setCoef_or s b i v c j with e | e <;> rw [e]
    · rw [toInt_ofInt_word (by omega) (by omega)]; exact ⟨hlo, hhi⟩
    · exact h.coefRange c hc j hj
  spatRange := h.spatRange

theorem transform_arraysOk {s : State} (h : s.ArraysOk) (b : Nat) : (s.transform b).ArraysOk where
  coefRange := h.coefRange
  spatRange := fun c hc i hi => by
    rw [spatAt_transform s b c hi]
    split
    · rename_i hb
      obtain ⟨hlo, hhi⟩ := idctSample_range (h.coefRange b hb.2) (y := i / 8) (x := i % 8) (by omega) (by omega)
      rw [toInt_ofInt_word hlo hhi]
      exact ⟨hlo, hhi⟩
    · exact h.spatRange c hc i hi

theorem State.ArraysOk.cursor {s t : State} (h : s.ArraysOk) (hst : CursorOnly s t) : t.ArraysOk := by
  rw [hst]; exact h.congr rfl rfl

/-- VLD.MB stores a product only when a 16-bit register can hold it (R150). -/
theorem arraysOk_keptByVld : KeptByVld State.ArraysOk where
  readDc := fun s h => h.cursor (brRead_frame _ _ s)
  readRaw := fun s h => h.cursor (brRead_frame _ _ s)
  codeA := fun s h => h.cursor (lookupCode_frame _ _ s)
  codeB := fun s h => h.cursor (lookupCode_frame _ _ s)
  move := fun s t hst h => by rw [hst]; exact h.congr rfl rfl
  store := fun b i v p k s h => by
    rcases storeDeq_cases b i v p k s with ⟨hlo, hhi, e⟩ | ⟨-, e⟩ <;> rw [e]
    · exact setCoef_arraysOk h b i hlo hhi
    · exact h

theorem commandFlow_arraysOk (i : Instr) {s : State} (h : s.ArraysOk) : (commandFlow i s).state.ArraysOk := by
  cases i with
  | vldMb =>
    refine flowBind_needSlice h fun _ => ?_
    split
    · exact arraysOk_keptByVld.decodeBlocks _ (clearCoef_arraysOk h)
    · exact h
  | idctBlk b =>
    simp only [commandFlow]
    split
    · exact h
    · exact transform_arraysOk h b.toNat
  | idctMb =>
    simp only [commandFlow, Flow.state_ok]
    exact List.foldlRecOn _ _ h fun _ ht b _ => transform_arraysOk ht b
  | _ =>
    rw [commandFlow_writes _ s, ownWrites]
    exact h.congr rfl rfl

/-- Every step keeps the arrays' invariant. -/
theorem step_arraysOk {s t : State} (h : s.ArraysOk) (ht : step s = .next t) : t.ArraysOk := by
  refine step_keeps_of_upkeep (P := State.ArraysOk) ?_ (fun i _ h => commandFlow_arraysOk i h)
    (fun _ _ _ h _ => h.congr rfl rfl) (fun _ _ h => h.congr rfl rfl) ?_ h ht
  · intro u v huv h
    rw [huv]; exact h.congr rfl rfl
  · intro u _
    exact (resetWith_arraysOk u.cfg).congr rfl rfl

end Sys2Proof.Machine
end

section
/-! PROOFS. The BitReader along a step (R25, R127, R323). -/

namespace Sys2Proof.Machine

/-! ### The invariant outside the commands -/

/-- A slice that starts, or none at all, has nothing in the accumulator. -/
theorem bitReaderOk_of_start {s : State} (hbit : s.bitpos = 0#32) (hnv : s.nvalid = 0) (hw : s.wptr = 0#32)
    (hacc : s.acc = 0#48) (hwords : s.brNbits.toNat % 16 = 0) (hmax : s.brNbits.toNat < 2 ^ 28)
    (hin : s.brActive = false → s.brNbits = 0#32 ∧ s.hdrOk = false) : s.BitReaderOk where
  posInside := by simp [hbit]
  wholeWords := hwords
  bounded := hmax
  inactive := hin
  validMax := by omega
  pulled := by simp [hbit, hnv, hw]
  pulledMax := by simp [hw]
  accSmall := by simp [hacc, hnv]
  accBits := fun _ t ht => by omega

theorem resetWith_bitReaderOk (c : Config) : (State.resetWith c).BitReaderOk :=
  bitReaderOk_of_start rfl rfl rfl rfl rfl (by simp [State.resetWith]) fun _ => ⟨rfl, rfl⟩

theorem softReset_bitReaderOk (s : State) : s.softReset.BitReaderOk :=
  bitReaderOk_of_start rfl rfl rfl rfl rfl (by simp [State.softReset, State.resetWith]) fun _ => ⟨rfl, rfl⟩

/-- A slice has fewer than 2^28 bits, because its length is a 24-bit operand (R68, R265). -/
theorem setSlice_bitReaderOk (s : State) (base : Word) (len : BitVec 24) : (s.setSlice base len.toNat).BitReaderOk := by
  have hbits : (s.setSlice base len.toNat).brNbits.toNat = 16 * (len.toNat / 2) := by
    rw [State.setSlice_brNbits, BitVec.toNat_ofNat]; omega
  exact bitReaderOk_of_start rfl rfl rfl rfl (by omega) (by omega) fun h => by simp at h

/-- The host moving input keeps the invariant as long as it leaves the slice's bits alone or is noted (R323). -/
theorem State.BitReaderOk.of_input {s t : State} (h : s.BitReaderOk)
    (ht : t = { s with ibuf := t.ibuf, ibufLen := t.ibufLen, sliceRewritten := t.sliceRewritten })
    (hbits : t.sliceRewritten = false →
      s.sliceRewritten = false ∧ ∀ i < s.brNbits.toNat, sliceBit t i = sliceBit s i) : t.BitReaderOk := by
  generalize t.ibuf = ib, t.ibufLen = il, t.sliceRewritten = sr at ht
  subst ht
  refine ⟨h.posInside, h.wholeWords, h.bounded, h.inactive, h.validMax, h.pulled, h.pulledMax, h.accSmall, ?_⟩
  intro hr j hj
  obtain ⟨hold, hsame⟩ := hbits hr
  have hpulled := h.pulled
  have hmax := h.pulledMax
  change j < s.nvalid at hj
  change s.acc.getLsbD (s.nvalid - 1 - j) = _
  rw [hsame _ (by show s.bitpos.toNat + j < _; omega)]
  exact h.accBits hold j hj

theorem ibufRead_loadByte (s : State) (o : Nat) (b : Byte) (a : Nat) :
    (s.loadByte o b).ibufRead a = if a = o then b else s.ibufRead a := by
  unfold State.ibufRead
  rw [State.loadByte_ibuf, Memory.read?_write, State.loadByte_ibufEpoch]
  split <;> rfl

/-- A byte loaded outside the slice changes none of its bits (R65, R120). -/
theorem sliceBit_loadByte {s : State} (hwords : s.brNbits.toNat % 16 = 0) {o : Nat} (b : Byte)
    (ho : ¬(s.brBase.toNat ≤ o ∧ o < sliceEnd s)) {i : Nat} (hi : i < s.brNbits.toNat) :
    sliceBit (s.loadByte o b) i = sliceBit s i := by
  unfold sliceEnd at ho
  have hoff : sliceWordOffset (s.loadByte o b) (i / 16) = s.brBase.toNat + 2 * (i / 16) := rfl
  unfold sliceBit sliceWord
  rw [ibufRead_loadByte, ibufRead_loadByte, hoff, if_neg (by omega), if_neg (by omega)]
  rfl

theorem loadByte_bitReaderOk {s : State} (h : s.BitReaderOk) (o : Nat) (b : Byte) : (s.loadByte o b).BitReaderOk := by
  refine h.of_input rfl fun hr => ?_
  simp only [State.loadByte_sliceRewritten, Bool.or_eq_false_iff] at hr
  obtain ⟨hold, hout⟩ := hr
  refine ⟨hold, fun i hi => ?_⟩
  have hact : s.brActive = true := by
    by_contra hno
    rw [(h.inactive (by simpa using hno)).1] at hi
    simp at hi
  exact sliceBit_loadByte h.wholeWords b (by simpa [hact] using hout) hi

theorem declareLength_bitReaderOk {s : State} (h : s.BitReaderOk) (n : Word) : (s.declareLength n).BitReaderOk := by
  refine h.of_input rfl fun hr => ?_
  simp only [State.declareLength_sliceRewritten, Bool.or_eq_false_iff] at hr
  exact ⟨hr.1, fun _ _ => rfl⟩

/-! ### The commands -/

/-- The BitReader's invariant under a well-formed configuration, whose code and number lengths the accumulator can
hold (R7, R126). -/
structure StreamOk (s : State) : Prop where
  wellFormed : s.cfg.wellFormed = true
  reader     : s.BitReaderOk

theorem StreamOk.cursor {s t : State} (h : StreamOk s) (hst : CursorOnly s t) (ht : t.BitReaderOk) : StreamOk t :=
  ⟨by rw [hst]; exact h.wellFormed, ht⟩

/-- Looking up a code keeps the invariant when the key and every code fit the accumulator. -/
theorem lookupCode_ok {bits : Nat} (hbits : bits ≤ 32) {entry : Nat → TableEntry}
    (hlen : ∀ k, (entry k).kind ≠ .invalid → (entry k).len ≤ 32) {s : State} (h : s.BitReaderOk) :
    (lookupCode bits entry s).state.BitReaderOk := by
  have hens := ensure_ok hbits h
  rcases lookupCode_cases bits entry s with ⟨-, e⟩ | ⟨hk, -, e⟩ | ⟨hk, hroom, e⟩ <;> rw [e]
  · exact hens
  · exact ensure_ok (hlen _ hk) hens
  · exact advance_ok (ensure_ok (hlen _ hk) hens) ((ensure_enough (hlen _ hk) hens).2 (by simpa using hroom))

theorem streamOk_keptByVld : KeptByVld StreamOk where
  readDc := fun s h => by
    obtain ⟨-, -, -, -, hdc, -⟩ := wellFormed_parts h.wellFormed
    exact h.cursor (brRead_frame _ _ s) (brRead_ok (by omega) _ h.reader)
  readRaw := fun s h => by
    obtain ⟨-, -, -, -, -, hraw⟩ := wellFormed_parts h.wellFormed
    exact h.cursor (brRead_frame _ _ s) (brRead_ok (by omega) _ h.reader)
  codeA := fun s h => h.cursor (lookupCode_frame _ _ s) <| lookupCode_ok (by omega)
    (fun k hk => by have := entryA_len h.wellFormed hk; omega) h.reader
  codeB := fun s h => by
    obtain ⟨-, -, -, hwB, -, -⟩ := wellFormed_parts h.wellFormed
    exact h.cursor (lookupCode_frame _ _ s) <| lookupCode_ok (by omega)
      (fun k hk => by have := entryB_len h.wellFormed hk; omega) h.reader
  move := fun s t hst h => by
    rw [hst]
    exact ⟨h.wellFormed, h.reader.congr rfl rfl rfl rfl rfl rfl rfl rfl rfl rfl rfl⟩
  store := fun b i v p k s h => by
    rcases storeDeq_cases b i v p k s with ⟨-, -, e⟩ | ⟨-, e⟩ <;> rw [e]
    · exact ⟨h.wellFormed, h.reader.congr rfl rfl rfl rfl rfl rfl rfl rfl rfl rfl rfl⟩
    · exact h

/-- VLD.HDR reads 16 bits, and its header belongs to an active slice (R141). -/
theorem vldHdr_bitReaderOk {s : State} (h : s.BitReaderOk) : (commandFlow .vldHdr s).state.BitReaderOk := by
  refine flowBind_needSlice h fun hact => ?_
  split
  · exact h
  · refine flowBind_keeps (brPeek_ok (by omega) _ h) fun q t hq ht => ?_
    split
    · refine flowBind_keeps (brConsume_ok (by omega) _ ht) fun _ u hu hok => ?_
      have hpeek := brPeek_frame vldShort 16 s
      have hcons := brConsume_frame vldShort 16 t
      rw [hq, Flow.state_ok] at hpeek
      rw [hu, Flow.state_ok] at hcons
      have hactive : u.brActive = true := by rw [hcons, hpeek]; exact hact
      exact ⟨hok.posInside, hok.wholeWords, hok.bounded, fun hno => absurd (hactive.symm.trans hno) (by simp),
        hok.validMax, hok.pulled, hok.pulledMax, hok.accSmall, hok.accBits⟩
    · exact ht

theorem commandFlow_bitReaderOk (i : Instr) {s : State} (h : StreamOk s) :
    (commandFlow i s).state.BitReaderOk := by
  cases i with
  | brInit len base =>
    simp only [commandFlow]
    split
    · exact h.reader
    · exact setSlice_bitReaderOk s base len
  | brPeek n =>
    exact flowBind_needCount h.reader fun hn => flowBind_needSlice h.reader fun _ =>
      flowBind_keeps (brPeek_ok hn _ h.reader) fun _ _ _ ht =>
        ht.congr rfl rfl rfl rfl rfl rfl rfl rfl rfl rfl rfl
  | brConsume n =>
    exact flowBind_needCount h.reader fun hn => flowBind_needSlice h.reader fun _ => brConsume_ok hn _ h.reader
  | brRefill => exact flowBind_needSlice h.reader fun _ => refill_ok h.reader
  | vldHdr => exact vldHdr_bitReaderOk h.reader
  | vldMb =>
    refine flowBind_needSlice h.reader fun _ => ?_
    split
    · have hclear : StreamOk s.clearCoef :=
        ⟨h.wellFormed, h.reader.congr rfl rfl rfl rfl rfl rfl rfl rfl rfl rfl rfl⟩
      exact (streamOk_keptByVld.decodeBlocks _ hclear).reader
    · exact h.reader
  | _ =>
    rw [commandFlow_writes _ s, ownWrites]
    exact h.reader.congr rfl rfl rfl rfl rfl rfl rfl rfl rfl rfl rfl

theorem commandFlow_streamOk (i : Instr) {s : State} (h : StreamOk s) : StreamOk (commandFlow i s).state :=
  ⟨by rw [commandFlow_frame i s]; exact h.wellFormed, commandFlow_bitReaderOk i h⟩

/-- Every step keeps the BitReader's invariant under a well-formed configuration. -/
theorem step_streamOk {s t : State} (h : StreamOk s) (ht : step s = .next t) : StreamOk t := by
  refine step_keeps_of_upkeep (P := StreamOk) ?_ (fun i _ h => commandFlow_streamOk i h)
    (fun _ o b h _ => ⟨h.wellFormed, loadByte_bitReaderOk h.reader o b⟩)
    (fun _ _ h => ⟨h.wellFormed, declareLength_bitReaderOk h.reader _⟩)
    (fun u h => ⟨h.wellFormed, softReset_bitReaderOk u⟩) h ht
  intro u v huv h
  rw [huv]
  exact ⟨h.wellFormed, h.reader.congr rfl rfl rfl rfl rfl rfl rfl rfl rfl rfl rfl⟩

end Sys2Proof.Machine
end

section
/-! PROOFS. Every state a host can reach (R7, R25, R263, R264). -/

namespace Sys2Proof.Machine

/-- What holds all along a run with configuration `c`. -/
structure Legal (c : Config) (s : State) : Prop where
  config : s.cfg = c
  memory : s.MemoryOk
  stream : StreamOk s
  vld    : s.VldOk
  arrays : s.ArraysOk
  fault  : s.FaultOk

/-- Reset has every invariant, whatever the host will do (R39, R263). -/
theorem resetWith_legal {c : Config} (hc : c.wellFormed = true) (ms : List HostMove) :
    Legal c { State.resetWith c with moves := ms } where
  config := rfl
  memory := (resetWith_memoryOk c).congr rfl rfl rfl rfl rfl rfl rfl
  stream := ⟨hc, (resetWith_bitReaderOk c).congr rfl rfl rfl rfl rfl rfl rfl rfl rfl rfl rfl⟩
  vld := (resetWith_vldOk c).congr rfl rfl rfl rfl rfl
  arrays := (resetWith_arraysOk c).congr rfl rfl
  fault := (resetWith_faultOk c).congr rfl rfl rfl rfl rfl rfl

theorem step_legal {c : Config} {s t : State} (h : Legal c s) (ht : step s = .next t) : Legal c t where
  config := (step_cfg ht).trans h.config
  memory := step_memoryOk h.memory ht
  stream := step_streamOk h.stream ht
  vld := step_vldOk h.vld ht
  arrays := step_arraysOk h.arrays ht
  fault := step_faultOk h.fault ht

theorem Reachable.legal {c : Config} {s : State} (hc : c.wellFormed = true) (h : Reachable c s) : Legal c s := by
  obtain ⟨ms, hrun⟩ := h
  exact hrun.keeps (fun _ _ => step_legal) (resetWith_legal hc ms)

/-- Settles O57: the invariants hold at reset and every step keeps them, so they hold all along a run. -/
theorem reachableStatesHaveEveryInvariant : Obligations.ReachableStatesHaveEveryInvariant := by
  intro c s hc hs
  obtain ⟨hcfg, hmemory, hstream, hvld, harrays, hfault⟩ := hs.legal hc
  exact ⟨hcfg, hmemory, hstream.reader, hvld, harrays, hfault⟩

end Sys2Proof.Machine
end

section
/-! PROOFS. What a step keeps, invariant by invariant (R21 to R32, R127, R270 to R276), and the reset state. -/

namespace Sys2Proof.Machine

/-- Settles O18: the code and number lengths of a well-formed configuration fit the accumulator, and a host move that
touches the slice's bits is noted. -/
theorem everyStepKeepsTheBitReader : Obligations.EveryStepKeepsTheBitReader := fun _ _ hc h ht =>
  (step_streamOk ⟨hc, h⟩ ht).reader

/-- Settles O52: CSC.MB writes inside the frame, the frame fits PIX, and the host's two input moves are capped. -/
theorem everyStepKeepsTheMemories : Obligations.EveryStepKeepsTheMemories := fun _ _ => step_memoryOk

/-- Settles O53: VLD.MB tests each product before it stores it, and the rows of K bound both passes of the IDCT. -/
theorem everyStepKeepsTheWorkArrays : Obligations.EveryStepKeepsTheWorkArrays := fun _ _ => step_arraysOk

/-- Settles O54: VLD.MB counts at most one coefficient past 63 before it raises, and VLD.HDR tests what it stores. -/
theorem everyStepKeepsTheDecoderState : Obligations.EveryStepKeepsTheDecoderState := fun _ _ => step_vldOk

/-- Settles O55: fault entry is the only writer of a code, and every exception's code and cause are legal. -/
theorem everyStepKeepsTheFaultRegisters : Obligations.EveryStepKeepsTheFaultRegisters := fun _ _ => step_faultOk

/-- Settles O56: every invariant holds at reset, for every configuration. -/
theorem resetHasEveryInvariant : Obligations.ResetHasEveryInvariant := fun c =>
  ⟨resetWith_memoryOk c, resetWith_bitReaderOk c, resetWith_vldOk c, resetWith_arraysOk c, resetWith_faultOk c⟩

end Sys2Proof.Machine
end

section
/-! PROOFS. How a command ends, and which command writes what (R21 to R32, R75, R256, R280). -/

namespace Sys2Proof.Machine

/-- Only a command with a row of faults in R277's matrix raises. -/
theorem allowedFaults_ne_nil_of_raised {i : Instr} {s t : State} {e : Exc} {info : Word}
    (h : commandFlow i s = .raised e info t) : allowedFaults i ≠ [] := by
  cases i with
  | nop | idctMb | cscMb | adpcmInit => simp [commandFlow] at h
  | _ => simp [allowedFaults]

/-- CMDCNT, the fault registers and BUSY after a command: it completed, or it took a fault (R24, R256, R280). -/
theorem exec_upkeep {i : Instr} {s t : State} (he : exec i s = .next t) :
    (t.cmdcnt = s.cmdcnt + 1#32 ∧ t.errCode = s.errCode ∧ t.errCause = s.errCause ∧ t.errOp = s.errOp ∧
      t.errCmd = s.errCmd ∧ t.errInfo = s.errInfo ∧ t.busy = s.busy) ∨
    (allowedFaults i ≠ [] ∧ t.cmdcnt = s.cmdcnt ∧ t.errCode ≠ 0#8 ∧ t.errOp = i.opcode ∧ t.errCmd = s.cmdcnt ∧
      t.busy = false) := by
  have hframe := commandFlow_frame i s
  rcases exec_next he with ⟨u, hu, rfl⟩ | ⟨e, info, u, hu, rfl⟩
  · rw [hu, Flow.state_ok] at hframe
    rw [hframe]
    exact .inl ⟨rfl, rfl, rfl, rfl, rfl, rfl, rfl⟩
  · rw [hu, Flow.state_raised] at hframe
    have hcnt : u.cmdcnt = s.cmdcnt := by rw [hframe]
    exact .inr ⟨allowedFaults_ne_nil_of_raised hu, hcnt, excCode_ne_zero e, rfl, hcnt, rfl⟩

/-- Settles O40: a command's pseudocode leaves the upkeep alone, and its end is a completion or a fault entry. -/
theorem commandCompletesOrFaults : Obligations.CommandCompletesOrFaults := by
  intro i s
  obtain ⟨t, he⟩ := exec_total i s
  refine ⟨t, he, (exec_upkeep he).imp_right ?_⟩
  rintro ⟨-, hcnt, hcode, hop, hcmd, hbusy⟩
  exact ⟨hcnt, hcode, hop, hcmd, hbusy⟩

/-- Besides its own fields a command changes CMDCNT, the fault registers and BUSY at most (R281). -/
theorem exec_ownWrites {i : Instr} {s t : State} (he : exec i s = .next t) :
    t = { ownWrites i s t with
      cmdcnt := t.cmdcnt, busy := t.busy, errCode := t.errCode, errCause := t.errCause, errOp := t.errOp
      errCmd := t.errCmd, errInfo := t.errInfo } := by
  have hown := commandFlow_writes i s
  unfold Writes at hown
  rcases exec_next he with ⟨u, hu, rfl⟩ | ⟨e, info, u, hu, rfl⟩
  · rw [hu, Flow.state_ok] at hown
    rw [hown]
    cases i <;> rfl
  · rw [hu, Flow.state_raised] at hown
    rw [hown]
    cases i <;> rfl

/-- Settles O43: each command's own fields are listed by `ownWrites`, and the upkeep changes as `exec_upkeep` says. A
clause about other registers holds command by command: either the register is the command's own, and the command is one
the clause names, or it is as before. -/
theorem registersHaveTheirOwners : Obligations.RegistersHaveTheirOwners := by
  intro i s t he
  have hown := exec_ownWrites he
  refine ⟨?_, ?_, ?_, ?_, ?_, ?_, ?_, ?_, ?_, ?_, ?_, ?_, ?_, ?_, ?count, ?fault, ?_, ?_, ?_⟩
  case count =>
    intro hne
    rcases exec_upkeep he with hdone | ⟨-, hcnt, -⟩
    · exact hdone
    · exact absurd hcnt hne
  case fault =>
    intro hne
    rcases exec_upkeep he with ⟨-, hcode, hcause, hop, hcmd, hinfo, hbusy⟩ | ⟨hrow, hcnt, hcode, -, -, hbusy⟩
    · simp [hcode, hcause, hop, hcmd, hinfo, hbusy] at hne
    · exact ⟨hrow, hcnt, hcode, hbusy⟩
  all_goals
    rw [hown]
    cases i <;> simp [ownWrites, vldWrites]

end Sys2Proof.Machine
end

section
/-! PROOFS. Reset and CTRL (R36, R39, R262, R283, R310). -/

namespace Sys2Proof.Machine

/-- A write of CR12 is honoured in every state (R36, R262). -/
theorem step_writeCtrl {s : State} {v : Word} {ms : List HostMove} (h : s.moves = .writeCr 12 v :: ms) :
    step s = .next (State.writeCtrl { s with moves := ms } v) := by
  rw [step_cons h]; rfl

theorem writeCtrl_srst {v : Word} (h : v.getLsbD 0 = true) (s : State) : s.writeCtrl v = s.softReset := if_pos h

/-- Without SRST the write acts on bit 1 alone (R36). -/
theorem writeCtrl_of_not_srst {v : Word} (h : v.getLsbD 0 = false) (s : State) :
    s.writeCtrl v = if v.getLsbD 1 then s.clearFault else s := if_neg (ne_true_of_eq_false h)

/-- Settles O45: SRST is tested before CLRERR, and no other bit is looked at. -/
theorem ctrlWriteResetsOrClears : Obligations.CtrlWriteResetsOrClears := by
  intro s v ms hm
  rw [step_writeCtrl hm]
  refine ⟨fun hsrst => ?_, fun hsrst hclr => ?_, fun hsrst hclr => ?_⟩
  · rw [writeCtrl_srst hsrst]; rfl
  · rw [writeCtrl_of_not_srst hsrst, if_pos hclr]; rfl
  · rw [writeCtrl_of_not_srst hsrst, if_neg (ne_true_of_eq_false hclr)]

/-- Settles O46: both resets give the power-on state but for the host's side of the run. -/
theorem resetValuesAreThoseOfTheTable : Obligations.ResetValuesAreThoseOfTheTable := by
  intro t ht
  obtain ⟨c, epoch, free, ms, replies, rfl⟩ : ∃ c epoch free ms replies, t = { State.resetWith c with
      ibufEpoch := epoch, freeNext := free, moves := ms, replies := replies } := by
    rcases ht with ⟨c, rfl⟩ | ⟨s, v, ms, hm, hsrst, ht⟩
    · exact ⟨c, 0, 0, [], [], rfl⟩
    · rw [step_writeCtrl hm, writeCtrl_srst hsrst] at ht
      injection ht with ht
      exact ⟨s.cfg, s.ibufEpoch + 1, s.freeNext, ms, s.replies, ht.symm⟩
  have harrays : ∀ b < 6, ∀ i < 64, (State.resetWith c).coefAt b i = 0 ∧ (State.resetWith c).spatAt b i = 0 :=
    fun b _ i _ => ⟨(State.resetWith c).coefAt_clearCoef b i, (State.resetWith c).coefAt_clearCoef b i⟩
  have hprev : ∀ k < 2, (State.resetWith c).prev1At k = 0 ∧ (State.resetWith c).prev2At k = 0 := fun k hk => by
    simp [State.prev1At, State.prev2At, State.resetWith, hk]
  exact ⟨harrays, rfl, rfl, rfl, rfl, rfl, rfl, rfl, rfl, rfl, rfl, rfl, rfl, rfl, rfl, rfl, rfl, rfl, rfl, rfl, hprev,
    rfl, rfl, rfl, rfl, rfl, rfl, rfl, rfl, rfl, fun _ => ⟨rfl, rfl⟩⟩

end Sys2Proof.Machine
end

section
/-! PROOFS. What the control registers show (R33 to R35, R285). -/

namespace Sys2Proof.Machine

theorem channelsBit_getLsbD (c : ChannelLayout) : (channelsBit c).getLsbD 0 = decide (c = .stereo) := by
  cases c <;> rfl

/-- The fields of STATUS (R34). -/
theorem statusWord_fields (s : State) :
    (statusWord s).getLsbD 0 = s.busy ∧ (statusWord s).getLsbD 1 = s.faulted ∧
      (statusWord s).getLsbD 2 = s.brActive ∧ (statusWord s).getLsbD 3 = s.hdrOk ∧
      (statusWord s).extractLsb' 4 2 = vstateCode s.vstate ∧ (statusWord s).extractLsb' 6 3 = s.blk ∧
      (statusWord s).extractLsb' 9 6 = s.pos ∧ (statusWord s).getLsbD 15 = false ∧
      (statusWord s).getLsbD 16 = decide (s.channels = .stereo) ∧ (statusWord s).extractLsb' 17 15 = 0#15 := by
  simp (disch := decide) only [statusWord, BitVec.getLsbD_append, BitVec.extractLsb'_append_eq_of_le,
    BitVec.extractLsb'_append_eq_of_add_le, BitVec.extractLsb'_eq_self, Nat.reduceSub, Nat.reduceLT, if_true, if_false,
    channelsBit_getLsbD]
  simp

/-- The fields of ERR (R35). -/
theorem errWord_fields (s : State) :
    (errWord s).extractLsb' 0 8 = s.errCode ∧ (errWord s).extractLsb' 8 8 = s.errCause ∧
      (errWord s).extractLsb' 16 8 = s.errOp ∧ (errWord s).extractLsb' 24 8 = 0#8 := by
  simp (disch := decide) only [errWord, BitVec.extractLsb'_append_eq_of_le, BitVec.extractLsb'_append_eq_of_add_le,
    BitVec.extractLsb'_eq_self, Nat.reduceSub, and_self]

theorem faulted_eq (s : State) : s.faulted = decide (s.errCode ≠ 0#8) := by
  rw [Bool.eq_iff_iff]; simp [State.faulted]

/-- Settles O47: CR1 and CR2 by their fields, the pairs of halves by theirs, the others as they stand. -/
theorem controlRegistersShowTheState : Obligations.ControlRegistersShowTheState := by
  intro s
  obtain ⟨hbusy, hfault, hactive, hhdr, hvstate, hblk, hpos, hzero, hch, htop⟩ := statusWord_fields s
  refine ⟨rfl, ⟨hbusy, hfault.trans (faulted_eq s), hactive, hhdr, ?vstate, hblk, hpos, hzero, hch, htop⟩,
    errWord_fields s, ⟨rfl, rfl, rfl, rfl, rfl, rfl, ?qscale⟩,
    ⟨xyFirst_append _ _, xySecond_append _ _, rfl, rfl⟩,
    ⟨xyFirst_append _ _, xySecond_append _ _, xyFirst_append _ _, xySecond_append _ _, rfl⟩, hfault.symm⟩
  case vstate =>
    refine hvstate.trans ?_
    cases s.vstate <;> rfl
  case qscale =>
    show (s.qscale.setWidth 32).toNat = _
    exact BitVec.toNat_setWidth_of_le (by decide)

end Sys2Proof.Machine
end

section
/-! PROOFS. Encoding and decoding a command word are inverse to each other (30_encoding.md R90 to R95). -/

namespace Sys2Proof.Machine

/-! ### The opcode map (R91, R92) -/

/-- The format of a command (R92). -/
def formatOfInstr : Instr → Format
  | .nop | .brRefill | .vldHdr | .vldMb | .idctMb | .adpcmInit => .z
  | .cfgAudio _ | .brPeek _ | .brConsume _ | .idctBlk _        => .n
  | .cfgFrame _ _ | .cscMb _ _                                 => .xy
  | .brInit _ _ | .adpcmDec _ _                                => .sl

theorem formatOf_opcode (i : Instr) : formatOf i.opcode = some (formatOfInstr i) := by cases i <;> rfl

/-- A command leaves zero what its format requires to be zero (R91). -/
theorem formatAdmits_fields (i : Instr) : formatAdmits (formatOfInstr i) i.fieldA i.fieldB = true := by
  cases i <;> rfl

/-- The opcode of a command selects it, with its operands taken from its fields (R93). -/
theorem buildInstr_fields (i : Instr) : buildInstr i.opcode i.fieldA i.fieldB = some i := by
  cases i
  case cfgFrame w h => exact congrArg some (congrArg₂ Instr.cfgFrame (xyFirst_append w h) (xySecond_append w h))
  case cscMb x y => exact congrArg some (congrArg₂ Instr.cscMb (xyFirst_append x y) (xySecond_append x y))
  all_goals rfl

/-- An opcode selects only the command it belongs to: no two rows share an opcode. -/
theorem opcode_of_buildInstr {op : Byte} {a : BitVec 24} {b : Word} {i : Instr} (h : buildInstr op a b = some i) :
    i.opcode = op := by
  apply BitVec.eq_of_toNat_eq
  unfold buildInstr at h
  split at h <;> cases h <;> symm <;> assumption

/-- The operand fields a format admits come back from the command they select: none of their bits is dropped. -/
theorem fields_of_buildInstr {i : Instr} {a : BitVec 24} {b : Word} (hbuild : buildInstr i.opcode a b = some i)
    (hadmit : formatAdmits (formatOfInstr i) a b = true) : i.fieldA = a ∧ i.fieldB = b := by
  cases i
  case nop | brRefill | vldHdr | vldMb | idctMb | adpcmInit =>
    obtain ⟨rfl, rfl⟩ : a = 0#24 ∧ b = 0#32 := by simpa [formatAdmits, formatOfInstr] using hadmit
    exact ⟨rfl, rfl⟩
  case cfgAudio | brPeek | brConsume | idctBlk =>
    obtain rfl : a = 0#24 := by simpa [formatAdmits, formatOfInstr] using hadmit
    cases hbuild
    exact ⟨rfl, rfl⟩
  case cfgFrame | cscMb =>
    obtain rfl : a = 0#24 := by simpa [formatAdmits, formatOfInstr] using hadmit
    cases hbuild
    exact ⟨rfl, xy_eq_halves b⟩
  case brInit | adpcmDec =>
    cases hbuild
    exact ⟨rfl, rfl⟩

/-- The formats and the commands have the same fourteen opcodes. -/
theorem buildInstr_isSome (op : Byte) (a : BitVec 24) (b : Word) :
    (buildInstr op a b).isSome = (formatOf op).isSome := by
  unfold buildInstr formatOf
  split <;> rfl

theorem exists_buildInstr {op : Byte} {f : Format} (h : formatOf op = some f) (a : BitVec 24) (b : Word) :
    ∃ i, buildInstr op a b = some i := by
  rw [← Option.isSome_iff_exists, buildInstr_isSome, h, Option.isSome_some]

theorem opcode_mem (i : Instr) : i.opcode ∈ opcodesZ ++ opcodesB ++ opcodesAB := by
  cases i <;> simp [Instr.opcode, opcodesZ, opcodesB, opcodesAB]

/-- Every opcode with a format is in one of the three lists of opcodes. -/
theorem formatOf_eq_none {op : Byte} (h : op ∉ opcodesZ ++ opcodesB ++ opcodesAB) : formatOf op = none := by
  rw [← Option.not_isSome_iff_eq_none, ← buildInstr_isSome op 0#24 0#32, Option.isSome_iff_exists]
  rintro ⟨i, hi⟩
  exact h (opcode_of_buildInstr hi ▸ opcode_mem i)

theorem formatOf_opcodesZ : ∀ op ∈ opcodesZ, formatOf op = some .z := by decide

theorem formatOf_opcodesB : ∀ op ∈ opcodesB, formatOf op = some .n ∨ formatOf op = some .xy := by decide

theorem formatOf_opcodesAB : ∀ op ∈ opcodesAB, formatOf op = some .sl := by decide

/-! ### Decoding, case by case (R95) -/

section
variable {op : Byte} {a : BitVec 24} {b : Word} {f : Format}

theorem decode_of_undefined (h : formatOf op = none) : decode (commandWord op a b) = .illegal .opcode := by
  simp [decode, commandWord, h]

theorem decode_of_reserved (h : formatOf op = some f) (hadmit : formatAdmits f a b = false) :
    decode (commandWord op a b) = .illegal .reservedField := by
  obtain ⟨i, hi⟩ := exists_buildInstr h a b
  simp [decode, commandWord, h, hi, hadmit]

theorem decode_of_admitted {i : Instr} (h : formatOf op = some f) (hbuild : buildInstr op a b = some i)
    (hadmit : formatAdmits f a b = true) : decode (commandWord op a b) = .command i := by
  simp [decode, commandWord, h, hbuild, hadmit]

end

/-- Only an admitted word decodes to a command. -/
theorem admitted_of_decode {w : CommandWord} {i : Instr} (h : decode w = .command i) :
    ∃ f, formatOf (cwOp w) = some f ∧ buildInstr (cwOp w) (cwA w) (cwB w) = some i ∧
      formatAdmits f (cwA w) (cwB w) = true := by
  unfold decode at h
  split at h
  next f j hf hj =>
    split at h
    next hadmit => cases h; exact ⟨f, hf, hj, hadmit⟩
    · cases h
  · cases h

/-- A word decodes to a command exactly when it is that command's word. -/
theorem decode_eq_command_iff {w : CommandWord} {i : Instr} : decode w = .command i ↔ encode i = w := by
  constructor
  · intro h
    obtain ⟨f, hf, hbuild, hadmit⟩ := admitted_of_decode h
    have hop := opcode_of_buildInstr hbuild
    rw [← hop] at hf hbuild
    obtain rfl : formatOfInstr i = f := Option.some.inj ((formatOf_opcode i).symm.trans hf)
    obtain ⟨ha, hb⟩ := fields_of_buildInstr hbuild hadmit
    rw [encode, hop, ha, hb, cw_eq_fields]
  · rintro rfl
    exact decode_of_admitted (formatOf_opcode i) (buildInstr_fields i) (formatAdmits_fields i)

theorem decode_encode (i : Instr) : decode (encode i) = .command i := decode_eq_command_iff.2 rfl

/-- A word whose opcode is defined and whose fields the format admits is the word of a command with those fields. -/
theorem exists_command {op : Byte} {a : BitVec 24} {b : Word} {f : Format} (h : formatOf op = some f)
    (hadmit : formatAdmits f a b = true) :
    ∃ i, decode (commandWord op a b) = .command i ∧ i.opcode = op ∧ i.fieldA = a ∧ i.fieldB = b := by
  obtain ⟨i, hi⟩ := exists_buildInstr h a b
  have hdecode := decode_of_admitted h hi hadmit
  have hword : encode i = commandWord op a b := decode_eq_command_iff.1 hdecode
  refine ⟨i, hdecode, ?_, ?_, ?_⟩
  · rw [← cwOp_encode, hword, commandWord, cwOp_append]
  · rw [← cwA_encode, hword, commandWord, cwA_append]
  · rw [← cwB_encode, hword, commandWord, cwB_append]

/-! ### The statements -/

/-- Settles O1: the word of a command is admitted and selects it. -/
theorem decodeOfEncodeIsTheCommand : Obligations.DecodeOfEncodeIsTheCommand := decode_encode

/-- Settles O2: the opcode and the operand fields of a decoded command are those of the word. -/
theorem encodeOfDecodeIsTheWord : Obligations.EncodeOfDecodeIsTheWord := fun _ _ => decode_eq_command_iff.1

/-- Settles O3: the opcode gives the format, and the format says whether the fields are admitted. -/
theorem decodeIsTheTotalFunction : Obligations.DecodeIsTheTotalFunction := by
  intro op a b
  refine ⟨fun h => decode_of_undefined (formatOf_eq_none h), fun hop hfields => ?_, fun hop ha => ?_, ?_⟩
  · exact decode_of_reserved (formatOf_opcodesZ op hop) (by simpa [formatAdmits, ← not_and_or] using hfields)
  · rcases formatOf_opcodesB op hop with h | h <;> exact decode_of_reserved h (by simpa [formatAdmits] using ha)
  · rintro (⟨hop, rfl, rfl⟩ | ⟨hop, rfl⟩ | hop)
    · exact exists_command (formatOf_opcodesZ op hop) rfl
    · rcases formatOf_opcodesB op hop with h | h <;> exact exists_command h rfl
    · exact exists_command (formatOf_opcodesAB op hop) rfl

/-- Settles O4: each row's word is the encoding of its command. -/
theorem opcodeMapSelectsTheCommand : Obligations.OpcodeMapSelectsTheCommand :=
  ⟨decode_encode .nop, fun w h => decode_encode (.cfgFrame w h), fun c => decode_encode (.cfgAudio c),
    fun len base => decode_encode (.brInit len base), fun n => decode_encode (.brPeek n),
    fun n => decode_encode (.brConsume n), decode_encode .brRefill, decode_encode .vldHdr, decode_encode .vldMb,
    fun b => decode_encode (.idctBlk b), decode_encode .idctMb, fun x y => decode_encode (.cscMb x y),
    decode_encode .adpcmInit, fun groups base => decode_encode (.adpcmDec groups base)⟩

/-- Settles O5: ten of the words are the encodings of their commands; 0xFF is no opcode, and VLD.MB admits no A. -/
theorem printedWordsDecode : Obligations.PrintedWordsDecode := by
  simp only [Obligations.PrintedWordsDecode, decode_eq_command_iff]
  decide

end Sys2Proof.Machine
end

section
/-! PROOFS. VLD.MB over a stream of the grammar (30_encoding.md R98, 41_vld.md R142 to R150). -/

namespace Sys2Proof.Machine

/-- VLD.MB past its gates: the zero fill of R149, then the six blocks (R142). -/
theorem commandFlow_vldMb {s : State} (h : vldReady s) :
    commandFlow .vldMb s = decodeBlocks (List.range' 0 6) s.clearCoef := by
  obtain ⟨-, hactive, hheader⟩ := h
  simp [commandFlow, needSlice, hactive, hheader, List.range'_succ]

/-- The zero fill leaves the stream where it was. -/
theorem streamBegins_clearCoef {s : State} {l : List Bool} (h : streamBegins s l) : streamBegins s.clearCoef l := h

/-- A completion after nothing but VLD.MB's own writes (R153, R256). -/
theorem VldOnly.complete_eq {s t : State} (h : VldOnly s t) :
    t.complete = { vldWrites s t.complete with cmdcnt := s.cmdcnt + 1#32 } := by
  unfold VldOnly at h
  rw [h]; rfl

/-- Settles O22: past the gates VLD.MB zero-fills COEF and decodes six blocks; `decodeBlocks_stream` says what the six
blocks of the stream make of the state, and the completion adds 1 to CMDCNT. -/
theorem vldMbDecodesTheGrammar : Obligations.VldMbDecodesTheGrammar := by
  intro s bs hready hsix hlegal hstream
  obtain ⟨t, hflow, honly, -, hend, hbitpos, hcoef⟩ :=
    decodeBlocks_stream (s0 := s) hready.1 bs 0 6 s.clearCoef (fun _ _ => 0) (by omega) (by omega) rfl
      (fun k i _ => s.coefAt_clearCoef k i) (fun _ _ _ _ => rfl)
      (fun j hj b hb => by simpa using hlegal j hj b hb) (streamBegins_clearCoef hstream)
  have hdone : commandFlow .vldMb s = .ok () t := by
    rw [commandFlow_vldMb hready, hflow, hsix]; rfl
  have hlast : ∀ b, bs[5]? = some b → EndsBlock s.cfg t b ∧ t.blk.toNat = 5 := by
    intro b hb
    simpa [hsix] using hend b (by rw [List.getLast?_eq_getElem?, hsix]; exact hb)
  obtain ⟨hends, hblk⟩ := hlast bs[5] (List.getElem?_eq_getElem _)
  refine ⟨t.complete, by rw [exec_eq_finish, hdone, finish_ok], honly.complete_eq, hbitpos,
    BitVec.eq_of_toNat_eq hblk, hends.vst, fun b hb => ?_, fun k _ i hi b hb => ?_⟩
  · obtain ⟨⟨-, hpos, hcount, hrun⟩, -⟩ := hlast b hb
    exact ⟨hpos, hcount, hrun⟩
  · exact (State.coefAt_congr (s := t) rfl k i).trans (by simpa [hb] using hcoef k i hi)

end Sys2Proof.Machine
end

section
/-! PROOFS. The BitReader's commands (40_bitreader.md R120 to R128). -/

namespace Sys2Proof.Machine

/-! ### How a command that touches the hidden accumulator at most ends -/

section
variable {i : Instr} {s u : State} {e : Exc} {info : Word}

theorem exec_of_raised (h : commandFlow i s = .raised e info u) :
    exec i s = .next (faultedAs u i.opcode (excCode e) (excCause e) info) := by
  rw [exec_eq_finish, h]; rfl

theorem exec_of_ok (h : commandFlow i s = .ok () u) : exec i s = .next u.complete := by
  rw [exec_eq_finish, h, finish_ok]

/-- A raise after nothing but `Ensure` shows only the fault (R26, R280). -/
theorem exec_of_raised_hidden (h : commandFlow i s = .raised e info u) (hu : HiddenOnly s u) :
    ∃ t, exec i s = .next t ∧ t = faultedAs (withHidden s t) i.opcode (excCode e) (excCause e) info := by
  refine ⟨_, exec_of_raised h, ?_⟩
  rw [hu]; rfl

end

/-! ### The gates and the primitives, outcome by outcome -/

theorem needSlice_of_active {s : State} (info : Word) (h : s.brActive = true) : needSlice info s = .ok () s := if_pos h

theorem needSlice_of_inactive {s : State} (info : Word) (h : s.brActive = false) :
    needSlice info s = .raised .sequenceBrInactive info s := if_neg (ne_true_of_eq_false h)

/-! The two gates before the body `k` of BR.PEEK and of BR.CONSUME, in their order (R122, R123). -/

section
variable {α : Type} {n : Word} {s : State} (k : Unit → State → Flow α)

theorem countGate_of_large (h : 32 < n.toNat) : flowBind (needCount n s) k = .raised .operandNRange n s := by
  rcases needCount_cases n s with ⟨h', -⟩ | ⟨-, e⟩
  · omega
  · rw [e, flowBind_raised]

theorem countGate_of_le (h : n.toNat ≤ 32) : flowBind (needCount n s) k = k () s := by
  rcases needCount_cases n s with ⟨-, e⟩ | ⟨h', -⟩
  · rw [e, flowBind_ok]
  · omega

theorem gates_of_inactive (hn : n.toNat ≤ 32) (ha : s.brActive = false) :
    (flowBind (needCount n s) fun _ s1 => flowBind (needSlice n s1) k) = .raised .sequenceBrInactive n s := by
  rw [countGate_of_le _ hn, needSlice_of_inactive n ha, flowBind_raised]

theorem gates_passed (hn : n.toNat ≤ 32) (ha : s.brActive = true) :
    (flowBind (needCount n s) fun _ s1 => flowBind (needSlice n s1) k) = k () s := by
  rw [countGate_of_le _ hn, needSlice_of_active n ha, flowBind_ok]

end

section
variable {short : Exc} {n : Nat} {s : State}

theorem brPeek_of_fits (h : s.bitpos.toNat + n ≤ s.brNbits.toNat) :
    brPeek short n s = .ok (bitsValue (sliceBit s) s.bitpos.toNat n) (ensure n s) := by
  rcases brPeek_cases short n s with ⟨-, e⟩ | ⟨h', -⟩
  · exact e
  · omega

theorem brPeek_of_short (h : s.brNbits.toNat < s.bitpos.toNat + n) :
    brPeek short n s = .raised short s.bitpos (ensure n s) := by
  rcases brPeek_cases short n s with ⟨h', -⟩ | ⟨-, e⟩
  · omega
  · exact e

theorem brConsume_of_short (h : s.brNbits.toNat < s.bitpos.toNat + n) :
    brConsume short n s = .raised short s.bitpos (ensure n s) := by
  rcases brConsume_cases short n s with ⟨h', -⟩ | ⟨-, e⟩
  · omega
  · exact e

end

/-! ### Words and bits of a slice (R65, R120, R122) -/

theorem sliceWord_eq_wordAt (s : State) (k : Nat) : (sliceWord s k).toNat = wordAt s k := sliceWord_toNat s k

/-- The recursion of `bitsValue` unrolled: each further bit doubles the weight of those before it. -/
theorem bitsValue_eq_bitSum (f : Nat → Bool) (a n : Nat) : bitsValue f a n = bitSum f a n := by
  induction n with
  | zero => rfl
  | succ n ih =>
    rw [bitsValue_succ, ih, bitSum, bitSum, Finset.sum_range_succ, Finset.mul_sum]
    congr 1
    · refine Finset.sum_congr rfl fun t ht => ?_
      have hlt := Finset.mem_range.1 ht
      rw [show n + 1 - 1 - t = n - 1 - t + 1 by omega, Nat.pow_succ]
      ring
    · simp

/-- Settles O14: the word's two bytes make one number, whose most significant bit comes first. -/
theorem sliceBitsComeWordByWord : Obligations.SliceBitsComeWordByWord := by
  intro s k j hj
  have hword : (16 * k + j) / 16 = k := by omega
  have hbit : (16 * k + j) % 16 = j := by omega
  rw [sliceBit, hword, hbit, BitVec.getLsbD, sliceWord_eq_wordAt]
  rfl

/-! ### Refilling, case by case (R124, R126) -/

section
variable {s : State}

theorem pullIfWords_of_words (h : s.wptr.toNat < sliceWords s) : pullIfWords s = pull s := if_pos h

theorem pullIfWords_of_no_words (h : sliceWords s ≤ s.wptr.toNat) : pullIfWords s = s := if_neg (by omega)

/-- WPTR counts words of a slice, so a pull does not wrap it (R265). -/
theorem pull_wptr_toNat (h : s.wptr.toNat < sliceWords s) : (pull s).wptr.toNat = s.wptr.toNat + 1 := by
  have hbits := s.brNbits.isLt
  unfold sliceWords at h
  rw [pull_wptr, BitVec.toNat_add, BitVec.toNat_ofNat]
  omega

theorem sliceWords_pull (s : State) : sliceWords (pull s) = sliceWords s := rfl

theorem refill_of_full (h : 16 ≤ s.nvalid) : refill s = s := if_neg (by omega)

theorem refill_of_no_words (h : sliceWords s ≤ s.wptr.toNat) : refill s = s := by
  simp [refill, pullIfWords_of_no_words h]

theorem refill_of_one_word (hv : s.nvalid < 16) (h : sliceWords s = s.wptr.toNat + 1) : refill s = pull s := by
  have hfirst : s.wptr.toNat < sliceWords s := by omega
  rw [refill, if_pos hv, pullIfWords_of_words hfirst, pullIfWords_of_no_words]
  rw [pull_wptr_toNat hfirst, sliceWords_pull, h]

theorem refill_of_two_words (hv : s.nvalid < 16) (h : s.wptr.toNat + 2 ≤ sliceWords s) :
    refill s = pull (pull s) := by
  have hfirst : s.wptr.toNat < sliceWords s := by omega
  rw [refill, if_pos hv, pullIfWords_of_words hfirst, pullIfWords_of_words]
  rw [pull_wptr_toNat hfirst, sliceWords_pull]
  omega

/-- Two pulls: the second word below the first. -/
theorem pull_pull_acc_toNat (h : s.wptr.toNat < sliceWords s) :
    (pull (pull s)).acc.toNat =
      (65536 * (65536 * s.acc.toNat + wordAt s s.wptr.toNat) + wordAt s (s.wptr.toNat + 1)) % 2 ^ 48 := by
  have hsecond : (sliceWord (pull s) (pull s).wptr.toNat).toNat = wordAt s (s.wptr.toNat + 1) := by
    rw [pull_wptr_toNat h]
    exact sliceWord_eq_wordAt s _
  rw [pull_acc_toNat, hsecond, pull_acc_toNat, sliceWord_eq_wordAt]
  omega

end

/-! ### The accumulator against the slice's bits (R125 to R128) -/

/-- With n bits valid the accumulator's top n bits are the next n of the slice. -/
theorem acc_top_eq_bitsValue {s : State} (h : s.BitReaderOk) (hr : s.sliceRewritten = false) {n : Nat}
    (hn : n ≤ s.nvalid) :
    (s.acc >>> (s.nvalid - n)).toNat % 2 ^ n = bitsValue (sliceBit s) s.bitpos.toNat n := by
  apply Nat.eq_of_testBit_eq
  intro j
  rw [Nat.testBit_mod_two_pow, bitsValue_testBit, BitVec.toNat_ushiftRight, Nat.testBit_shiftRight]
  by_cases hj : j < n
  · have hbit := h.accBits hr (n - 1 - j) (by omega)
    rw [show s.nvalid - 1 - (n - 1 - j) = s.nvalid - n + j by omega, BitVec.getLsbD] at hbit
    rw [hbit]
  · simp [hj]

/-- Settles O19: `Ensure(n)` makes n bits valid exactly when n remain, and the valid bits are the slice's. -/
theorem accumulatorFormAgreesWithTheDirectForm : Obligations.AccumulatorFormAgreesWithTheDirectForm := by
  intro s n hok hr hn
  have henough := ensure_enough hn hok
  refine ⟨by omega, fun hfits => ?_⟩
  have hr' : (ensure n s).sliceRewritten = false := by rw [ensure_hidden n s]; exact hr
  have htop := acc_top_eq_bitsValue (ensure_ok hn hok) hr' (henough.2 hfits)
  rw [sliceBit_ensure, ensure_bitpos, bitsValue_eq_bitSum] at htop
  exact htop

/-! ### The commands -/

/-- Settles O13: the one test of BR.INIT is against IBUF_LEN. -/
theorem brInitSetsUpTheSlice : Obligations.BrInitSetsUpTheSlice := fun s len base =>
  ⟨decode_encode (.brInit len base),
    fun h => exec_of_raised (i := .brInit len base) (e := .eosSlice) (if_pos h),
    fun h => exec_of_ok (i := .brInit len base) (u := s.setSlice base len.toNat) (if_neg (by omega))⟩

/-- Settles O15: the two gates, then the two outcomes of `BrPeek(n)`. -/
theorem brPeekReadsTheNextBits : Obligations.BrPeekReadsTheNextBits := by
  intro s n
  refine ⟨decode_encode (.brPeek n), fun hn => ?large, fun hn ha => ?inactive, fun hn ha hshort => ?short,
    fun hn ha hfits => ?fits⟩
  case large => exact exec_of_raised (e := .operandNRange) (countGate_of_large _ hn)
  case inactive => exact exec_of_raised (e := .sequenceBrInactive) (gates_of_inactive _ hn ha)
  case short =>
    have hflow : commandFlow (.brPeek n) s = .raised .eosBits s.bitpos (ensure n.toNat s) := by
      rw [commandFlow, gates_passed _ hn ha, brPeek_of_short hshort, flowBind_raised]
    exact exec_of_raised_hidden hflow (ensure_hidden n.toNat s)
  case fits =>
    have hflow : commandFlow (.brPeek n) s = .ok () { ensure n.toNat s with
        result := BitVec.ofNat 32 (bitsValue (sliceBit s) s.bitpos.toNat n.toNat) } := by
      rw [commandFlow, gates_passed _ hn ha, brPeek_of_fits hfits, flowBind_ok]
    have hsmall : bitsValue (sliceBit s) s.bitpos.toNat n.toNat < 2 ^ 32 :=
      lt_of_lt_of_le (bitsValue_lt _ _ _) (Nat.pow_le_pow_right (by omega) hn)
    refine ⟨_, exec_of_ok hflow, ?_, ?_⟩
    · rw [ensure_hidden n.toNat s]; rfl
    · rw [State.complete_result, BitVec.toNat_ofNat, Nat.mod_eq_of_lt hsmall, bitsValue_eq_bitSum]

/-- Settles O16: the two gates, then the two outcomes of `BrConsume(n)`. -/
theorem brConsumeAdvancesByN : Obligations.BrConsumeAdvancesByN := by
  intro s n
  refine ⟨decode_encode (.brConsume n), fun hn => ?large, fun hn ha => ?inactive, fun hn ha hshort => ?short,
    fun hn ha hfits => ?fits⟩
  case large => exact exec_of_raised (e := .operandNRange) (countGate_of_large _ hn)
  case inactive => exact exec_of_raised (e := .sequenceBrInactive) (gates_of_inactive _ hn ha)
  case short =>
    have hflow : commandFlow (.brConsume n) s = .raised .eosBits s.bitpos (ensure n.toNat s) := by
      rw [commandFlow, gates_passed _ hn ha, brConsume_of_short hshort]
    exact exec_of_raised_hidden hflow (ensure_hidden n.toNat s)
  case fits =>
    obtain ⟨u, hconsume, hcursor, hpos⟩ := brConsume_fits .eosBits hfits
    have hflow : commandFlow (.brConsume n) s = .ok () u := by rw [commandFlow, gates_passed _ hn ha, hconsume]
    refine ⟨_, exec_of_ok hflow, ?_, hpos⟩
    rw [hcursor]; rfl

/-- Settles O17: past its gate BR.REFILL is `Refill()`, which pulls nothing, one word or two. -/
theorem brRefillTouchesTheAccumulatorOnly : Obligations.BrRefillTouchesTheAccumulatorOnly := by
  intro s
  refine ⟨decode_encode .brRefill, fun ha => ?inactive, fun ha => ?_⟩
  case inactive =>
    have hflow : commandFlow .brRefill s = .raised .sequenceBrInactive 0#32 s := by
      rw [commandFlow, needSlice_of_inactive _ ha, flowBind_raised]
    exact exec_of_raised hflow
  have hflow : commandFlow .brRefill s = .ok () (refill s) := by
    rw [commandFlow, needSlice_of_active _ ha, flowBind_ok]
  refine ⟨_, exec_of_ok hflow, ?frame, fun hnone => ?none, fun hv hone => ?one, fun hv htwo => ?two⟩
  case frame => rw [refill_hidden s]; rfl
  case none =>
    have hsame : refill s = s := hnone.elim refill_of_full refill_of_no_words
    rw [hsame]
    exact ⟨rfl, rfl, rfl⟩
  case one =>
    rw [refill_of_one_word hv hone, ← sliceWord_eq_wordAt]
    exact ⟨pull_acc_toNat s, rfl, pull_wptr_toNat hone.ge⟩
  case two =>
    have hfirst : s.wptr.toNat < sliceWords s := Nat.lt_of_succ_lt htwo
    have hwptr := pull_wptr_toNat hfirst
    have hsecond : (pull s).wptr.toNat < sliceWords (pull s) := by rw [hwptr]; exact htwo
    rw [refill_of_two_words hv htwo]
    exact ⟨pull_pull_acc_toNat hfirst, rfl, (pull_wptr_toNat hsecond).trans (congrArg (· + 1) hwptr)⟩

end Sys2Proof.Machine
end

section
/-! PROOFS. The header of a slice (41_vld.md R141). -/

namespace Sys2Proof.Machine

/-- VLD.HDR past its gates, with 16 bits left: the scale is tested before it is consumed. -/
theorem commandFlow_vldHdr_of_fits {s : State} (ha : s.brActive = true) (hh : s.hdrOk = false)
    (hfits : s.bitpos.toNat + 16 ≤ s.brNbits.toNat) :
    commandFlow .vldHdr s =
      if bitSum (sliceBit s) s.bitpos.toNat 16 ∈ s.cfg.qdom then
        flowBind (brConsume vldShort 16 (ensure 16 s)) fun _ t =>
          .ok () { t with qscale := BitVec.ofNat 16 (bitSum (sliceBit s) s.bitpos.toNat 16), hdrOk := true }
      else .raised .corruptQscale (BitVec.ofNat 32 (bitSum (sliceBit s) s.bitpos.toNat 16)) (ensure 16 s) := by
  simp [commandFlow, needSlice_of_active _ ha, hh, brPeek_of_fits hfits, ← bitsValue_eq_bitSum]

/-- Settles O20: the gates, then the peek, the test against QDOM and the consume, in that order. -/
theorem vldHdrReadsTheScale : Obligations.VldHdrReadsTheScale := by
  intro s
  refine ⟨decode_encode .vldHdr, fun ha => ?inactive, fun ha hh => ?again, fun ha hh hshort => ?short,
    fun ha hh hfits hq => ?illegal, fun ha hh hfits hq => ?read⟩
  case inactive =>
    have hflow : commandFlow .vldHdr s = .raised .sequenceBrInactive 0#32 s := by
      rw [commandFlow, needSlice_of_inactive _ ha, flowBind_raised]
    exact exec_of_raised hflow
  case again =>
    have hflow : commandFlow .vldHdr s = .raised .sequenceHdrDone 0#32 s := by
      rw [commandFlow, needSlice_of_active _ ha, flowBind_ok, if_pos hh]
    exact exec_of_raised hflow
  case short =>
    have hflow : commandFlow .vldHdr s = .raised .corruptBudget s.bitpos (ensure 16 s) := by
      simp [commandFlow, needSlice_of_active _ ha, hh, brPeek_of_short hshort, vldShort]
    exact exec_of_raised_hidden hflow (ensure_hidden 16 s)
  case illegal =>
    exact exec_of_raised_hidden ((commandFlow_vldHdr_of_fits ha hh hfits).trans (if_neg hq)) (ensure_hidden 16 s)
  case read =>
    obtain ⟨u, hconsume, hcursor, hpos⟩ :=
      brConsume_fits (s := ensure 16 s) (n := 16) vldShort (by simpa using hfits)
    have hflow := (commandFlow_vldHdr_of_fits ha hh hfits).trans (if_pos hq)
    rw [hconsume, flowBind_ok] at hflow
    have hsmall : bitSum (sliceBit s) s.bitpos.toNat 16 < 2 ^ 16 :=
      bitsValue_eq_bitSum (sliceBit s) _ _ ▸ bitsValue_lt _ _ _
    refine ⟨_, exec_of_ok hflow, ?_, by simpa using hpos, ?_⟩
    · rw [hcursor, ensure_hidden 16 s]; rfl
    · rw [State.complete_qscale, BitVec.toNat_ofNat, Nat.mod_eq_of_lt hsmall]

end Sys2Proof.Machine
end

section
/-! PROOFS. How VLD.MB ends (41_vld.md R142, R149, R151, R153, R155). -/

namespace Sys2Proof.Machine

/-! ### What a piece of VLD.MB raises (R152, R155, R273) -/

/-- CorruptFrame with a cause of 1 to 5: what VLD.MB raises past its gates. -/
def IsVldCorrupt (e : Exc) : Prop := excCode e = 3#8 ∧ excCause e ∈ [1#8, 2#8, 3#8, 4#8, 5#8]

/-- A flow that raises nothing but that, with info BITPOS. -/
def Flow.RaisesCorrupt {α : Type} : Flow α → Prop
  | .ok _ _          => True
  | .raised e info t => IsVldCorrupt e ∧ info = t.bitpos

theorem Flow.RaisesCorrupt.bind {α β : Type} {f : Flow α} {k : α → State → Flow β} (hf : f.RaisesCorrupt)
    (hk : ∀ a t, (k a t).RaisesCorrupt) : (flowBind f k).RaisesCorrupt := by
  cases f with
  | ok a t => exact hk a t
  | raised e info t => exact hf

theorem brRead_raisesCorrupt (n : Nat) (s : State) : (brRead vldShort n s).RaisesCorrupt := by
  rcases brRead_cases vldShort n s with ⟨-, e⟩ | ⟨-, e⟩ <;> rw [e]
  · trivial
  · exact ⟨⟨rfl, by decide⟩, (ensure_bitpos n s).symm⟩

theorem storeDeq_raisesCorrupt (b i : Nat) (v : Int) (p : Plane) (k : Nat) (s : State) :
    (storeDeq b i v p k s).RaisesCorrupt := by
  rcases storeDeq_cases b i v p k s with ⟨-, -, e⟩ | ⟨-, e⟩ <;> rw [e]
  · trivial
  · exact ⟨⟨rfl, by decide⟩, rfl⟩

theorem lookupCode_raisesCorrupt (bits : Nat) (entry : Nat → TableEntry) (s : State) :
    (lookupCode bits entry s).RaisesCorrupt := by
  rcases lookupCode_cases bits entry s with ⟨-, e⟩ | ⟨-, -, e⟩ | ⟨-, -, e⟩ <;> rw [e]
  · exact ⟨⟨rfl, by decide⟩, (ensure_bitpos bits s).symm⟩
  · exact ⟨⟨rfl, by decide⟩, by simp⟩
  · trivial

theorem decodePair_raisesCorrupt (s : State) : (decodePair s).RaisesCorrupt := by
  refine .bind (lookupCode_raisesCorrupt _ _ s) fun e t => ?_
  split
  · exact lookupCode_raisesCorrupt _ _ t
  · trivial
  · trivial

theorem pairValue_raisesCorrupt (e : TableEntry) (s : State) : (pairValue e s).RaisesCorrupt := by
  unfold pairValue
  split
  · exact .bind (brRead_raisesCorrupt _ _) fun _ _ => trivial
  · trivial

theorem place_raisesCorrupt (b : Nat) (p : Plane) (run : Nat) (v : Int) (s : State) :
    (place b p run v s).RaisesCorrupt := by
  rcases place_cases b p run v s with ⟨-, e⟩ | ⟨-, -, e⟩ | ⟨-, -, e⟩ <;> rw [e]
  · exact ⟨⟨rfl, by decide⟩, rfl⟩
  · exact ⟨⟨rfl, by decide⟩, rfl⟩
  · exact storeDeq_raisesCorrupt _ _ _ _ _ _

theorem oneCode_raisesCorrupt (b : Nat) (p : Plane) (s : State) : (oneCode b p s).RaisesCorrupt := by
  refine .bind (decodePair_raisesCorrupt s) fun e t => ?_
  split
  · trivial
  · exact .bind (pairValue_raisesCorrupt e t) fun v u =>
      .bind (place_raisesCorrupt b p e.run v u) fun _ _ => trivial

theorem codeLoop_raisesCorrupt (b : Nat) (p : Plane) (room : Nat) (s : State) :
    (codeLoop b p room s).RaisesCorrupt := by
  induction room generalizing s with
  | zero => exact .bind (oneCode_raisesCorrupt b p s) fun _ _ => trivial
  | succ room ih =>
    refine .bind (oneCode_raisesCorrupt b p s) fun ended t => ?_
    split
    · trivial
    · exact ih t

theorem decodeBlocks_raisesCorrupt (bs : List Nat) (s : State) : (decodeBlocks bs s).RaisesCorrupt := by
  induction bs generalizing s with
  | nil => trivial
  | cons b bs ih =>
    refine .bind (.bind (.bind (brRead_raisesCorrupt _ _) fun _ t => ?_) fun _ t => ?_) fun _ t => ih t
    · exact storeDeq_raisesCorrupt _ _ _ _ _ t
    · exact codeLoop_raisesCorrupt b _ 63 t

/-! ### A block that ends, ends at its end-of-block code (R142, R151) -/

theorem decodePair_accnt (s : State) : (decodePair s).state.accnt = s.accnt := by rw [decodePair_frame s]

theorem pairValue_accnt (e : TableEntry) (s : State) : (pairValue e s).state.accnt = s.accnt := by
  unfold pairValue
  split
  · refine flowBind_keeps (P := fun t => t.accnt = s.accnt) ?_ fun _ _ _ ht => ht
    rw [brRead_frame]
  · rfl

/-- A coefficient that was placed was counted, as one of 63 at most (R146). -/
theorem place_ok {b run : Nat} {p : Plane} {v : Int} {s t : State} (hs : s.accnt.toNat ≤ 63)
    (h : place b p run v s = .ok () t) : t.accnt.toNat = s.accnt.toNat + 1 ∧ t.accnt.toNat ≤ 63 := by
  rcases place_cases b p run v s with ⟨-, e⟩ | ⟨-, -, e⟩ | ⟨hle, -, e⟩ <;> rw [e] at h
  · cases h
  · cases h
  · have hcount : t.accnt = s.accnt + 1#7 := by
      rcases storeDeq_cases b (s.cfg.zigzagAt (s.pos.toNat + run)) v p (s.pos.toNat + run)
        { s with accnt := s.accnt + 1#7, pos := BitVec.ofNat 6 (s.pos.toNat + run) } with ⟨-, -, e⟩ | ⟨-, e⟩ <;>
        rw [e] at h <;> cases h
      rfl
    rw [hcount]
    refine ⟨?_, hle⟩
    rw [BitVec.toNat_add, BitVec.toNat_ofNat]
    omega

/-- A round of the loop that ends the block leaves state EndOfBlock; one that goes on has counted one coefficient
(R145). -/
theorem oneCode_ok {b : Nat} {p : Plane} {s t : State} {ended : Bool} (hs : s.accnt.toNat ≤ 63)
    (h : oneCode b p s = .ok ended t) :
    if ended then t.vstate = .endOfBlock else t.accnt.toNat = s.accnt.toNat + 1 ∧ t.accnt.toNat ≤ 63 := by
  obtain ⟨e, u, hcode, h⟩ := flowBind_eq_ok.1 h
  have hu := decodePair_accnt s
  rw [hcode, Flow.state_ok] at hu
  by_cases hrun : e.run = 0
  · rw [if_pos hrun] at h
    cases h; rfl
  · rw [if_neg hrun] at h
    obtain ⟨v, w, hvalue, h⟩ := flowBind_eq_ok.1 h
    have hw := pairValue_accnt e u
    rw [hvalue, Flow.state_ok, hu] at hw
    obtain ⟨_, x, hplace, h⟩ := flowBind_eq_ok.1 h
    cases h
    exact hw ▸ place_ok (hw ▸ hs) hplace

/-- The loop goes on past a block only in state EndOfBlock: with 63 coefficients there is no room for a further one. -/
theorem codeLoop_ok {b room : Nat} {p : Plane} {s t : State} (hs : s.accnt.toNat ≤ 63)
    (hroom : 63 ≤ s.accnt.toNat + room) (h : codeLoop b p room s = .ok () t) : t.vstate = .endOfBlock := by
  induction room generalizing s with
  | zero =>
    obtain ⟨ended, u, hone, h⟩ := flowBind_eq_ok.1 h
    cases h
    have hend := oneCode_ok hs hone
    cases ended with
    | true => exact hend
    | false => simp at hend; omega
  | succ room ih =>
    obtain ⟨ended, u, hone, h⟩ := flowBind_eq_ok.1 h
    have hend := oneCode_ok hs hone
    cases ended with
    | true => cases h; exact hend
    | false =>
      obtain ⟨hcount, hle⟩ := hend
      exact ih hle (by omega) h

/-! ### Which block a piece of VLD.MB writes (R142, R149) -/

/-- `t` holds what `s` held in every block but `b`, and names the same block. -/
def BlockOnly (b : Nat) (s t : State) : Prop := t.blk = s.blk ∧ ∀ k ≠ b, ∀ i, t.coefAt k i = s.coefAt k i

theorem BlockOnly.trans {b : Nat} {r s t : State} (h : BlockOnly b r s) (k : BlockOnly b s t) : BlockOnly b r t :=
  ⟨k.1.trans h.1, fun j hj i => (k.2 j hj i).trans (h.2 j hj i)⟩

/-- What writes neither BLK nor COEF. -/
theorem BlockOnly.of_eq {b : Nat} {s t : State} (hblk : t.blk = s.blk) (hcoef : t.coef = s.coef) : BlockOnly b s t :=
  ⟨hblk, fun k _ i => State.coefAt_congr hcoef k i⟩

theorem CursorOnly.block {b : Nat} {s t : State} (h : CursorOnly s t) : BlockOnly b s t :=
  .of_eq (by rw [h]) (by rw [h])

section
variable (b : Nat)

theorem flowBind_block {α β : Type} {s : State} {f : Flow α} {k : α → State → Flow β}
    (hf : BlockOnly b s f.state) (hk : ∀ a t, BlockOnly b t (k a t).state) : BlockOnly b s (flowBind f k).state :=
  flowBind_rel (R := BlockOnly b) (fun _ _ _ => BlockOnly.trans) hf fun a t _ => hk a t

theorem storeDeq_block (i : Nat) (v : Int) (p : Plane) (k : Nat) (s : State) :
    BlockOnly b s (storeDeq b i v p k s).state := by
  rcases storeDeq_cases b i v p k s with ⟨-, -, e⟩ | ⟨-, e⟩ <;> rw [e]
  · refine ⟨rfl, fun j hj i' => ?_⟩
    rw [Flow.state_ok, State.coefAt, State.coefBlock_setCoef, if_neg fun h => hj h.1]
    rfl
  · exact .of_eq rfl rfl

theorem pairValue_block (e : TableEntry) (s : State) : BlockOnly b s (pairValue e s).state := by
  unfold pairValue
  split
  · refine flowBind_block b ?_ fun _ t => .of_eq rfl rfl
    exact BlockOnly.trans (.of_eq rfl rfl) (brRead_frame _ _ _).block
  · exact .of_eq rfl rfl

theorem place_block (p : Plane) (run : Nat) (v : Int) (s : State) : BlockOnly b s (place b p run v s).state := by
  rcases place_cases b p run v s with ⟨-, e⟩ | ⟨-, -, e⟩ | ⟨-, -, e⟩ <;> rw [e]
  · exact .of_eq rfl rfl
  · exact .of_eq rfl rfl
  · exact BlockOnly.trans (.of_eq rfl rfl) (storeDeq_block b _ v p _ _)

theorem oneCode_block (p : Plane) (s : State) : BlockOnly b s (oneCode b p s).state := by
  refine flowBind_block b (decodePair_frame s).block fun e t => ?_
  split
  · exact .of_eq rfl rfl
  · exact flowBind_block b (pairValue_block b e t) fun v u =>
      flowBind_block b (place_block b p e.run v u) fun _ _ => .of_eq rfl rfl

theorem codeLoop_block (p : Plane) (room : Nat) (s : State) : BlockOnly b s (codeLoop b p room s).state := by
  induction room generalizing s with
  | zero => exact flowBind_block b (oneCode_block b p s) fun _ _ => .of_eq rfl rfl
  | succ room ih =>
    refine flowBind_block b (oneCode_block b p s) fun ended t => ?_
    split
    · exact .of_eq rfl rfl
    · exact ih t

/-- A block's decoding names that block and writes it alone. -/
theorem decodeBlock_block (s : State) : BlockOnly b (s.openBlock b) (decodeBlock b s).state := by
  refine flowBind_block b (flowBind_block b (brRead_frame _ _ _).block fun _ t => ?_) fun _ t => ?_
  · exact storeDeq_block b _ _ _ _ t
  · exact codeLoop_block b _ 63 t

end

/-- A block that ends, ends in state EndOfBlock. -/
theorem decodeBlock_ok {b : Nat} {s t : State} (h : decodeBlock b s = .ok () t) : t.vstate = .endOfBlock := by
  obtain ⟨_, u, hstart, hloop⟩ := flowBind_eq_ok.1 h
  have haccnt : u.accnt = 0#7 := by
    obtain ⟨dc, w, hread, hstore⟩ := flowBind_eq_ok.1 hstart
    have hw : w.accnt = 0#7 := by
      have hframe := brRead_frame vldShort s.cfg.dcBits (s.openBlock b)
      rw [show (s.openBlock b).cfg = s.cfg from rfl] at hread
      rw [hread, Flow.state_ok] at hframe
      rw [hframe]; rfl
    rcases storeDeq_cases b 0 (sext w.cfg.dcBits dc) (planeOf b) 0 w with ⟨-, -, e⟩ | ⟨-, e⟩ <;>
      rw [e] at hstore <;> cases hstore
    exact hw
  exact codeLoop_ok (by simp [haccnt]) (by simp [haccnt]) hloop

/-! ### The six blocks -/

/-- BLK is `b`, and the blocks above it hold zeros. -/
def ZeroAbove (b : Nat) (s : State) : Prop := s.blk.toNat = b ∧ ∀ k, b < k → ∀ i, s.coefAt k i = 0

theorem decodeBlock_zeroAbove {b : Nat} {s : State} (hb : b ≤ 5) (hzero : ∀ k, b ≤ k → ∀ i, s.coefAt k i = 0) :
    ZeroAbove b (decodeBlock b s).state := by
  obtain ⟨hblk, hcoef⟩ := decodeBlock_block b s
  refine ⟨?_, fun k hk i => ?_⟩
  · rw [hblk, State.openBlock_blk, BitVec.toNat_ofNat]; omega
  · rw [hcoef k (by omega) i]; exact hzero k (by omega) i

theorem decodeBlocks_range'_succ (b m : Nat) (s : State) :
    decodeBlocks (List.range' b (m + 1)) s =
      flowBind (decodeBlock b s) fun _ t => decodeBlocks (List.range' (b + 1) m) t := by
  rw [List.range'_succ, decodeBlocks]

/-- Blocks `b` to `b + m`, with nothing in COEF from block `b` on: the blocks above the one that raised stay zero, and
when none raises the last one is `b + m`, in state EndOfBlock. -/
theorem decodeBlocks_range' {m b : Nat} {s : State} (hb : b + m ≤ 5) (hzero : ∀ k, b ≤ k → ∀ i, s.coefAt k i = 0) :
    (∃ k ≤ 5, ZeroAbove k (decodeBlocks (List.range' b (m + 1)) s).state) ∧
    ∀ t, decodeBlocks (List.range' b (m + 1)) s = .ok () t → t.blk.toNat = b + m ∧ t.vstate = .endOfBlock := by
  induction m generalizing b s with
  | zero =>
    have hz := decodeBlock_zeroAbove (b := b) hb hzero
    have hone : decodeBlocks (List.range' b 1) s = decodeBlock b s := by
      rw [decodeBlocks_range'_succ]
      cases decodeBlock b s <;> rfl
    rw [hone]
    refine ⟨⟨b, hb, hz⟩, fun t ht => ⟨?_, decodeBlock_ok ht⟩⟩
    rw [ht] at hz
    exact hz.1
  | succ m ih =>
    have hz := decodeBlock_zeroAbove (b := b) (by omega) hzero
    rw [decodeBlocks_range'_succ]
    cases hblock : decodeBlock b s with
    | raised e info t =>
      rw [hblock] at hz
      exact ⟨⟨b, by omega, hz⟩, fun t ht => by cases ht⟩
    | ok _ t =>
      rw [hblock] at hz
      obtain ⟨habove, hend⟩ := ih (b := b + 1) (s := t) (by omega) fun k hk => hz.2 k (by omega)
      refine ⟨habove, fun u hu => ?_⟩
      obtain ⟨hblk, hv⟩ := hend u hu
      exact ⟨by omega, hv⟩

theorem commandFlow_vldMb_of_header {s : State} (ha : s.brActive = true) (hh : s.hdrOk = true) :
    commandFlow .vldMb s = decodeBlocks (List.range' 0 6) s.clearCoef := by
  simp [commandFlow, needSlice_of_active _ ha, hh, List.range'_succ]

/-- CorruptFrame taken at BITPOS, after nothing but VLD.MB's own writes (R153, R280). -/
theorem exec_vldMb_of_raised {s u : State} {e : Exc} (h : commandFlow .vldMb s = .raised e u.bitpos u)
    (he : excCode e = 3#8) :
    ∃ t, t = faultedAs u 0x21#8 3#8 (excCause e) u.bitpos ∧ exec .vldMb s = .next t ∧
      t = faultedAs (vldWrites s t) 0x21#8 3#8 (excCause e) t.bitpos := by
  have hown : Writes .vldMb s u := by
    have hwrites := commandFlow_writes .vldMb s
    rwa [h] at hwrites
  refine ⟨_, rfl, he ▸ exec_of_raised h, ?_⟩
  rw [hown]; rfl

/-- Settles O21: the two gates, then the six blocks; what they raise is `decodeBlocks_raisesCorrupt`, where they stand
`decodeBlocks_range'`. -/
theorem vldMbCompletesOrIsCorrupt : Obligations.VldMbCompletesOrIsCorrupt := by
  intro s
  refine ⟨fun ha => ?inactive, fun ha hh => ?noHeader, fun ha hh => ?_⟩
  case inactive =>
    have hflow : commandFlow .vldMb s = .raised .sequenceBrInactive 0#32 s := by
      rw [commandFlow, needSlice_of_inactive _ ha, flowBind_raised]
    exact exec_of_raised hflow
  case noHeader =>
    have hflow : commandFlow .vldMb s = .raised .sequenceNoHdr 0#32 s := by
      rw [commandFlow, needSlice_of_active _ ha, flowBind_ok, if_neg (by simp [hh])]
    exact exec_of_raised hflow
  have hflow := commandFlow_vldMb_of_header ha hh
  have hraise := decodeBlocks_raisesCorrupt (List.range' 0 6) s.clearCoef
  have honly := decodeBlocks_frame (List.range' 0 6) s.clearCoef
  obtain ⟨⟨b, hb, hzero⟩, hend⟩ :=
    decodeBlocks_range' (b := 0) (m := 5) (s := s.clearCoef) (by omega) fun k _ i => s.coefAt_clearCoef k i
  cases hblocks : decodeBlocks (List.range' 0 6) s.clearCoef with
  | ok _ t =>
    rw [hblocks] at hflow honly
    obtain ⟨hblk, hv⟩ := hend t hblocks
    exact ⟨_, exec_of_ok hflow, .inl ⟨VldOnly.complete_eq (VldOnly.trans (b := s.clearCoef) rfl honly),
      BitVec.eq_of_toNat_eq hblk, hv⟩⟩
  | raised e info t =>
    rw [hblocks] at hflow hraise hzero
    obtain ⟨⟨hcode, hcause⟩, rfl⟩ := hraise
    obtain ⟨_, rfl, hexec, hwrites⟩ := exec_vldMb_of_raised hflow hcode
    refine ⟨_, hexec, .inr ⟨excCause e, hcause, hwrites, hzero.1.trans_le hb, fun k _ hk i _ => ?_⟩⟩
    exact hzero.2 k (hzero.1 ▸ hk) i

end Sys2Proof.Machine
end

section
/-! PROOFS. Where the stream stops VLD.MB (41_vld.md R143 to R155). -/

namespace Sys2Proof.Machine

/-! ### A raise of a primitive, and the state it is raised in -/

/-- A flow raises `e` where `s` stands: with info BITPOS, and nothing moved but the hidden accumulator. -/
def RaisesHere {α : Type} (f : Flow α) (e : Exc) (s : State) : Prop :=
  ∃ t, f = .raised e t.bitpos t ∧ HiddenOnly s t

theorem RaisesHere.bind {α β : Type} {f : Flow α} {e : Exc} {s : State} (h : RaisesHere f e s)
    (k : α → State → Flow β) : RaisesHere (flowBind f k) e s := by
  obtain ⟨t, rfl, hst⟩ := h
  exact ⟨t, flowBind_raised .., hst⟩

theorem brRead_of_short {n : Nat} {s : State} (h : s.brNbits.toNat < s.bitpos.toNat + n) :
    RaisesHere (brRead vldShort n s) .corruptBudget s := by
  rcases brRead_cases vldShort n s with ⟨h', -⟩ | ⟨-, e⟩
  · omega
  · exact ⟨ensure n s, by rw [e, ensure_bitpos]; rfl, ensure_hidden n s⟩

section
variable {bits : Nat} {entry : Nat → TableEntry} {s : State}

/-- A key with no code (R144). -/
theorem lookupCode_of_invalid (h : (entry (peekPadValue bits s)).kind = .invalid) :
    RaisesHere (lookupCode bits entry s) .corruptCode s := by
  rcases lookupCode_cases bits entry s with ⟨-, e⟩ | ⟨h', -⟩ | ⟨h', -⟩
  · exact ⟨ensure bits s, by rw [e, ensure_bitpos], ensure_hidden bits s⟩
  · exact absurd h h'
  · exact absurd h h'

/-- A code longer than what is left (R152). -/
theorem lookupCode_of_short (h : (entry (peekPadValue bits s)).kind ≠ .invalid)
    (hshort : s.brNbits.toNat < s.bitpos.toNat + (entry (peekPadValue bits s)).len) :
    RaisesHere (lookupCode bits entry s) .corruptBudget s := by
  rcases lookupCode_cases bits entry s with ⟨h', -⟩ | ⟨-, -, e⟩ | ⟨-, hfits, -⟩
  · exact absurd h' h
  · exact ⟨_, by rw [e, ensure_bitpos, ensure_bitpos], (ensure_hidden bits s).trans (ensure_hidden _ _)⟩
  · omega

/-- A code the slice has whole (R144). -/
theorem lookupCode_of_fits (h : (entry (peekPadValue bits s)).kind ≠ .invalid)
    (hfits : s.bitpos.toNat + (entry (peekPadValue bits s)).len ≤ s.brNbits.toNat) :
    ∃ t, lookupCode bits entry s = .ok (entry (peekPadValue bits s)) t ∧ CursorOnly s t ∧
      t.bitpos.toNat = s.bitpos.toNat + (entry (peekPadValue bits s)).len := by
  have hframe := lookupCode_frame bits entry s
  rcases lookupCode_cases bits entry s with ⟨h', -⟩ | ⟨-, hshort, -⟩ | ⟨-, -, e⟩
  · exact absurd h' h
  · omega
  · rw [e] at hframe
    refine ⟨_, e, hframe, ?_⟩
    rw [advance_bitpos_toNat (by simpa using hfits), ensure_bitpos, ensure_bitpos]

end

/-- Behind an `escapePrefix` code that fits, a code is one of table B (R144). -/
theorem decodePair_of_escapePrefix {s : State} (h : (s.cfg.entryA (peekPadValue 8 s)).kind = .escapePrefix)
    (hfits : s.bitpos.toNat + (s.cfg.entryA (peekPadValue 8 s)).len ≤ s.brNbits.toNat) :
    ∃ t, decodePair s = lookupCode t.cfg.wB t.cfg.entryB t ∧ CursorOnly s t ∧
      t.bitpos.toNat = s.bitpos.toNat + (s.cfg.entryA (peekPadValue 8 s)).len := by
  obtain ⟨t, hcode, hcursor, hpos⟩ := lookupCode_of_fits (by simp [h]) hfits
  refine ⟨t, ?_, hcursor, hpos⟩
  rw [decodePair, hcode, flowBind_ok]
  simp only [h]

/-! ### The look-ahead key, as the statements write it (R125, R144) -/

theorem peekPadValue_eq_paddedKey {s t : State} (h : SameSlice s t) (w : Nat) :
    peekPadValue w t = paddedKey s w t.bitpos.toNat := by
  rw [peekPadValue, bitsValue_eq_bitSum, paddedKey]
  congr 1
  funext i
  rw [padBit, h.nbits, h.bit]

section
variable {s t : State} (h : VldOnly s t)
include h

theorem VldOnly.levelA_eq : levelA s t.bitpos.toNat = t.cfg.entryA (peekPadValue 8 t) := by
  rw [levelA, peekPadValue_eq_paddedKey h.sameSlice, h.config.1]

theorem VldOnly.levelB_eq : levelB s t.bitpos.toNat = t.cfg.entryB (peekPadValue t.cfg.wB t) := by
  rw [levelB, peekPadValue_eq_paddedKey h.sameSlice, h.config.1]

end

/-! ### After some whole blocks -/

/-- VLD.MB has decoded the blocks `done` and stands before the next one, in state `u`. -/
structure AtBlock (s u : State) (done : List CodedBlock) : Prop where
  raises : ∀ {e info v}, decodeBlock done.length u = .raised e info v → commandFlow .vldMb s = .raised e info v
  only   : VldOnly s u
  bitpos : u.bitpos.toNat = s.bitpos.toNat + (blocksBits s.cfg done).length
  coef   : coefHoldsOnly s u done

theorem vldMb_atBlock {s : State} {done : List CodedBlock} {rest : List Bool} (hready : vldReady s)
    (hlt : done.length < 6) (hlegal : blocksLegal s done) (hstream : streamBegins s (blocksBits s.cfg done ++ rest)) :
    ∃ u, AtBlock s u done ∧ streamBegins u rest := by
  obtain ⟨u, hflow, honly, -, -, hpos, hcoef⟩ :=
    decodeBlocks_stream (s0 := s) hready.1 done 0 6 s.clearCoef (fun _ _ => 0) (by omega) (by omega) rfl
      (fun k i _ => s.coefAt_clearCoef k i) (fun _ _ _ _ => rfl)
      (fun j hj b hb => by simpa using hlegal j hj b hb) (streamBegins_clearCoef (streamBegins_left hstream))
  refine ⟨u, ⟨fun {e info v} hraise => ?_, honly, hpos, fun k _ i hi => hcoef k i hi⟩,
    streamBegins_right hstream honly.sameSlice hpos⟩
  obtain ⟨m, hm⟩ : ∃ m, 6 - done.length = m + 1 := ⟨5 - done.length, by omega⟩
  rw [commandFlow_vldMb hready, hflow, Nat.zero_add, hm, decodeBlocks_range'_succ, hraise, flowBind_raised]

/-! ### At a DC field (R143) -/

/-- A DC field the slice has no room for. -/
theorem decodeBlock_of_short_dc {b : Nat} {s : State} (h : s.brNbits.toNat < s.bitpos.toNat + s.cfg.dcBits) :
    RaisesHere (decodeBlock b s) .corruptBudget (s.openBlock b) :=
  ((brRead_of_short (s := s.openBlock b) h).bind _).bind _

/-- A DC that no 16-bit register can hold. -/
theorem decodeBlock_of_large_dc {b dc : Nat} {s : State} (hdc : dc < 2 ^ s.cfg.dcBits)
    (hstream : streamBegins s (keyBits s.cfg.dcBits s.cfg.dcBits dc))
    (hlarge : deq s (sext s.cfg.dcBits dc) (planeOf b) 0 < -32768 ∨
      32767 < deq s (sext s.cfg.dcBits dc) (planeOf b) 0) :
    ∃ t, RaisesHere (decodeBlock b s) .corruptCoefRange t ∧ CursorOnly (s.openBlock b) t ∧
      t.bitpos.toNat = s.bitpos.toNat + s.cfg.dcBits := by
  obtain ⟨t, hread, hcursor, hpos⟩ := brRead_stream (s := s.openBlock b) vldShort hdc hstream
  have hcfg : t.cfg = s.cfg := by rw [hcursor]; rfl
  have hdeq : deq t (sext s.cfg.dcBits dc) (planeOf b) 0 = deq s (sext s.cfg.dcBits dc) (planeOf b) 0 := by
    rw [hcursor]; rfl
  have hstart : startBlock b (planeOf b) (s.openBlock b) = .raised .corruptCoefRange t.bitpos t := by
    rw [startBlock, State.openBlock_cfg, hread, flowBind_ok, hcfg]
    rcases storeDeq_cases b 0 (sext s.cfg.dcBits dc) (planeOf b) 0 t with ⟨h1, h2, -⟩ | ⟨-, e⟩
    · rw [hdeq] at h1 h2; omega
    · exact e
  exact ⟨t, RaisesHere.bind ⟨t, hstart, .refl t⟩ _, hcursor, hpos⟩

/-- A raise at the DC field of the next block leaves the registers as the block's start set them (R142, R153). -/
theorem AtBlock.stops {s u w : State} {done : List CodedBlock} {e : Exc} (hu : AtBlock s u done)
    (hlt : done.length < 6) (hraise : RaisesHere (decodeBlock done.length u) e w)
    (hw : CursorOnly (u.openBlock done.length) w) (he : excCode e = 3#8) :
    ∃ t, exec .vldMb s = .next t ∧ t = faultedAs (vldWrites s t) 0x21#8 3#8 (excCause e) t.bitpos ∧
      t.bitpos = w.bitpos ∧ t.blk.toNat = done.length ∧ t.vstate = .readRunValue ∧ t.pos = 0#6 ∧ t.accnt = 0#7 ∧
      t.escrun = 0#6 ∧ coefHoldsOnly s t done := by
  obtain ⟨v, hflow, hhidden⟩ := hraise
  have hv : CursorOnly (u.openBlock done.length) v := hw.trans hhidden.cursor
  obtain ⟨t, ht, hexec, hwrites⟩ := exec_vldMb_of_raised (hu.raises hflow) he
  have hcoef : t.coef = u.coef := by rw [ht, hv]; rfl
  refine ⟨t, hexec, hwrites, ?_, ?_, ?_, ?_, ?_, ?_, fun k hk i hi => ?_⟩
  · rw [ht, hhidden]; rfl
  · have hblk : t.blk = BitVec.ofNat 3 done.length := by rw [ht, hv]; rfl
    rw [hblk, BitVec.toNat_ofNat]; omega
  · rw [ht, hv]; rfl
  · rw [ht, hv]; rfl
  · rw [ht, hv]; rfl
  · rw [ht, hv]; rfl
  · exact (State.coefAt_congr hcoef k i).trans (hu.coef k hk i hi)

/-- Settles O25: the DC field of the next block does not fit. -/
theorem vldMbStopsWhereTheDcDoesNotFit : Obligations.VldMbStopsWhereTheDcDoesNotFit := by
  intro s done hready hlt hlegal hstream hshort
  obtain ⟨u, hu, -⟩ := vldMb_atBlock (rest := []) hready hlt hlegal (by simpa using hstream)
  have hraise := decodeBlock_of_short_dc (b := done.length) (s := u)
    (by rw [hu.only.sameSlice.nbits, hu.only.config.1, hu.bitpos]; exact hshort)
  obtain ⟨t, hexec, hwrites, hpos, hblk, hv, hp, ha, -, hcoef⟩ := hu.stops hlt hraise (.refl _) rfl
  exact ⟨t, hexec, hwrites, by rw [hpos]; exact hu.bitpos, hblk, hv, hp, ha, hcoef⟩

/-- Settles O59: the DC field of the next block is read, and its product does not fit. -/
theorem vldMbStopsAtADcOutOfRange : Obligations.VldMbStopsAtADcOutOfRange := by
  intro s done dc hready hlt hlegal hdc hstream hlarge
  obtain ⟨u, hu, hrest⟩ := vldMb_atBlock hready hlt hlegal hstream
  obtain ⟨hcfg, hq⟩ := hu.only.config
  obtain ⟨w, hraise, hw, hplace⟩ := decodeBlock_of_large_dc (b := done.length) (s := u) (dc := dc)
    (by rw [hcfg]; exact hdc) (by rw [hcfg]; exact hrest) (by rw [deq, hcfg, hq]; exact hlarge)
  obtain ⟨t, hexec, hwrites, hpos, hblk, hv, hp, ha, hesc, hcoef⟩ := hu.stops hlt hraise hw rfl
  refine ⟨t, hexec, hwrites, ?_, hblk, hv, hp, ha, hesc, hcoef⟩
  rw [hpos, hplace, hu.bitpos, hcfg]

/-! ### Inside a block, before a code -/

/-- VLD.MB has decoded the blocks `done` and, of the next one, the DC and the pairs of `part`, and stands before a
code, in state `u`. -/
structure AtCode (s u : State) (done : List CodedBlock) (part : CodedBlock) : Prop where
  raises : ∀ {e info v}, oneCode done.length (planeOf done.length) u = .raised e info v →
    commandFlow .vldMb s = .raised e info v
  only   : VldOnly s u
  bitpos : u.bitpos.toNat = afterStart s done part
  vstate : u.vstate = .readRunValue
  blk    : u.blk.toNat = done.length
  pos    : u.pos.toNat = lastPosition s.cfg part
  accnt  : u.accnt.toNat = part.pairs.length
  escrun : u.escrun.toNat = escapeRun s.cfg part
  spread : part.pairs.length ≤ lastPosition s.cfg part
  inside : lastPosition s.cfg part ≤ 63
  coef   : coefHolds s u done part

theorem vldMb_atCode {s : State} {done : List CodedBlock} {part : CodedBlock} {rest : List Bool}
    (hready : vldReady s) (hlt : done.length < 6) (hlegal : blocksLegal s done)
    (hpart : startLegal s.cfg s.qscale.toNat (planeOf done.length) part = true)
    (hstream : streamBegins s (blocksBits s.cfg done ++ startBits s.cfg part ++ rest)) :
    ∃ u, AtCode s u done part ∧ streamBegins u rest := by
  rw [List.append_assoc] at hstream
  obtain ⟨w, hw, hstart⟩ := vldMb_atBlock hready hlt hlegal hstream
  have hzero : ∀ i < 64, w.coefAt done.length i = 0 := fun i hi => by simpa using hw.coef done.length hlt i hi
  obtain ⟨u, hloop, hin, hpos⟩ := decodeBlock_start hready.1 rfl hlt hw.only hzero (fun _ _ _ => rfl) part hpart
    (streamBegins_left hstart)
  refine ⟨u, ⟨fun {e info v} hraise => ?raises, hin.only, ?bitpos, hin.vst, hin.blk, hin.posE, hin.accE, hin.escE,
    hin.npos, hin.posl, fun k hk i hi => ?coef⟩, ?rest⟩
  case raises => exact hw.raises (hloop.trans (codeLoop_raise hraise))
  case bitpos => rw [hpos, hw.bitpos, afterStart, List.length_append, Nat.add_assoc]
  case coef =>
    by_cases hk' : k = done.length
    · rw [hk', if_neg (lt_irrefl _), if_pos rfl]
      exact hin.cb i hi
    · rw [hin.co k hk' i, hw.coef k hk i hi, if_neg hk']
      by_cases hdone : k < done.length <;> simp [hdone]
  case rest =>
    have hs := hw.only.sameSlice
    have ht := hin.only.sameSlice
    exact streamBegins_right hstart ⟨ht.base.trans hs.base.symm, ht.ibuf.trans hs.ibuf.symm,
      ht.epoch.trans hs.epoch.symm, ht.nbits.trans hs.nbits.symm⟩ hpos

theorem blockBegun.atCode {s : State} {done : List CodedBlock} {part : CodedBlock} (h : blockBegun s done part) :
    ∃ u, AtCode s u done part := by
  obtain ⟨hready, hlt, hlegal, hpart, hstream⟩ := h
  obtain ⟨u, hu, -⟩ := vldMb_atCode (rest := []) hready hlt hlegal hpart (by simpa using hstream)
  exact ⟨u, hu⟩

/-- `t` is `s` but for what reading a code and its raw code writes (R144, R147). -/
def ReadingOnly (s t : State) : Prop :=
  t = { s with
    bitpos := t.bitpos, acc := t.acc, nvalid := t.nvalid, wptr := t.wptr, vstate := t.vstate, escrun := t.escrun }

theorem CursorOnly.reading {s t : State} (h : CursorOnly s t) : ReadingOnly s t := by
  unfold CursorOnly at h; unfold ReadingOnly; rw [h]

section
variable {s u w : State} {done : List CodedBlock} {part : CodedBlock} {e : Exc}

/-- A raise while a code is read leaves what was placed (R153). -/
theorem AtCode.stops (hu : AtCode s u done part)
    (hraise : RaisesHere (oneCode done.length (planeOf done.length) u) e w) (hw : ReadingOnly u w)
    (he : excCode e = 3#8) :
    stopsInBlock s done part (excCause e) w.bitpos.toNat w.vstate w.escrun.toNat := by
  obtain ⟨v, hflow, hhidden⟩ := hraise
  obtain ⟨t, ht, hexec, hwrites⟩ := exec_vldMb_of_raised (hu.raises hflow) he
  have hcoef : t.coef = u.coef := by rw [ht, hhidden, hw]; rfl
  have hblk : t.blk = u.blk := by rw [ht, hhidden, hw]; rfl
  have hpos : t.pos = u.pos := by rw [ht, hhidden, hw]; rfl
  have haccnt : t.accnt = u.accnt := by rw [ht, hhidden, hw]; rfl
  refine ⟨t, hexec, hwrites, ?_, ?_, ?_, hblk ▸ hu.blk, hpos ▸ hu.pos, haccnt ▸ hu.accnt, fun k hk i hi => ?_⟩
  · rw [ht, hhidden]; rfl
  · rw [ht, hhidden]; rfl
  · rw [ht, hhidden]; rfl
  · exact (State.coefAt_congr hcoef k i).trans (hu.coef k hk i hi)

/-- The same of a raise before a pair's code was read whole: VSTATE and ESCRUN are as before. -/
theorem AtCode.stops_in_decodePair (hu : AtCode s u done part) (hraise : RaisesHere (decodePair u) e w)
    (hw : CursorOnly u w) (he : excCode e = 3#8) :
    stopsInBlock s done part (excCause e) w.bitpos.toNat .readRunValue (escapeRun s.cfg part) := by
  have hstop := hu.stops (hraise.bind _) hw.reading he
  rwa [show w.vstate = .readRunValue by rw [hw]; exact hu.vstate,
    show w.escrun.toNat = escapeRun s.cfg part by rw [hw]; exact hu.escrun] at hstop

theorem AtCode.levelA_eq (hu : AtCode s u done part) :
    levelA s (afterStart s done part) = u.cfg.entryA (peekPadValue 8 u) := hu.bitpos ▸ hu.only.levelA_eq

/-- A raise at table A, where the code begins. -/
theorem AtCode.stops_at_levelA (hu : AtCode s u done part) (hraise : RaisesHere (lookupCode 8 u.cfg.entryA u) e u)
    (he : excCode e = 3#8) :
    stopsInBlock s done part (excCause e) (afterStart s done part) .readRunValue (escapeRun s.cfg part) :=
  hu.bitpos ▸ hu.stops_in_decodePair (hraise.bind _) (.refl u) he

/-- Behind an `escapePrefix` code that fits, VLD.MB looks the code up in table B, and a raise there stops it just after
that code. -/
theorem AtCode.stops_at_levelB (hu : AtCode s u done part)
    (hA : (levelA s (afterStart s done part)).kind = .escapePrefix)
    (hfits : afterStart s done part + (levelA s (afterStart s done part)).len ≤ s.brNbits.toNat) :
    ∃ w, w.brNbits = s.brNbits ∧
      w.bitpos.toNat = afterStart s done part + (levelA s (afterStart s done part)).len ∧
      levelB s (afterStart s done part + (levelA s (afterStart s done part)).len) =
        w.cfg.entryB (peekPadValue w.cfg.wB w) ∧
      ∀ {e}, RaisesHere (lookupCode w.cfg.wB w.cfg.entryB w) e w → excCode e = 3#8 →
        stopsInBlock s done part (excCause e) (afterStart s done part + (levelA s (afterStart s done part)).len)
          .readRunValue (escapeRun s.cfg part) := by
  rw [hu.levelA_eq] at hA hfits ⊢
  rw [← hu.bitpos] at hfits ⊢
  obtain ⟨w, hcode, hcursor, hpos⟩ := decodePair_of_escapePrefix hA (by rw [hu.only.sameSlice.nbits]; exact hfits)
  have honly : VldOnly s w := hu.only.trans hcursor.vld
  rw [← hpos]
  exact ⟨w, honly.sameSlice.nbits, rfl, honly.levelB_eq, fun hraise he =>
    hu.stops_in_decodePair (hcode ▸ hraise) hcursor he⟩

end

/-- Settles O23: the key has no entry in table A, or, behind an `escapePrefix` code that fits, none in table B. -/
theorem vldMbStopsAtAnInvalidCode : Obligations.VldMbStopsAtAnInvalidCode := by
  intro s done part hbegun
  obtain ⟨u, hu⟩ := hbegun.atCode
  refine ⟨fun hA => ?_, fun hA hfits hB => ?_⟩
  · rw [hu.levelA_eq] at hA
    exact hu.stops_at_levelA (lookupCode_of_invalid hA) rfl
  · obtain ⟨w, -, -, hlevel, hstop⟩ := hu.stops_at_levelB hA hfits
    rw [hlevel] at hB
    exact hstop (lookupCode_of_invalid hB) rfl

/-! ### A raw code that does not fit (R147) -/

/-- No entry of a legal table has a run past 63 (R7), and neither has the one that stands for none. -/
theorem entry_run_le {l : List TableEntry} (h : ∀ x ∈ l, x.fieldsInRange = true) (k : Nat) :
    (l[k]?.getD TableEntry.none).run ≤ 63 := by
  cases e : l[k]? with
  | none => simp [TableEntry.none]
  | some x =>
    have hx := h x (List.mem_of_getElem? e)
    simp only [TableEntry.fieldsInRange, Bool.and_eq_true, decide_eq_true_eq] at hx
    exact hx.1.1

theorem codeEntry_run_le {c : Config} (hc : c.wellFormed = true) (p : CodedPair) : (codeEntry c p).run ≤ 63 := by
  obtain ⟨hA, hB, -⟩ := wellFormed_parts hc
  simp only [Config.tableAOk, Config.tableBOk, Bool.and_eq_true] at hA hB
  obtain ⟨⟨-, hallA⟩, -⟩ := hA
  obtain ⟨⟨-, hallB⟩, -⟩ := hB
  unfold codeEntry
  split
  · exact entry_run_le (fun x hx => (Bool.and_eq_true_iff.1 (List.all_eq_true.1 hallB x hx)).1) p.keyB
  · exact entry_run_le (fun x hx => (Bool.and_eq_true_iff.1 (List.all_eq_true.1 hallA x hx)).1) p.keyA

/-- A pair's code with the escape sentinel, and less than a raw code behind it. -/
theorem oneCode_of_short_raw {b : Nat} {pl : Plane} {s : State} {p : CodedPair} (hc : s.cfg.wellFormed = true)
    (hp : codeLegal s.cfg p = true) (hrun : (codeEntry s.cfg p).run ≠ 0) (hraw : hasRaw s.cfg p = true)
    (hstream : streamBegins s (codeBits s.cfg p))
    (hshort : s.brNbits.toNat < s.bitpos.toNat + (codeBits s.cfg p).length + s.cfg.rawBits) :
    ∃ t, RaisesHere (oneCode b pl s) .corruptBudget t ∧ ReadingOnly s t ∧ t.vstate = .readEscape ∧
      t.escrun.toNat = (codeEntry s.cfg p).run ∧ t.bitpos.toNat = s.bitpos.toNat + (codeBits s.cfg p).length := by
  obtain ⟨u, hcode, hcursor, hpos⟩ := decodePair_stream hc hp hstream
  have hcfg : u.cfg = s.cfg := by rw [hcursor]
  have hsentinel : (codeEntry s.cfg p).value = u.cfg.escSentinel := by
    rw [hcfg]; simpa [hasRaw] using hraw
  have hshort' : u.brNbits.toNat < u.bitpos.toNat + u.cfg.rawBits := by
    rw [hpos, hcfg, hcursor.vld.sameSlice.nbits]; exact hshort
  have hvalue : RaisesHere (pairValue (codeEntry s.cfg p) u) .corruptBudget
      { u with vstate := .readEscape, escrun := BitVec.ofNat 6 (codeEntry s.cfg p).run } := by
    rw [pairValue, if_pos hsentinel, readEscape_short hshort']
    exact ⟨_, by rw [ensure_bitpos], ensure_hidden _ _⟩
  have hone : RaisesHere (oneCode b pl s) .corruptBudget
      { u with vstate := .readEscape, escrun := BitVec.ofNat 6 (codeEntry s.cfg p).run } := by
    rw [oneCode, hcode, flowBind_ok, if_neg hrun]
    exact hvalue.bind _
  refine ⟨_, hone, ?_, rfl, ?_, hpos⟩
  · rw [hcursor]; rfl
  · have := codeEntry_run_le hc p
    show (BitVec.ofNat 6 _).toNat = _
    rw [BitVec.toNat_ofNat]; omega

/-- Settles O58: what does not fit is a code of table A, a code of table B behind an `escapePrefix`, or a raw code. -/
theorem vldMbStopsWhereACodeDoesNotFit : Obligations.VldMbStopsWhereACodeDoesNotFit := by
  intro s done part hbegun
  refine ⟨fun hA hshort => ?levelA, fun start hstart hA hfits hB hshort => ?levelB,
    fun p hp hrun hraw hstream hshort => ?raw⟩
  case levelA =>
    obtain ⟨u, hu⟩ := hbegun.atCode
    rw [hu.levelA_eq] at hA hshort
    exact hu.stops_at_levelA
      (lookupCode_of_short hA (by rw [hu.only.sameSlice.nbits, hu.bitpos]; exact hshort)) rfl
  case levelB =>
    subst hstart
    obtain ⟨u, hu⟩ := hbegun.atCode
    obtain ⟨w, hnbits, hpos, hlevel, hstop⟩ := hu.stops_at_levelB hA hfits
    rw [hlevel] at hB hshort
    exact hstop (lookupCode_of_short hB (by rw [hnbits, hpos]; exact hshort)) rfl
  case raw =>
    obtain ⟨hready, hlt, hlegal, hpart, -⟩ := hbegun
    obtain ⟨u, hu, hrest⟩ := vldMb_atCode hready hlt hlegal hpart hstream
    have hcfg := hu.only.config.1
    rw [← hcfg] at hp hrun hraw hrest hshort ⊢
    obtain ⟨w, hraise, hw, hv, hesc, hpos⟩ := oneCode_of_short_raw (hcfg ▸ hready.1) hp hrun hraw hrest
      (by rw [hu.only.sameSlice.nbits, hu.bitpos]; exact hshort)
    have hstop := hu.stops hraise hw rfl
    rwa [hv, hesc, hpos, hu.bitpos] at hstop

/-! ### A pair that cannot be placed (R146, R150) -/

/-- The state in which a pair that cannot be placed raises: it is counted, and POS has moved when it could. -/
def unplaced (s : State) (run : Nat) : State :=
  { s with
    accnt := s.accnt + 1#7, pos := if 63 < s.pos.toNat + run then s.pos else BitVec.ofNat 6 (s.pos.toNat + run) }

/-- AC_COUNT before AC_POS before COEF_RANGE. A block that holds 63 values has no position left, so POS moves for
COEF_RANGE alone. -/
theorem place_of_unplaceable {b run : Nat} {p : Plane} {v : Int} {s : State} (hcount : s.accnt.toNat ≤ 63)
    (hspread : s.accnt.toNat ≤ s.pos.toNat) (hrun : run ≠ 0)
    (hbad : 63 < s.pos.toNat + run ∨
      (deq s v p (s.pos.toNat + run) < -32768 ∨ 32767 < deq s v p (s.pos.toNat + run))) :
    ∃ e, place b p run v s = .raised e s.bitpos (unplaced s run) ∧ excCode e = 3#8 ∧
      excCause e = if s.accnt.toNat = 63 then 2#8 else if 63 < s.pos.toNat + run then 3#8 else 5#8 := by
  have hnext : (s.accnt + 1#7).toNat = s.accnt.toNat + 1 := by
    rw [BitVec.toNat_add, BitVec.toNat_ofNat]; omega
  rw [unplaced]
  rcases place_cases b p run v s with ⟨hfull, e⟩ | ⟨hroom, hpast, e⟩ | ⟨hroom, hinside, e⟩
  · rw [if_pos (by omega : s.accnt.toNat = 63), if_pos (by omega : 63 < s.pos.toNat + run)]
    exact ⟨_, e, rfl, rfl⟩
  · rw [if_neg (by omega : ¬ s.accnt.toNat = 63), if_pos hpast, if_pos hpast]
    exact ⟨_, e, rfl, rfl⟩
  · have hlarge := hbad.resolve_left (by omega)
    rw [if_neg (by omega : ¬ s.accnt.toNat = 63), if_neg (by omega : ¬ 63 < s.pos.toNat + run),
      if_neg (by omega : ¬ 63 < s.pos.toNat + run), e]
    refine ⟨.corruptCoefRange, ?_, rfl, rfl⟩
    rcases storeDeq_cases b (s.cfg.zigzagAt (s.pos.toNat + run)) v p (s.pos.toNat + run)
      { s with accnt := s.accnt + 1#7, pos := BitVec.ofNat 6 (s.pos.toNat + run) } with ⟨h1, h2, -⟩ | ⟨-, e⟩
    · change -32768 ≤ deq s v p (s.pos.toNat + run) at h1
      change deq s v p (s.pos.toNat + run) ≤ 32767 at h2
      omega
    · exact e

theorem deq_of_not_fitsCoef {s t : State} (h : VldOnly s t) {pl : Plane} {k : Nat} {v : Int}
    (hfit : fitsCoef s.cfg s.qscale.toNat pl (k, v) = false) : deq t v pl k < -32768 ∨ 32767 < deq t v pl k := by
  obtain ⟨hcfg, hq⟩ := h.config
  rw [deq, hcfg, hq]
  simp only [fitsCoef, Bool.and_eq_false_iff, decide_eq_false_iff_not] at hfit
  omega

/-- Settles O24: the pair is read whole, and what `place` raises is `place_of_unplaceable`. -/
theorem vldMbStopsAtAPairItCannotPlace : Obligations.VldMbStopsAtAPairItCannotPlace := by
  intro s done part p hready hlt hlegal hpart hp hstream hbad
  obtain ⟨u, hu, hrest⟩ := vldMb_atCode hready hlt hlegal hpart hstream
  have hcfg := hu.only.config.1
  obtain ⟨w, hescape, hplace, -, hone⟩ := oneCode_read (b := done.length) (pl := planeOf done.length)
    (hcfg ▸ hready.1) hu.vstate (hcfg ▸ hp) (hcfg ▸ hrest)
  rw [hcfg] at hone hplace
  obtain ⟨hvstate, hblk, hpos, haccnt, hcoef⟩ := hescape.fields
  have hpos' : w.pos.toNat = lastPosition s.cfg part := hpos ▸ hu.pos
  have haccnt' : w.accnt.toNat = part.pairs.length := haccnt ▸ hu.accnt
  have hspread := hu.spread
  have hinside := hu.inside
  have hrun : (codeEntry s.cfg p).run ≠ 0 := by
    simp only [pairLegal, Bool.and_eq_true, bne_iff_ne] at hp
    exact hp.1.2
  obtain ⟨e, hraise, hcode, hcause⟩ := place_of_unplaceable (b := done.length) (p := planeOf done.length)
    (v := pairNumber s.cfg p) (s := w) (by omega) (by omega) hrun
    (hpos' ▸ hbad.imp_right (deq_of_not_fitsCoef (hu.only.trans hescape.vld)))
  rw [hraise, flowBind_raised] at hone
  obtain ⟨t, ht, hexec, hwrites⟩ := exec_vldMb_of_raised (u := unplaced w (codeEntry s.cfg p).run)
    (hu.raises hone) hcode
  rw [hcause, haccnt', hpos'] at hwrites
  refine ⟨t, hexec, hwrites, ?bitpos, ?blk, ?vstate, ?accnt, ?pos, fun k hk i hi => ?coef⟩
  case bitpos =>
    have hbits : t.bitpos = w.bitpos := by rw [ht]; rfl
    rw [hbits, hplace, hu.bitpos, afterStart, List.length_append (bs := pairBits s.cfg p), Nat.add_assoc]
  case blk =>
    have hsame : t.blk = u.blk := by rw [ht, ← hblk]; rfl
    rw [hsame, hu.blk]
  case vstate =>
    have hsame : t.vstate = u.vstate := by rw [ht, ← hvstate]; rfl
    rw [hsame, hu.vstate]
  case accnt =>
    have hnext : t.accnt = w.accnt + 1#7 := by rw [ht]; rfl
    rw [hnext, BitVec.toNat_add, BitVec.toNat_ofNat, haccnt']
    omega
  case pos =>
    have hnext : t.pos = if 63 < w.pos.toNat + (codeEntry s.cfg p).run then w.pos
        else BitVec.ofNat 6 (w.pos.toNat + (codeEntry s.cfg p).run) := by rw [ht]; rfl
    rw [hnext, hpos']
    split
    · exact hpos'
    · rw [BitVec.toNat_ofNat]; omega
  case coef =>
    have hsame : t.coef = u.coef := by rw [ht, ← hcoef]; rfl
    exact (State.coefAt_congr hsame k i).trans (hu.coef k hk i hi)

end Sys2Proof.Machine
end

section
/-! PROOFS. The inverse DCT's commands and what they compute (42_idct.md R180 to R187). -/

namespace Sys2Proof.Machine

/-! ### The transform as the two passes, and of a DC-only block (R181, R182, R187) -/

/-- The two passes, written as sums over the block, are the model's sample. -/
theorem columnPass_eq_idctSample (s : State) (b y x : Nat) :
    columnPass s b y x = idctSample (s.coefAt b) y x := by
  simp only [columnPass, rowPass, idctSample, idctCol, idctRow, sum8_eq_sum]

theorem sum8_eq_first {f : Nat → Int} (h : ∀ j < 8, j ≠ 0 → f j = 0) : sum8 f = f 0 := by
  rw [sum8_eq_sum]
  exact Finset.sum_eq_single_of_mem 0 (by simp) fun j hj => h j (Finset.mem_range.1 hj)

/-- The column of K for frequency 0 is constant (R180). -/
theorem idctK_zero {x : Nat} (hx : x < 8) : idctK x 0 = 2896 := by
  revert x; decide

/-- The row pass takes the DC coefficient along row 0; it takes every other row to 0. -/
theorem idctRow_of_dcOnly {F : Nat → Int} (hF : ∀ i < 64, i ≠ 0 → F i = 0) {v x : Nat} (hv : v < 8) (hx : x < 8) :
    idctRow F v x = if v = 0 then asr (2896 * F 0 + 256) 9 else 0 := by
  have hfirst : sum8 (fun u => idctK x u * F (8 * v + u)) = 2896 * F (8 * v) := by
    rw [sum8_eq_first fun u hu hne => by rw [hF _ (by omega) (by omega), mul_zero], idctK_zero hx, Nat.add_zero]
  rw [idctRow, hfirst]
  by_cases hzero : v = 0
  · rw [if_pos hzero, hzero]
  · rw [if_neg hzero, hF _ (by omega) (by omega)]; rfl

/-- Every sample of a DC-only block is the same. -/
theorem idctSample_of_dcOnly {F : Nat → Int} (hF : ∀ i < 64, i ≠ 0 → F i = 0) {y x : Nat} (hy : y < 8) (hx : x < 8) :
    idctSample F y x = dcSample (F 0) := by
  have hfirst : sum8 (fun v => idctK y v * idctRow F v x) = 2896 * asr (2896 * F 0 + 256) 9 := by
    rw [sum8_eq_first fun v hv hne => by rw [idctRow_of_dcOnly hF hv hx, if_neg hne, mul_zero], idctK_zero hy,
      idctRow_of_dcOnly hF (by omega) hx, if_pos rfl]
  rw [idctSample, idctCol, hfirst, dcSample]

/-- The flat sample is within 11/8 of d / 8: each rounding is off by less than its divisor, and 2896² falls short of
2^23 by less than one part in 4000. -/
theorem dcSample_near {d : Int} (hlo : -32768 ≤ d) (hhi : d ≤ 32767) :
    -11 ≤ 8 * dcSample d - d ∧ 8 * dcSample d - d ≤ 11 := by
  unfold dcSample asr
  omega

/-- For `d = 32k + 8r` the row pass leaves `181k + asr(181r + 2, 2)`, so the four residues `r` are the cases. -/
theorem dcSample_exact {d : Int} (hlo : -18312 ≤ d) (hhi : d ≤ 18528) (hd : d % 8 = 0) : 8 * dcSample d = d := by
  obtain ⟨k, r, hr, rfl⟩ : ∃ k r : Int, (r = 0 ∨ r = 1 ∨ r = 2 ∨ r = 3) ∧ d = 32 * k + 8 * r :=
    ⟨d / 32, d / 8 % 4, by omega, by omega⟩
  unfold dcSample asr
  rcases hr with rfl | rfl | rfl | rfl <;> omega

/-! ### One transform on the state (R183) -/

theorem State.spatAt_complete (s : State) (b i : Nat) : s.complete.spatAt b i = s.spatAt b i := rfl

theorem State.transform_complete (s : State) (b : Nat) : s.complete.transform b = (s.transform b).complete := rfl

/-- In the range of R21 every sample fits its 32-bit element, so SPAT reads back as the transform. -/
theorem spatAt_transform_of_coefInRange {s : State} {b i : Nat} (hb : b ≤ 5) (hcoef : coefInRange s b) (hi : i < 64) :
    (s.transform b).spatAt b i = idctSample (s.coefAt b) (i / 8) (i % 8) := by
  obtain ⟨hlo, hhi⟩ := idctSample_range hcoef (y := i / 8) (x := i % 8) (by omega) (by omega)
  rw [spatAt_transform s b b hi, if_pos ⟨rfl, by omega⟩, toInt_ofInt_word hlo hhi]

theorem coefInRange_of_dcOnly {s : State} {b : Nat} {d : Int} (hlo : -32768 ≤ d) (hhi : d ≤ 32767)
    (h : dcOnly s b d) : coefInRange s b := by
  obtain ⟨hdc, hac⟩ := h
  intro i hi
  by_cases hzero : i = 0
  · rw [hzero, hdc]; exact ⟨hlo, hhi⟩
  · rw [hac i hi hzero]; omega

/-! ### The two commands (R183, R184) -/

theorem exec_idctBlk_of_large {b : Word} (s : State) (hb : 5 < b.toNat) :
    exec (.idctBlk b) s = .next (faultedAs s 0x30#8 6#8 2#8 b) :=
  exec_of_raised (i := .idctBlk b) (e := .operandBlkRange) (if_pos (decide_eq_true hb))

theorem exec_idctBlk_of_le {b : Word} (s : State) (hb : b.toNat ≤ 5) :
    exec (.idctBlk b) s = .next (s.transform b.toNat).complete :=
  exec_of_ok (i := .idctBlk b) (if_neg (by simp [blkOutOfRange, hb]))

theorem exec_idctMb (s : State) :
    exec .idctMb s = .next ([0, 1, 2, 3, 4, 5].foldl State.transform s).complete := exec_of_ok (i := .idctMb) rfl

theorem foldl_transform_complete (bs : List Nat) (s : State) :
    bs.foldl State.transform s.complete = (bs.foldl State.transform s).complete :=
  List.foldl_hom State.complete fun t b => t.transform_complete b

theorem runCommands_cons {i : Instr} {s t : State} (is : List Instr) (h : exec i s = .next t) :
    runCommands (i :: is) s = runCommands is t := by
  rw [runCommands, h]

/-- IDCT.BLK commands in a row are the transforms in a row, each of them counted. -/
theorem runCommands_idctBlk {bs : List Word} (hbs : ∀ b ∈ bs, b.toNat ≤ 5) (s : State) :
    runCommands (bs.map .idctBlk) s =
      some { (bs.map BitVec.toNat).foldl State.transform s with cmdcnt := s.cmdcnt + BitVec.ofNat 32 bs.length } := by
  induction bs generalizing s with
  | nil =>
    have hcnt : s.cmdcnt + BitVec.ofNat 32 0 = s.cmdcnt := BitVec.add_zero _
    rw [List.length_nil, hcnt]; rfl
  | cons b bs ih =>
    obtain ⟨hb, hrest⟩ := List.forall_mem_cons.1 hbs
    have hcnt : s.cmdcnt + 1#32 + BitVec.ofNat 32 bs.length = s.cmdcnt + BitVec.ofNat 32 (bs.length + 1) := by
      rw [Nat.add_comm, BitVec.ofNat_add, BitVec.add_assoc]
    rw [List.map_cons, runCommands_cons _ (exec_idctBlk_of_le s hb), ih hrest, foldl_transform_complete,
      List.length_cons, ← hcnt]
    rfl

/-! ### The statements -/

/-- Settles O26: the one gate of IDCT.BLK, then one transform, which stores one block of SPAT. -/
theorem idctBlkIsTheTwoPasses : Obligations.IdctBlkIsTheTwoPasses := by
  intro s b
  refine ⟨decode_encode (.idctBlk b), exec_idctBlk_of_large s,
    fun hb => ⟨_, exec_idctBlk_of_le s hb, rfl, ?others, ?passes⟩⟩
  case others =>
    intro c hc
    exact (transform_spatBlock s (by omega) c).trans (if_neg hc)
  case passes =>
    intro hcoef y hy x hx
    have hrow : (8 * y + x) / 8 = y := by omega
    have hcol : (8 * y + x) % 8 = x := by omega
    rw [State.spatAt_complete, spatAt_transform_of_coefInRange hb hcoef (by omega), hrow, hcol,
      columnPass_eq_idctSample]

/-- Settles O27: what is stored is the transform, and every row of K has magnitudes summing to 21641. -/
theorem idctOutputIsBounded : Obligations.IdctOutputIsBounded := by
  intro s t b hb hcoef hexec i hi
  rw [exec_idctBlk_of_le s hb] at hexec
  cases hexec
  rw [State.spatAt_complete, spatAt_transform_of_coefInRange hb hcoef hi]
  exact idctSample_range hcoef (by omega) (by omega)

/-- Settles O28: both are the six transforms in a row; the counts are all that differs. -/
theorem idctMbIsSixIdctBlk : Obligations.IdctMbIsSixIdctBlk := by
  refine ⟨decode_encode .idctMb, fun s => ?_⟩
  obtain ⟨z, hz⟩ := transforms_frame [0, 1, 2, 3, 4, 5] s
  have hrun := runCommands_idctBlk (bs := [0#32, 1#32, 2#32, 3#32, 4#32, 5#32]) (by simp) s
  have hnums : [0#32, 1#32, 2#32, 3#32, 4#32, 5#32].map BitVec.toNat = [0, 1, 2, 3, 4, 5] := rfl
  rw [hnums, hz] at hrun
  refine ⟨_, hrun, rfl, ?_⟩
  rw [exec_idctMb, hz]; rfl

/-- Settles O29: both passes keep the DC coefficient's term only, and the rest is arithmetic on the two roundings. -/
theorem dcOnlyBlockIsFlat : Obligations.DcOnlyBlockIsFlat := by
  refine ⟨fun s b d hb hlo hhi hdc => ⟨_, exec_idctBlk_of_le s hb, fun i hi => ?flat⟩, fun _ => dcSample_near,
    fun _ => dcSample_exact⟩
  case flat =>
    have hcoef := coefInRange_of_dcOnly hlo hhi hdc
    obtain ⟨hd, hac⟩ := hdc
    rw [State.spatAt_complete, spatAt_transform_of_coefInRange hb hcoef hi,
      idctSample_of_dcOnly hac (by omega) (by omega), hd]

end Sys2Proof.Machine
end

section
/-! PROOFS. Colour conversion: the bytes CSC.MB writes and the bytes it leaves (43_csc.md R200 to R208). -/

namespace Sys2Proof.Machine

/-! ### One byte of PIX, as the host sees it (R63, R260) -/

section
variable {s t u : State} {a o : Nat}

/-- PIX byte `a` is in `t` as it was in `s`: what it holds, and whether that is a value for the host. -/
def PixByteKept (s t : State) (a : Nat) : Prop :=
  Memory.read? t.pix a = Memory.read? s.pix a ∧ (a ∈ t.pixFresh ↔ a ∈ s.pixFresh)

theorem PixByteKept.refl (s : State) (a : Nat) : PixByteKept s s a := ⟨rfl, .rfl⟩

theorem PixByteKept.trans (h : PixByteKept s t a) (k : PixByteKept t u a) : PixByteKept s u a :=
  ⟨k.1.trans h.1, k.2.trans h.2⟩

theorem PixByteKept.pixDefined? (h : PixByteKept s t a) : t.pixDefined? a = s.pixDefined? a := by
  obtain ⟨hread, hfresh⟩ := h
  simp only [State.pixDefined?, List.contains_iff_mem, hread, hfresh]

theorem pixWrite_kept (v : Byte) (h : a ≠ o) : PixByteKept s (s.pixWrite o v) a :=
  ⟨Memory.read?_write_other s.pix v h, by simp [h]⟩

/-- A written byte holds a value for the host, every other byte what it held. -/
theorem pixDefined?_pixWrite (s : State) (o : Nat) (v : Byte) (a : Nat) :
    (s.pixWrite o v).pixDefined? a = if a = o then some v else s.pixDefined? a := by
  split
  · subst a; simp [State.pixDefined?]
  · exact (pixWrite_kept v ‹_›).pixDefined?

/-! ### One pixel (R203 to R205) -/

theorem channelByte_toNat (sum : Int) : ((channelByte sum).toNat : Int) = channelValue sum := by
  have hrange : 0 ≤ channelValue sum ∧ channelValue sum ≤ 255 := by
    unfold channelValue clamp; split_ifs <;> omega
  unfold channelByte
  rw [← channelValue, BitVec.toNat_ofInt]
  omega

theorem storePixel_shows (s : State) (o : Nat) (y cb cr : Int) : showsPixel (s.storePixel o y cb cr) o y cb cr := by
  refine ⟨redByte y cb cr, greenByte y cb cr, blueByte y cb cr, ?_, channelByte_toNat _, ?_, channelByte_toNat _, ?_,
    channelByte_toNat _, ?_⟩ <;> simp [State.storePixel, pixDefined?_pixWrite, alphaByte]

theorem storePixel_kept (y cb cr : Int) (h : ∀ c < 4, a ≠ o + c) : PixByteKept s (s.storePixel o y cb cr) a :=
  (((pixWrite_kept _ (h 0 (by omega))).trans (pixWrite_kept _ (h 1 (by omega)))).trans
    (pixWrite_kept _ (h 2 (by omega)))).trans (pixWrite_kept _ (h 3 (by omega)))

/-- What a pixel shows depends on its four bytes. -/
theorem showsPixel_of_kept {y cb cr : Int} (hkept : ∀ c < 4, PixByteKept s t (o + c)) (h : showsPixel s o y cb cr) :
    showsPixel t o y cb cr := by
  have heq : ∀ c < 4, t.pixDefined? (o + c) = s.pixDefined? (o + c) := fun c hc => (hkept c hc).pixDefined?
  have h0 := heq 0 (by omega)
  rw [Nat.add_zero] at h0
  unfold showsPixel
  rwa [h0, heq 1 (by omega), heq 2 (by omega), heq 3 (by omega)]

/-! Completing a command leaves PIX alone (R256). -/

theorem PixByteKept.complete (h : PixByteKept s t a) : PixByteKept s t.complete a := h

theorem showsPixel_complete {y cb cr : Int} (h : showsPixel t o y cb cr) : showsPixel t.complete o y cb cr := h

theorem PixOnly.complete (h : PixOnly s t) :
    t.complete =
      { s with pix := t.complete.pix, pixFresh := t.complete.pixFresh, cmdcnt := s.cmdcnt + 1#32 } := by
  rw [h]; rfl

/-! ### The pixels of a macroblock (R205, R206) -/

variable {mbx mby : Half} {px py : Nat}

theorem cscPixel_of_inFrame (h : inFrame s mbx mby px py) :
    s.cscPixel mbx.toNat mby.toNat px py =
      s.storePixel (pixelStart s mbx mby px py) (ySample s px py) (cbSample s px py) (crSample s px py) := if_pos h

theorem cscPixel_of_not_inFrame (h : ¬ inFrame s mbx mby px py) : s.cscPixel mbx.toNat mby.toNat px py = s := if_neg h

/-- Macroblock pixel (px, py) shows, in `t`, the colour of its samples in `s`. -/
def ShowsSamples (s t : State) (mbx mby : Half) (px py : Nat) : Prop :=
  showsPixel t (pixelStart s mbx mby px py) (ySample s px py) (cbSample s px py) (crSample s px py)

theorem cscPixel_shows (h : inFrame s mbx mby px py) :
    ShowsSamples s (s.cscPixel mbx.toNat mby.toNat px py) mbx mby px py := by
  rw [cscPixel_of_inFrame h]; exact storePixel_shows ..

theorem cscPixel_kept (h : inFrame s mbx mby px py → ∀ c < 4, a ≠ pixelStart s mbx mby px py + c) :
    PixByteKept s (s.cscPixel mbx.toNat mby.toNat px py) a := by
  by_cases hin : inFrame s mbx mby px py
  · rw [cscPixel_of_inFrame hin]; exact storePixel_kept _ _ _ (h hin)
  · rw [cscPixel_of_not_inFrame hin]; exact .refl s a

/-- Two in-frame pixels share no byte: columns stay below FRAME_W, so an offset tells its row and its column. -/
theorem pixelStart_disjoint {px' py' c c' : Nat} (hin : inFrame s mbx mby px py) (hin' : inFrame s mbx mby px' py')
    (hc : c < 4) (hc' : c' < 4) (h : pixelStart s mbx mby px py + c = pixelStart s mbx mby px' py' + c') :
    px = px' ∧ py = py' := by
  obtain ⟨hcol, -⟩ := hin
  obtain ⟨hcol', -⟩ := hin'
  have hpixel : (16 * mbx.toNat + px) + (16 * mby.toNat + py) * s.frameW.toNat =
      (16 * mbx.toNat + px') + (16 * mby.toNat + py') * s.frameW.toNat := by
    unfold pixelStart at h; omega
  have hx := congrArg (· % s.frameW.toNat) hpixel
  have hy := congrArg (· / s.frameW.toNat) hpixel
  simp only [Nat.add_mul_mod_self_right, Nat.mod_eq_of_lt hcol, Nat.mod_eq_of_lt hcol'] at hx
  simp only [Nat.add_mul_div_right _ _ (Nat.zero_lt_of_lt hcol), Nat.div_eq_of_lt hcol, Nat.div_eq_of_lt hcol'] at hy
  omega

/-! The samples and the frame's size stand outside PIX. -/

theorem PixOnly.showsSamples_iff (h : PixOnly s t) :
    ShowsSamples t u mbx mby px py ↔ ShowsSamples s u mbx mby px py := by
  rw [h]; exact .rfl

theorem PixOnly.inFrame_iff (h : PixOnly s t) : inFrame t mbx mby px py ↔ inFrame s mbx mby px py := by
  rw [h]; exact .rfl

theorem PixOnly.pixelStart_eq (h : PixOnly s t) : pixelStart t mbx mby px py = pixelStart s mbx mby px py := by
  rw [h]; rfl

/-! ### The first pixels of a macroblock, in the order of R206 -/

/-- `s` after the first `n` pixels of the macroblock. -/
def State.cscPixels (s : State) (mbx mby n : Nat) : State :=
  (List.range n).foldl (fun s k => s.cscPixel mbx mby (k % 16) (k / 16)) s

theorem cscPixels_all (s : State) (mbx mby : Nat) : s.cscPixels mbx mby 256 = s.cscMacroblock mbx mby := rfl

theorem cscPixels_succ (s : State) (mbx mby n : Nat) :
    s.cscPixels mbx mby (n + 1) = (s.cscPixels mbx mby n).cscPixel mbx mby (n % 16) (n / 16) := by
  rw [State.cscPixels, List.range_succ, List.foldl_append]; rfl

theorem cscPixels_frame (s : State) (mbx mby n : Nat) : PixOnly s (s.cscPixels mbx mby n) :=
  List.foldlRecOn _ _ (.refl s) fun _ ht _ _ => ht.trans (cscPixel_frame _ mbx mby _ _)

/-- A byte of none of the in-frame pixels is left as it was. -/
theorem cscPixels_kept {n : Nat}
    (h : ∀ k < n, inFrame s mbx mby (k % 16) (k / 16) → ∀ c < 4, a ≠ pixelStart s mbx mby (k % 16) (k / 16) + c) :
    PixByteKept s (s.cscPixels mbx.toNat mby.toNat n) a := by
  induction n with
  | zero => exact .refl s a
  | succ n ih =>
    have hframe := cscPixels_frame s mbx.toNat mby.toNat n
    rw [cscPixels_succ]
    refine (ih fun k hk => h k (by omega)).trans (cscPixel_kept fun hin => ?_)
    rw [hframe.pixelStart_eq]
    exact h n n.lt_succ_self (hframe.inFrame_iff.1 hin)

/-- Each in-frame pixel shows its colour: the last of them has just been stored, and that left the others alone. -/
theorem cscPixels_shows (s : State) {n k : Nat} (hk : k < n) (hin : inFrame s mbx mby (k % 16) (k / 16)) :
    ShowsSamples s (s.cscPixels mbx.toNat mby.toNat n) mbx mby (k % 16) (k / 16) := by
  induction n with
  | zero => omega
  | succ n ih =>
    have hframe := cscPixels_frame s mbx.toNat mby.toNat n
    rw [cscPixels_succ]
    by_cases hlast : k = n
    · subst hlast
      exact hframe.showsSamples_iff.1 (cscPixel_shows (hframe.inFrame_iff.2 hin))
    · refine showsPixel_of_kept (fun c hc => cscPixel_kept fun hin' c' hc' heq => hlast ?_) (ih (by omega))
      rw [hframe.pixelStart_eq] at heq
      obtain ⟨hx, hy⟩ := pixelStart_disjoint hin (hframe.inFrame_iff.1 hin') hc hc' heq
      omega

/-! ### CSC.MB (R206) -/

theorem cscMacroblock_shows (s : State) (hpx : px < 16) (hpy : py < 16) (hin : inFrame s mbx mby px py) :
    ShowsSamples s (s.cscMacroblock mbx.toNat mby.toNat) mbx mby px py := by
  have hcol : (16 * py + px) % 16 = px := by omega
  have hrow : (16 * py + px) / 16 = py := by omega
  have h := cscPixels_shows (mbx := mbx) (mby := mby) s (n := 256) (k := 16 * py + px) (by omega)
  rw [hcol, hrow] at h
  exact h hin

/-- Flat blocks make one colour (R208). -/
theorem cscMacroblock_shows_of_flat {y cb cr : Int} (hy : ∀ b < 4, ∀ i < 64, s.spatAt b i = y)
    (hcb : ∀ i < 64, s.spatAt 4 i = cb) (hcr : ∀ i < 64, s.spatAt 5 i = cr) (hpx : px < 16) (hpy : py < 16)
    (hin : inFrame s mbx mby px py) :
    showsPixel (s.cscMacroblock mbx.toNat mby.toNat) (pixelStart s mbx mby px py) y cb cr := by
  have hshown := cscMacroblock_shows s hpx hpy hin
  rwa [ShowsSamples, ySample, cbSample, crSample, hy _ (by omega) _ (by omega), hcb _ (by omega),
    hcr _ (by omega)] at hshown

theorem cscMacroblock_kept
    (h : ∀ px < 16, ∀ py < 16, inFrame s mbx mby px py → ∀ c < 4, a ≠ pixelStart s mbx mby px py + c) :
    PixByteKept s (s.cscMacroblock mbx.toNat mby.toNat) a :=
  cscPixels_kept (n := 256) fun k hk => h (k % 16) (by omega) (k / 16) (by omega)

theorem cscMacroblock_of_outside (h : s.frameW.toNat ≤ 16 * mbx.toNat ∨ s.frameH.toNat ≤ 16 * mby.toNat) :
    s.cscMacroblock mbx.toNat mby.toNat = s :=
  List.foldl_fixed' (fun _ => cscPixel_of_not_inFrame fun ⟨hcol, hrow⟩ => by omega) _

theorem exec_cscMb (mbx mby : Half) (s : State) :
    exec (.cscMb mbx mby) s = .next (s.cscMacroblock mbx.toNat mby.toNat).complete :=
  exec_of_ok (i := .cscMb mbx mby) rfl

theorem runCommands_pair {i j : Instr} (hi : exec i s = .next t) (hj : exec j t = .next u) :
    runCommands [i, j] s = some u := by
  rw [runCommands_cons _ hi, runCommands_cons _ hj, runCommands]

end

/-! ### DC-only blocks through IDCT.MB (R184, R187) -/

theorem foldl_transform_coef (bs : List Nat) (s : State) : (bs.foldl State.transform s).coef = s.coef := by
  obtain ⟨z, hz⟩ := transforms_frame bs s
  rw [hz]

/-- Transforming blocks one after the other, each of those in the range of R21 reads back as its own transform. -/
theorem spatAt_foldl_transform {s : State} {bs : List Nat} {b i : Nat} (hmem : b ∈ bs) (hb : b ≤ 5)
    (hcoef : coefInRange s b) (hi : i < 64) :
    (bs.foldl State.transform s).spatAt b i = idctSample (s.coefAt b) (i / 8) (i % 8) := by
  induction bs using List.reverseRecOn with
  | nil => simp at hmem
  | append_singleton bs c ih =>
    rw [List.foldl_append, List.foldl_cons, List.foldl_nil]
    by_cases hlast : b = c
    · subst hlast
      have hsame : (bs.foldl State.transform s).coefAt b = s.coefAt b :=
        funext (State.coefAt_congr (foldl_transform_coef bs s) b)
      rw [spatAt_transform_of_coefInRange hb (by rwa [coefInRange, hsame]) hi, hsame]
    · rw [spatAt_transform _ _ _ hi, if_neg fun h => hlast h.1]
      exact ih (by simpa [hlast] using hmem)

theorem spatAt_idctMb_of_dcOnly {s : State} {b : Nat} {d : Int} (hb : b ≤ 5) (hd : -32768 ≤ d ∧ d ≤ 32767)
    (hdc : dcOnly s b d) : ∀ i < 64, ([0, 1, 2, 3, 4, 5].foldl State.transform s).spatAt b i = dcSample d := by
  intro i hi
  have hmem : b ∈ [0, 1, 2, 3, 4, 5] := List.mem_range.2 (by omega : b < 6)
  rw [spatAt_foldl_transform hmem hb (coefInRange_of_dcOnly hd.1 hd.2 hdc) hi]
  obtain ⟨hfirst, hac⟩ := hdc
  rw [idctSample_of_dcOnly hac (by omega) (by omega), hfirst]

/-! ### The statements -/

/-- Settles O30: by induction over the pixels of R206, of which no two share a byte. -/
theorem cscMbWritesTheInFramePixels : Obligations.CscMbWritesTheInFramePixels := by
  refine fun s mbx mby => ⟨decode_encode (.cscMb mbx mby), _, exec_cscMb mbx mby s, ?frame, ?shown, ?kept⟩
  case frame => exact (cscMacroblock_frame s mbx.toNat mby.toNat).complete
  case shown => exact fun px hpx py hpy hin => showsPixel_complete (cscMacroblock_shows s hpx hpy hin)
  case kept => exact fun a ha => (cscMacroblock_kept ha).complete

/-- Settles O31: no pixel is in the frame, so each of the 256 is passed over. -/
theorem cscMbOutsideTheFrameWritesNothing : Obligations.CscMbOutsideTheFrameWritesNothing := by
  intro s mbx mby hout
  rw [exec_cscMb, cscMacroblock_of_outside hout]; rfl

/-- Settles O32: the six transformed blocks are flat, so the samples of every pixel are the three DC samples. -/
theorem dcOnlyMacroblockIsOneColour : Obligations.DcOnlyMacroblockIsOneColour := by
  intro s mbx mby dy dcb dcr hdy hdcb hdcr hy hcb hcr
  have hidct := exec_idctMb s
  have hflatY := fun b (hb : b < 4) => spatAt_idctMb_of_dcOnly (by omega) hdy (hy b hb)
  have hflatCb := spatAt_idctMb_of_dcOnly (by omega) hdcb hcb
  have hflatCr := spatAt_idctMb_of_dcOnly (by omega) hdcr hcr
  obtain ⟨z, hz⟩ := transforms_frame [0, 1, 2, 3, 4, 5] s
  simp only [hz] at hidct hflatY hflatCb hflatCr
  exact ⟨_, runCommands_pair hidct (exec_cscMb mbx mby _), fun px hpx py hpy hin =>
    showsPixel_complete (cscMacroblock_shows_of_flat hflatY hflatCb hflatCr hpx hpy hin)⟩

end Sys2Proof.Machine
end

section
/-! PROOFS. ADPCM.INIT, and ADPCM.DEC up to its groups and through them (44_adpcm.md R223 to R228). -/

namespace Sys2Proof.Machine

/-! ### The two commands up to their first group (R226, R227) -/

section
variable {s t u : State} {groups : BitVec 24} {base : Word}

theorem commandFlow_adpcmDec_of_zero (h : groups.toNat = 0) :
    commandFlow (.adpcmDec groups base) s = .raised .operandGroupsZero base s :=
  if_pos (decide_eq_true h)

theorem commandFlow_adpcmDec_of_outside (h : 0 < groups.toNat)
    (hlen : s.ibufLen.toNat < base.toNat + 128 * groups.toNat) :
    commandFlow (.adpcmDec groups base) s = .raised .eosAudio base s :=
  (if_neg (by simp [groupsZero, h.ne'])).trans (if_pos hlen)

theorem commandFlow_adpcmDec_of_inside (h : audioInside s groups base) :
    commandFlow (.adpcmDec groups base) s = decodeGroups groups.toNat base.toNat s := by
  obtain ⟨hpos, hlen⟩ := h
  exact (if_neg (by simp [groupsZero, hpos.ne'])).trans (if_neg hlen.not_gt)

/-- An ADPCM.DEC that counts passed both operand checks and decoded every group. -/
theorem decodeGroups_of_counted (he : exec (.adpcmDec groups base) s = .next t) (hcnt : t.cmdcnt = s.cmdcnt + 1#32) :
    audioInside s groups base ∧ ∃ u, decodeGroups groups.toNat base.toNat s = .ok () u ∧ t = u.complete := by
  have hframe := commandFlow_frame (.adpcmDec groups base) s
  rcases exec_next he with ⟨u, hu, rfl⟩ | ⟨e, info, u, hu, rfl⟩
  · have hin : audioInside s groups base := by
      by_cases hzero : groups.toNat = 0
      · rw [commandFlow_adpcmDec_of_zero hzero] at hu; cases hu
      · by_cases hlen : s.ibufLen.toNat < base.toNat + 128 * groups.toNat
        · rw [commandFlow_adpcmDec_of_outside (Nat.pos_of_ne_zero hzero) hlen] at hu; cases hu
        · exact ⟨Nat.pos_of_ne_zero hzero, Nat.le_of_not_lt hlen⟩
    exact ⟨hin, u, by rw [← commandFlow_adpcmDec_of_inside hin, hu], rfl⟩
  · rw [hu, Flow.state_raised] at hframe
    rw [hframe] at hcnt
    exact absurd hcnt (by simp [State.takeFault])

end

/-! ### The loop over the groups (R223, R226, R228) -/

section
variable {s t u : State} {g m n count : Nat}

theorem decodeGroups_one (g : Nat) (s : State) : decodeGroups 1 g s = decodeGroup g s := by
  rcases decodeGroup_cases g s with ⟨-, h⟩ | ⟨-, h⟩ <;> simp [decodeGroups, h]

theorem decodeGroups_append (m n g : Nat) (s : State) :
    decodeGroups (m + n) g s = flowBind (decodeGroups m g s) fun _ t => decodeGroups n (g + 128 * m) t := by
  induction m generalizing g s with
  | zero => simp [decodeGroups]
  | succ m ih =>
    rw [Nat.succ_add, decodeGroups, decodeGroups]
    rcases decodeGroup_cases g s with ⟨-, h⟩ | ⟨-, h⟩ <;> rw [h]
    · simp only [flowBind_ok, ih]
      rw [show g + 128 + 128 * m = g + 128 * (m + 1) by omega]
    · rfl

/-- A reserved range anywhere in a group is what R223 tests. -/
theorem groupReserved_iff : groupReserved s g = true ↔ ¬ groupLegal s g := by
  have hrange : ∀ u, paramRange (unitParam s g u) = parByte s g u % 16 := fun u => by
    simp [paramRange, parByte, unitParam]
  simp [groupReserved, groupLegal, hrange]

theorem decodeGroup_of_legal (h : groupLegal s g) :
    decodeGroup g s = .ok () ((groupOrder s.channels).foldl (State.groupSample g) s) := by
  rcases decodeGroup_cases g s with ⟨-, e⟩ | ⟨hr, -⟩
  · exact e
  · exact absurd h (groupReserved_iff.1 hr)

theorem decodeGroup_of_not_legal (h : ¬ groupLegal s g) :
    decodeGroup g s = .raised .corruptAdpcmRange (BitVec.ofNat 32 g) s :=
  if_pos (groupReserved_iff.2 h)

theorem decodeGroups_ok_frame (h : decodeGroups n g s = .ok () t) : AudioOnly s t := by
  have hframe := decodeGroups_frame n g s
  rwa [h] at hframe

/-! Decoding leaves alone what decides how the loop goes on. -/

theorem AudioOnly.channels_eq (h : AudioOnly s t) : t.channels = s.channels := by rw [h]

theorem AudioOnly.cmdcnt_eq (h : AudioOnly s t) : t.cmdcnt = s.cmdcnt := by rw [h]

theorem AudioOnly.ibufLen_eq (h : AudioOnly s t) : t.ibufLen = s.ibufLen := by rw [h]

theorem AudioOnly.groupLegal_iff (h : AudioOnly s t) : groupLegal t g ↔ groupLegal s g := by rw [h]; exact Iff.rfl

/-! The loop neither reads nor writes CMDCNT. -/

theorem foldl_groupSample_complete (g : Nat) (l : List (Nat × Nat × Nat)) (s : State) :
    l.foldl (State.groupSample g) s.complete = (l.foldl (State.groupSample g) s).complete :=
  List.foldl_hom State.complete fun _ _ => rfl

theorem decodeGroups_of_complete (h : decodeGroups n g s.complete = .ok () u) :
    ∃ t, decodeGroups n g s = .ok () t ∧ u = t.complete := by
  induction n generalizing g s with
  | zero => cases h; exact ⟨s, rfl, rfl⟩
  | succ n ih =>
    obtain ⟨_, v, hfirst, hrest⟩ := flowBind_eq_ok.1 h
    by_cases hlegal : groupLegal s g
    · rw [decodeGroup_of_legal (s := s.complete) hlegal, State.complete_channels, foldl_groupSample_complete] at hfirst
      cases hfirst
      obtain ⟨t, ht, hu⟩ := ih hrest
      exact ⟨t, by rw [decodeGroups, decodeGroup_of_legal hlegal, flowBind_ok, ht], hu⟩
    · rw [decodeGroup_of_not_legal (s := s.complete) hlegal] at hfirst
      cases hfirst

end

/-! ### The statements -/

/-- Settles O33: the two predictors of both channels are replaced, and the command counts. -/
theorem adpcmInitZeroesThePredictors : Obligations.AdpcmInitZeroesThePredictors :=
  ⟨decode_encode .adpcmInit, fun s => exec_of_ok (i := .adpcmInit) (s := s) rfl⟩

/-- Settles O34: GROUPS_ZERO is tested first, then AUDIO. -/
theorem adpcmDecChecksItsOperands : Obligations.AdpcmDecChecksItsOperands := by
  refine fun s groups base => ⟨fun hzero => ?zero, fun hne hlen => ?outside⟩
  case zero => subst hzero; exact exec_of_raised (commandFlow_adpcmDec_of_zero rfl)
  case outside =>
    have hpos : 0 < groups.toNat := Nat.pos_of_ne_zero fun h => hne (BitVec.eq_of_toNat_eq h)
    exact exec_of_raised (commandFlow_adpcmDec_of_outside hpos hlen)

/-- Settles O37: the loop over a + b groups is the loop over a of them, then the loop over the b behind. -/
theorem adpcmDecSplitsAtAnyGroup : Obligations.AdpcmDecSplitsAtAnyGroup := by
  intro s t u a b c base next hgroups hnext ht htcnt hu hucnt
  obtain ⟨⟨hapos, -⟩, v, hv, rfl⟩ := decodeGroups_of_counted ht htcnt
  obtain ⟨⟨-, hblen⟩, _, hcounted, rfl⟩ := decodeGroups_of_counted hu hucnt
  obtain ⟨w, hw, rfl⟩ := decodeGroups_of_complete hcounted
  have hin : audioInside s c base := by
    rw [State.complete_ibufLen, (decodeGroups_ok_frame hv).ibufLen_eq] at hblen
    unfold audioInside; omega
  have hall : decodeGroups c.toNat base.toNat s = .ok () w := by
    rw [hgroups, decodeGroups_append, hv, flowBind_ok, ← hnext, hw]
  rw [exec_of_ok ((commandFlow_adpcmDec_of_inside hin).trans hall), State.complete,
    (decodeGroups_ok_frame hall).cmdcnt_eq]
  rfl

end Sys2Proof.Machine
end

section
/-! PROOFS. One sample, and what the channels make of a list of inputs (30_encoding.md R110 to R113, 44_adpcm.md R220,
R222). -/

namespace Sys2Proof.Machine

/-! ### Samples in the spec's terms (R110, R111, R113, R220) -/

section
variable {s t : State} {g u i c : Nat}

theorem unitNibble_toNat (s : State) (g u i : Nat) : (unitNibble s g u i).toNat = nibbleOf s g u i := by
  have hshift : 2 ^ (4 * (u % 2)) = 16 ^ (u % 2) := Nat.pow_mul 2 4 (u % 2)
  simp [unitNibble, nibbleOf, Nat.shiftRight_eq_div_pow, hshift]

theorem sext_four_toNat (nib : BitVec 4) : sext 4 nib.toNat = nib.toInt := by
  revert nib; decide

theorem filterK_eq (f : Nat) (h : f < 4) :
    filterK f = ([0, 60, 115, 98][f]?.getD 0, [0, 0, -52, -55][f]?.getD 0) := by
  revert f; decide

theorem sampleValue_eq_nextSample (p : Byte) (nib : BitVec 4) (p1 p2 : Int) :
    sampleValue p nib p1 p2 = nextSample p.toNat nib.toNat p1 p2 := by
  have hrange : paramRange p = p.toNat % 16 := by simp [paramRange]
  have hfilter : paramFilter p = p.toNat / 16 % 4 := by simp [paramFilter, Nat.shiftRight_eq_div_pow]
  rw [sampleValue, predict, filterK_eq _ (by omega), nextSample, sext_four_toNat, hrange, hfilter]

/-- A clamped sample fits a 16-bit register. -/
theorem toInt_ofInt_nextSample (p nib : Nat) (p1 p2 : Int) :
    (BitVec.ofInt 16 (nextSample p nib p1 p2)).toInt = nextSample p nib p1 p2 := by
  have hclamp : -32768 ≤ nextSample p nib p1 p2 ∧ nextSample p nib p1 p2 ≤ 32767 := by
    unfold nextSample clamp; split_ifs <;> omega
  rw [BitVec.toInt_ofInt]
  exact Int.bmod_eq_of_le (by omega) (by omega)

theorem prev1At_pushPrev (s : State) (b : Nat) (v : Half) (hc : c < 2) :
    (s.pushPrev b v).prev1At c = if b = c then v.toInt else s.prev1At c := by
  by_cases hbc : b = c
  · subst hbc; simp [State.prev1At, hc]
  · simp [State.prev1At, hbc]

theorem prev2At_pushPrev (s : State) (b : Nat) (v : Half) (hc : c < 2) :
    (s.pushPrev b v).prev2At c = if b = c then s.prev1At c else s.prev2At c := by
  by_cases hbc : b = c
  · subst hbc; simp [State.prev1At, State.prev2At, hc]
  · simp [State.prev2At, hbc]

/-- The sample that channel `c` makes next of (parameter byte, nibble) `x`. -/
def State.sampleOf (s : State) (c : Nat) (x : Nat × Nat) : Int := nextSample x.1 x.2 (s.prev1At c) (s.prev2At c)

/-- R220 in the spec's terms: channel `k.1` takes (parameter byte, nibble) `k.2`. -/
def State.feed (s : State) (k : Nat × Nat × Nat) : State :=
  (s.pushPrev k.1 (BitVec.ofInt 16 (s.sampleOf k.1 k.2))).pcmEmit (BitVec.ofInt 16 (s.sampleOf k.1 k.2))

theorem adpcmSample_eq_feed (s : State) (c : Nat) (p : Byte) (nib : BitVec 4) :
    s.adpcmSample c p nib = s.feed (c, p.toNat, nib.toNat) := by
  rw [State.adpcmSample, State.feed, State.sampleOf, sampleValue_eq_nextSample]

theorem feed_frame (s : State) (k : Nat × Nat × Nat) : AudioOnly s (s.feed k) := rfl

theorem feed_pcmcnt (s : State) (k : Nat × Nat × Nat) : (s.feed k).pcmcnt = s.pcmcnt + 1#32 := rfl

theorem feed_pcmout (s : State) (k : Nat × Nat × Nat) :
    (s.feed k).pcmout.map BitVec.toInt = s.pcmout.map BitVec.toInt ++ [s.sampleOf k.1 k.2] := by
  rw [State.feed, State.pcmEmit_pcmout, State.pushPrev_pcmout, List.map_append, List.map_singleton, State.sampleOf,
    toInt_ofInt_nextSample]

theorem feed_prev1At (s : State) (k : Nat × Nat × Nat) (hc : c < 2) :
    (s.feed k).prev1At c = if k.1 = c then s.sampleOf k.1 k.2 else s.prev1At c :=
  (prev1At_pushPrev s _ _ hc).trans (by rw [State.sampleOf, toInt_ofInt_nextSample])

theorem feed_prev2At (s : State) (k : Nat × Nat × Nat) (hc : c < 2) :
    (s.feed k).prev2At c = if k.1 = c then s.prev1At c else s.prev2At c :=
  prev2At_pushPrev s k.1 (BitVec.ofInt 16 (s.sampleOf k.1 k.2)) hc

end

/-! ### What the channels make of a list of inputs (R220, R222) -/

section
variable {s t : State} {c : Nat}

theorem foldl_feed_frame (l : List (Nat × Nat × Nat)) (s : State) : AudioOnly s (l.foldl State.feed s) := by
  induction l generalizing s with
  | nil => exact .refl s
  | cons k l ih => exact (feed_frame s k).trans (ih _)

theorem foldl_feed_pcmcnt (l : List (Nat × Nat × Nat)) (s : State) :
    (l.foldl State.feed s).pcmcnt = s.pcmcnt + BitVec.ofNat 32 l.length := by
  induction l generalizing s with
  | nil => exact (BitVec.add_zero _).symm
  | cons k l ih =>
    rw [List.foldl_cons, ih, feed_pcmcnt, List.length_cons, Nat.add_comm, BitVec.ofNat_add, BitVec.add_assoc]

/-- What of a list of inputs goes to channel `c`. -/
def inputsOf (c : Nat) (l : List (Nat × Nat × Nat)) : List (Nat × Nat) :=
  l.filterMap fun k => if k.1 = c then some k.2 else none

theorem inputsOf_cons (c : Nat) (k : Nat × Nat × Nat) (l : List (Nat × Nat × Nat)) :
    inputsOf c (k :: l) = if k.1 = c then k.2 :: inputsOf c l else inputsOf c l := by
  rw [inputsOf, List.filterMap_cons]; split_ifs <;> rfl

/-- A channel's predictors follow its own inputs, whatever the other channel takes in between. -/
theorem foldl_feed_prevs (l : List (Nat × Nat × Nat)) (s : State) (hc : c < 2) :
    ((l.foldl State.feed s).prev1At c, (l.foldl State.feed s).prev2At c) =
      (channelRun (s.prev1At c) (s.prev2At c) (inputsOf c l)).2 := by
  induction l generalizing s with
  | nil => rfl
  | cons k l ih =>
    rw [List.foldl_cons, ih, feed_prev1At s k hc, feed_prev2At s k hc, inputsOf_cons]
    by_cases hk : k.1 = c
    · subst hk; simp only [if_true]; rfl
    · simp only [hk, if_false]

/-- Mono: every input goes to channel 0 (R222). -/
def monoInputs (l : List (Nat × Nat)) : List (Nat × Nat × Nat) := l.map (Prod.mk 0)

theorem inputsOf_zero_monoInputs (l : List (Nat × Nat)) : inputsOf 0 (monoInputs l) = l := by
  simp [inputsOf, monoInputs, List.filterMap_map]

theorem inputsOf_one_monoInputs (l : List (Nat × Nat)) : inputsOf 1 (monoInputs l) = [] := by
  simp [inputsOf, monoInputs]

/-- Channel 0 puts out its samples. -/
theorem foldl_feed_mono_pcmout (l : List (Nat × Nat)) (s : State) :
    ((monoInputs l).foldl State.feed s).pcmout.map BitVec.toInt =
      s.pcmout.map BitVec.toInt ++ (channelRun (s.prev1At 0) (s.prev2At 0) l).1 := by
  induction l generalizing s with
  | nil => simp [monoInputs, channelRun]
  | cons x l ih =>
    have hcons : monoInputs (x :: l) = (0, x) :: monoInputs l := rfl
    rw [hcons, List.foldl_cons, ih]
    simp [feed_pcmout, feed_prev1At, feed_prev2At, State.sampleOf, channelRun]

/-- Stereo: of each pair of inputs the first goes to channel 0, the second to channel 1 (R222). -/
def stereoInputs (l : List ((Nat × Nat) × (Nat × Nat))) : List (Nat × Nat × Nat) :=
  l.flatMap fun x => [(0, x.1), (1, x.2)]

theorem stereoInputs_cons (x : (Nat × Nat) × (Nat × Nat)) (l : List ((Nat × Nat) × (Nat × Nat))) :
    stereoInputs (x :: l) = (0, x.1) :: (1, x.2) :: stereoInputs l := rfl

theorem inputsOf_stereoInputs (l : List ((Nat × Nat) × (Nat × Nat))) :
    inputsOf 0 (stereoInputs l) = l.map Prod.fst ∧ inputsOf 1 (stereoInputs l) = l.map Prod.snd := by
  induction l with
  | nil => exact ⟨rfl, rfl⟩
  | cons x l ih => simp [stereoInputs_cons, inputsOf_cons, ih]

/-- The two channels put out their samples in turn. -/
theorem foldl_feed_stereo_pcmout (l : List ((Nat × Nat) × (Nat × Nat))) (s : State) :
    ((stereoInputs l).foldl State.feed s).pcmout.map BitVec.toInt = s.pcmout.map BitVec.toInt ++
      interleave (channelRun (s.prev1At 0) (s.prev2At 0) (l.map Prod.fst)).1
        (channelRun (s.prev1At 1) (s.prev2At 1) (l.map Prod.snd)).1 := by
  induction l generalizing s with
  | nil => simp [stereoInputs, channelRun, interleave]
  | cons x l ih =>
    rw [stereoInputs_cons, List.foldl_cons, List.foldl_cons, ih]
    simp [feed_pcmout, feed_prev1At, feed_prev2At, State.sampleOf, channelRun, interleave]

end

end Sys2Proof.Machine
end

section
/-! PROOFS. ADPCM.DEC over legal groups, and at the first that is not (44_adpcm.md R220 to R229). -/

namespace Sys2Proof.Machine

/-! ### The inputs of the groups, in the order they are decoded (R110, R221 to R223) -/

section
variable {s t : State} {g u i c count : Nat}

/-- What sample `k`, as `groupOrder` lists it, of the group at `g` is made of. -/
def inputAt (s : State) (g : Nat) (k : Nat × Nat × Nat) : Nat × Nat × Nat :=
  (k.1, parByte s g k.2.1, nibbleOf s g k.2.1 k.2.2)

theorem groupSample_eq_feed (g : Nat) (s : State) (k : Nat × Nat × Nat) :
    s.groupSample g k = s.feed (inputAt s g k) := by
  rw [State.groupSample, adpcmSample_eq_feed, unitNibble_toNat]; rfl

/-- The inputs of `count` groups from `g` on. -/
def soundInputs (s : State) (g count : Nat) : List (Nat × Nat × Nat) :=
  (List.range count).flatMap fun n => (groupOrder s.channels).map (inputAt s (g + 128 * n))

theorem soundInputs_succ (s : State) (g count : Nat) :
    soundInputs s g (count + 1) =
      soundInputs s g count ++ (groupOrder s.channels).map (inputAt s (g + 128 * count)) := by
  simp [soundInputs, List.range_succ]

theorem soundInputs_length (s : State) (g count : Nat) : (soundInputs s g count).length = 224 * count := by
  simp [soundInputs, List.length_flatMap, groupOrder_length, Nat.mul_comm]

/-! Decoding changes neither IBUF nor CHANNELS, so all the inputs can be read beforehand. -/

theorem AudioOnly.inputAt_eq (h : AudioOnly s t) : inputAt t g = inputAt s g := by rw [h]; rfl

theorem foldl_groupSample_eq_feed (h : AudioOnly s t) (l : List (Nat × Nat × Nat)) :
    l.foldl (State.groupSample g) t = (l.map (inputAt s g)).foldl State.feed t := by
  induction l generalizing t with
  | nil => rfl
  | cons k l ih =>
    rw [List.foldl_cons, ih (h.trans (groupSample_frame g t k)), List.map_cons, List.foldl_cons, groupSample_eq_feed,
      h.inputAt_eq]

/-- Legal groups are all decoded, and what they leave depends on their inputs only. -/
theorem decodeGroups_of_legal (h : ∀ n < count, groupLegal s (g + 128 * n)) :
    decodeGroups count g s = .ok () ((soundInputs s g count).foldl State.feed s) := by
  induction count with
  | zero => rfl
  | succ count ih =>
    have hframe := foldl_feed_frame (soundInputs s g count) s
    rw [decodeGroups_append, ih fun n hn => h n (by omega), flowBind_ok, decodeGroups_one,
      decodeGroup_of_legal (hframe.groupLegal_iff.2 (h count (by omega))), foldl_groupSample_eq_feed hframe,
      hframe.channels_eq, soundInputs_succ, List.foldl_append]

/-- The first group with a reserved range ends the loop before it emits anything of that group. -/
theorem decodeGroups_of_first_reserved {n : Nat} (hn : n < count) (h : ∀ k < n, groupLegal s (g + 128 * k))
    (hreserved : ¬ groupLegal s (g + 128 * n)) :
    decodeGroups count g s = .raised .corruptAdpcmRange (BitVec.ofNat 32 (g + 128 * n))
      ((soundInputs s g n).foldl State.feed s) := by
  have hframe := foldl_feed_frame (soundInputs s g n) s
  obtain ⟨rest, rfl⟩ := Nat.exists_eq_add_of_lt hn
  rw [Nat.add_assoc, decodeGroups_append, decodeGroups_of_legal h, flowBind_ok, decodeGroups,
    decodeGroup_of_not_legal (mt hframe.groupLegal_iff.1 hreserved), flowBind_raised]

theorem exec_adpcmDec_of_legal {groups : BitVec 24} {base : Word} (hin : audioInside s groups base)
    (h : ∀ n < groups.toNat, groupLegal s (base.toNat + 128 * n)) :
    exec (.adpcmDec groups base) s =
      .next ((soundInputs s base.toNat groups.toNat).foldl State.feed s).complete :=
  exec_of_ok ((commandFlow_adpcmDec_of_inside hin).trans (decodeGroups_of_legal h))

/-- A completed ADPCM.DEC counts its samples and itself, and changes the predictors and PCMOUT besides. -/
theorem foldl_feed_audioDone {groups : BitVec 24} (l : List (Nat × Nat × Nat)) (hlen : l.length = 224 * groups.toNat)
    (ht : t = (l.foldl State.feed s).complete) : t = audioDone s t groups := by
  have hframe := foldl_feed_frame l s
  have hcnt := foldl_feed_pcmcnt l s
  rw [hlen] at hcnt
  subst ht
  rw [audioDone, ← hcnt]
  conv_lhs => rw [hframe]
  rfl

/-! In the order of R222 they are the streams of the units. -/

theorem soundInputs_of_mono (h : s.channels = .mono) (g count : Nat) :
    soundInputs s g count = monoInputs (unitStream s [0, 1, 2, 3, 4, 5, 6, 7] g count) := by
  have hunits : [0, 1, 2, 3, 4, 5, 6, 7] = List.range 8 := rfl
  simp only [soundInputs, h, groupOrder, monoInputs, unitStream, hunits, List.map_flatMap, List.map_map]
  rfl

/-- The pairs of inputs of `count` groups: sample `i` of an even unit with that of the odd unit behind it (R222). -/
def pairStream (s : State) (g count : Nat) : List ((Nat × Nat) × (Nat × Nat)) :=
  (List.range count).flatMap fun n => (List.range 4).flatMap fun pair => (List.range 28).map fun i =>
    ((inputAt s (g + 128 * n) (0, 2 * pair, i)).2, (inputAt s (g + 128 * n) (1, 2 * pair + 1, i)).2)

theorem soundInputs_of_stereo (h : s.channels = .stereo) (g count : Nat) :
    soundInputs s g count = stereoInputs (pairStream s g count) := by
  simp only [soundInputs, h, groupOrder, stereoInputs, pairStream, List.map_flatMap, List.flatMap_assoc,
    List.flatMap_map]
  rfl

theorem pairStream_fst (s : State) (g count : Nat) :
    (pairStream s g count).map Prod.fst = unitStream s [0, 2, 4, 6] g count := by
  have hunits : [0, 2, 4, 6] = (List.range 4).map (2 * ·) := rfl
  simp only [pairStream, unitStream, hunits, List.map_flatMap, List.flatMap_map, List.map_map]
  rfl

theorem pairStream_snd (s : State) (g count : Nat) :
    (pairStream s g count).map Prod.snd = unitStream s [1, 3, 5, 7] g count := by
  have hunits : [1, 3, 5, 7] = (List.range 4).map (2 * · + 1) := rfl
  simp only [pairStream, unitStream, hunits, List.map_flatMap, List.flatMap_map, List.map_map]
  rfl

theorem inputsOf_soundInputs_of_mono (h : s.channels = .mono) (g count : Nat) :
    inputsOf 0 (soundInputs s g count) = unitStream s [0, 1, 2, 3, 4, 5, 6, 7] g count ∧
      inputsOf 1 (soundInputs s g count) = [] := by
  rw [soundInputs_of_mono h]
  exact ⟨inputsOf_zero_monoInputs _, inputsOf_one_monoInputs _⟩

theorem inputsOf_soundInputs_of_stereo (h : s.channels = .stereo) (g count : Nat) :
    inputsOf 0 (soundInputs s g count) = unitStream s [0, 2, 4, 6] g count ∧
      inputsOf 1 (soundInputs s g count) = unitStream s [1, 3, 5, 7] g count := by
  rw [soundInputs_of_stereo h, ← pairStream_fst, ← pairStream_snd]
  exact inputsOf_stereoInputs _

end

/-! ### The statements -/

/-- Settles O35: the inputs of the groups, in the order of R222, are those of channel 0 alone. -/
theorem adpcmDecMonoIsOneChannel : Obligations.AdpcmDecMonoIsOneChannel := by
  intro s groups base hmono hin hlegal
  obtain ⟨hzero, hone⟩ := inputsOf_soundInputs_of_mono hmono base.toNat groups.toNat
  have hout := foldl_feed_mono_pcmout (unitStream s [0, 1, 2, 3, 4, 5, 6, 7] base.toNat groups.toNat) s
  have hprevs := foldl_feed_prevs (soundInputs s base.toNat groups.toNat) s Nat.zero_lt_two
  have hkept := foldl_feed_prevs (soundInputs s base.toNat groups.toNat) s Nat.one_lt_two
  rw [← soundInputs_of_mono hmono] at hout
  rw [hzero] at hprevs
  rw [hone] at hkept
  exact ⟨_, exec_adpcmDec_of_legal hin hlegal, foldl_feed_audioDone _ (soundInputs_length _ _ _) rfl, hout, hprevs,
    congrArg Prod.fst hkept, congrArg Prod.snd hkept⟩

/-- Settles O36: the inputs of the groups, in the order of R222, go to the two channels in turn. -/
theorem adpcmDecStereoIsTwoChannels : Obligations.AdpcmDecStereoIsTwoChannels := by
  intro s groups base hstereo hin hlegal
  obtain ⟨hzero, hone⟩ := inputsOf_soundInputs_of_stereo hstereo base.toNat groups.toNat
  have hout := foldl_feed_stereo_pcmout (pairStream s base.toNat groups.toNat) s
  have hleft := foldl_feed_prevs (soundInputs s base.toNat groups.toNat) s Nat.zero_lt_two
  have hright := foldl_feed_prevs (soundInputs s base.toNat groups.toNat) s Nat.one_lt_two
  rw [← soundInputs_of_stereo hstereo, pairStream_fst, pairStream_snd] at hout
  rw [hzero] at hleft
  rw [hone] at hright
  exact ⟨_, exec_adpcmDec_of_legal hin hlegal, foldl_feed_audioDone _ (soundInputs_length _ _ _) rfl, hout, hleft,
    hright⟩

/-- Settles O38: the loop goes through the legal groups, and the next one raises before it emits. -/
theorem adpcmDecStopsAtAReservedRange : Obligations.AdpcmDecStopsAtAReservedRange := by
  intro s groups base n hin hn hlegal hreserved
  have hframe := foldl_feed_frame (soundInputs s base.toNat n) s
  have hexec := exec_of_raised
    ((commandFlow_adpcmDec_of_inside hin).trans (decodeGroups_of_first_reserved hn hlegal hreserved))
  refine ⟨?first, fun hpos => ?later⟩
  case first =>
    rintro rfl
    rw [hexec, Nat.mul_zero, Nat.add_zero, BitVec.ofNat_toNat, BitVec.setWidth_eq]
    rfl
  case later =>
    have hcount : (BitVec.ofNat 24 n).toNat = n := by rw [BitVec.toNat_ofNat]; omega
    have hpart : audioInside s (BitVec.ofNat 24 n) base := by
      obtain ⟨-, hlen⟩ := hin
      unfold audioInside; omega
    have hdone := exec_adpcmDec_of_legal hpart (by rwa [hcount])
    rw [hcount] at hdone
    refine ⟨_, hdone, by rw [State.complete_cmdcnt, hframe.cmdcnt_eq], ?_⟩
    rw [hexec, ← hframe.cmdcnt_eq]
    rfl

end Sys2Proof.Machine
end

section
/-! PROOFS. Silence in, silence out (44_adpcm.md R231). -/

namespace Sys2Proof.Machine

section
variable {s : State} {g count c p : Nat} {p1 p2 : Int}

theorem nextSample_of_zero_nibble (h : p / 16 % 4 = 0 ∨ p1 = 0 ∧ p2 = 0) : nextSample p 0 p1 p2 = 0 := by
  have hzero : sext 4 0 = 0 := rfl
  rw [nextSample, hzero, zero_mul]
  rcases h with hfilter | ⟨rfl, rfl⟩
  · rw [hfilter]; simp [asr, clamp]
  · simp [asr, clamp]

theorem channelRun_of_zero_predictors {l : List (Nat × Nat)} (h : ∀ x ∈ l, x.2 = 0) :
    (channelRun 0 0 l).2 = (0, 0) := by
  induction l with
  | nil => rfl
  | cons x l ih =>
    obtain ⟨hx, hl⟩ := List.forall_mem_cons.1 h
    have hsample : nextSample x.1 x.2 0 0 = 0 := by rw [hx]; exact nextSample_of_zero_nibble (.inr ⟨rfl, rfl⟩)
    rw [channelRun, hsample]
    exact ih hl

/-- With filter 0 the predictors forget what they held after two samples. -/
theorem channelRun_of_filter_zero {l : List (Nat × Nat)} (h : ∀ x ∈ l, x.2 = 0)
    (hfilter : ∀ x ∈ l, x.1 / 16 % 4 = 0) (hlen : 2 ≤ l.length) : (channelRun p1 p2 l).2 = (0, 0) := by
  match l, hlen with
  | x :: y :: l, _ =>
    have hsample : ∀ z ∈ x :: y :: l, ∀ q1 q2, nextSample z.1 z.2 q1 q2 = 0 := fun z hz q1 q2 => by
      rw [h z hz]; exact nextSample_of_zero_nibble (.inl (hfilter z hz))
    rw [channelRun, channelRun, hsample x (by simp), hsample y (by simp)]
    exact channelRun_of_zero_predictors fun z hz => h z (by simp [hz])

/-- Inputs that are silent whatever comes before them, or that find a silent decoder. -/
theorem foldl_feed_silent {l : List (Nat × Nat × Nat)} (hnib : ∀ k ∈ l, k.1 < 2 ∧ k.2.2 = 0)
    (hquiet : (∀ k ∈ l, k.2.1 / 16 % 4 = 0) ∨ ∀ c < 2, s.prev1At c = 0 ∧ s.prev2At c = 0) :
    (l.foldl State.feed s).pcmout = s.pcmout ++ List.replicate l.length 0#16 := by
  induction l generalizing s with
  | nil => simp
  | cons k l ih =>
    obtain ⟨⟨hk, hzero⟩, hnib⟩ := List.forall_mem_cons.1 hnib
    have hsample : s.sampleOf k.1 k.2 = 0 := by
      rw [State.sampleOf, hzero]
      exact nextSample_of_zero_nibble (hquiet.imp (fun h => h k (by simp)) fun h => h k.1 hk)
    have hout : (s.feed k).pcmout = s.pcmout ++ [0#16] := by
      rw [State.feed, hsample]; rfl
    rw [List.foldl_cons, ih hnib, hout, List.length_cons, List.replicate_succ, List.append_assoc, List.singleton_append]
    refine hquiet.imp (fun h k hk => h k (by simp [hk])) fun h c hc => ?_
    obtain ⟨h1, h2⟩ := h c hc
    simp [feed_prev1At s k hc, feed_prev2At s k hc, hsample, h1, h2]

theorem mem_inputsOf {l : List (Nat × Nat × Nat)} {x : Nat × Nat} (h : x ∈ inputsOf c l) : (c, x) ∈ l := by
  obtain ⟨k, hk, hkx⟩ := List.mem_filterMap.1 h
  split at hkx
  next hc => cases hkx; subst hc; exact hk
  next => cases hkx

theorem foldl_feed_prevs_of_zero_predictors {l : List (Nat × Nat × Nat)} (hnib : ∀ k ∈ l, k.1 < 2 ∧ k.2.2 = 0)
    (hc : c < 2) (h : s.prev1At c = 0 ∧ s.prev2At c = 0) :
    (l.foldl State.feed s).prev1At c = 0 ∧ (l.foldl State.feed s).prev2At c = 0 := by
  obtain ⟨h1, h2⟩ := h
  have hrun := foldl_feed_prevs l s hc
  rwa [h1, h2, channelRun_of_zero_predictors fun x hx => (hnib _ (mem_inputsOf hx)).2, Prod.mk.injEq] at hrun

theorem foldl_feed_prevs_of_filter_zero {l : List (Nat × Nat × Nat)} (hnib : ∀ k ∈ l, k.1 < 2 ∧ k.2.2 = 0)
    (hc : c < 2) (hfilter : ∀ k ∈ l, k.2.1 / 16 % 4 = 0) (hlen : 2 ≤ (inputsOf c l).length) :
    (l.foldl State.feed s).prev1At c = 0 ∧ (l.foldl State.feed s).prev2At c = 0 := by
  have hrun := foldl_feed_prevs l s hc
  rwa [channelRun_of_filter_zero (fun x hx => (hnib _ (mem_inputsOf hx)).2)
    (fun x hx => hfilter _ (mem_inputsOf hx)) hlen, Prod.mk.injEq] at hrun

theorem groupOrder_bounds {layout : ChannelLayout} {k : Nat × Nat × Nat} (h : k ∈ groupOrder layout) :
    k.1 < 2 ∧ k.2.1 < 8 ∧ k.2.2 < 28 := by
  cases layout with
  | mono =>
    simp only [groupOrder, List.mem_flatMap, List.mem_map, List.mem_range] at h
    obtain ⟨u, hu, i, hi, rfl⟩ := h
    exact ⟨Nat.zero_lt_two, hu, hi⟩
  | stereo =>
    simp only [groupOrder, List.mem_flatMap, List.mem_range, List.mem_cons, List.not_mem_nil, or_false] at h
    obtain ⟨pair, hpair, i, hi, rfl | rfl⟩ := h
    · exact ⟨Nat.zero_lt_two, show 2 * pair < 8 by omega, hi⟩
    · exact ⟨Nat.one_lt_two, show 2 * pair + 1 < 8 by omega, hi⟩

/-- What holds of every sample of every unit of every group holds of the inputs. -/
theorem soundInputs_forall {P : Nat × Nat × Nat → Prop}
    (h : ∀ n < count, ∀ c < 2, ∀ u < 8, ∀ i < 28, P (inputAt s (g + 128 * n) (c, u, i))) :
    ∀ k ∈ soundInputs s g count, P k := by
  intro k hk
  simp only [soundInputs, List.mem_flatMap, List.mem_map, List.mem_range] at hk
  obtain ⟨n, hn, j, hj, rfl⟩ := hk
  obtain ⟨hc, hu, hi⟩ := groupOrder_bounds hj
  exact h n hn _ hc _ hu _ hi

theorem soundInputs_zero_nibbles (h : ∀ n < count, ∀ k < 112, s.ibufRead (g + 128 * n + 16 + k) = 0#8) :
    ∀ k ∈ soundInputs s g count, k.1 < 2 ∧ k.2.2 = 0 := by
  refine soundInputs_forall fun n hn c hc u hu i hi => ⟨hc, ?_⟩
  have hbyte := h n hn (4 * i + u / 2) (by omega)
  rw [← Nat.add_assoc] at hbyte
  simp [inputAt, nibbleOf, hbyte]

theorem soundInputs_filter_zero (h : ∀ n < count, ∀ u < 8, parByte s (g + 128 * n) u / 16 % 4 = 0) :
    ∀ k ∈ soundInputs s g count, k.2.1 / 16 % 4 = 0 :=
  soundInputs_forall fun n hn _ _ u hu _ _ => h n hn u hu

theorem two_le_unitStream_length {units : List Nat} (s : State) (g : Nat) (hpos : 0 < count)
    (hunits : 0 < units.length) : 2 ≤ (unitStream s units g count).length := by
  have hlen : (unitStream s units g count).length = count * units.length * 28 := by
    simp [unitStream, List.length_flatMap, Nat.mul_assoc]
  have hprod := Nat.mul_pos hpos hunits
  omega

/-- Every group gives channel 0 at least two inputs, and in stereo channel 1 too. -/
theorem two_le_inputsOf_length (hpos : 0 < count) (hc : c = 0 ∨ s.channels = .stereo ∧ c = 1) :
    2 ≤ (inputsOf c (soundInputs s g count)).length := by
  cases hch : s.channels with
  | mono =>
    obtain ⟨hzero, -⟩ := inputsOf_soundInputs_of_mono hch g count
    obtain rfl : c = 0 := by simpa [hch] using hc
    rw [hzero]; exact two_le_unitStream_length s g hpos (Nat.succ_pos _)
  | stereo =>
    obtain ⟨hzero, hone⟩ := inputsOf_soundInputs_of_stereo hch g count
    rcases hc with rfl | ⟨-, rfl⟩
    · rw [hzero]; exact two_le_unitStream_length s g hpos (Nat.succ_pos _)
    · rw [hone]; exact two_le_unitStream_length s g hpos (Nat.succ_pos _)

theorem eq_zeros_iff (v : Vector Half 2) : v = #v[0#16, 0#16] ↔ ∀ c < 2, (v[c]?.getD 0#16).toInt = 0 := by
  have hzeros : #v[0#16, 0#16] = Vector.replicate 2 0#16 := rfl
  rw [hzeros]
  constructor
  · rintro rfl c hc
    simp [hc]
  · intro h
    ext1 c hc
    have hzero := h c hc
    rw [Vector.getElem?_eq_getElem hc, Option.getD_some] at hzero
    rw [Vector.getElem_replicate]
    exact BitVec.eq_of_toInt_eq hzero

end

/-- Settles O39: every input is silent, so every sample is; a channel that has taken two zeros holds two zeros. -/
theorem adpcmDecOfZeroNibbles : Obligations.AdpcmDecOfZeroNibbles := by
  intro s groups base hin hgroups
  have hexec := exec_adpcmDec_of_legal hin fun n hn => (hgroups n hn).1
  have hnib := soundInputs_zero_nibbles fun n hn => (hgroups n hn).2
  rw [← soundInputs_length s base.toNat groups.toNat]
  refine ⟨fun h1 h2 => ?zero, fun hunits => ?filter⟩
  case zero =>
    have hquiet : ∀ c < 2, s.prev1At c = 0 ∧ s.prev2At c = 0 := fun c hc =>
      ⟨(eq_zeros_iff s.prev1).1 h1 c hc, (eq_zeros_iff s.prev2).1 h2 c hc⟩
    have hprevs := fun c hc => foldl_feed_prevs_of_zero_predictors hnib hc (hquiet c hc)
    exact ⟨_, hexec, foldl_feed_silent hnib (.inr hquiet),
      ((eq_zeros_iff _).2 fun c hc => (hprevs c hc).1).trans h1.symm,
      ((eq_zeros_iff _).2 fun c hc => (hprevs c hc).2).trans h2.symm⟩
  case filter =>
    obtain ⟨hpos, -⟩ := hin
    have hfilter := soundInputs_filter_zero hunits
    obtain ⟨h1, h2⟩ := foldl_feed_prevs_of_filter_zero hnib Nat.zero_lt_two hfilter
      (two_le_inputsOf_length hpos (.inl rfl))
    refine ⟨_, hexec, foldl_feed_silent hnib (.inl hfilter), h1, h2, fun hstereo => ?_⟩
    exact foldl_feed_prevs_of_filter_zero hnib Nat.one_lt_two hfilter (two_le_inputsOf_length hpos (.inr ⟨hstereo, rfl⟩))

end Sys2Proof.Machine
end

section
/-! PROOFS. NOP, CFG.FRAME and CFG.AUDIO (45_system.md R250 to R252). -/

namespace Sys2Proof.Machine

/-- Settles O10: NOP has no pseudocode to run, and format Z admits no other word of its opcode. -/
theorem nopOnlyCounts : Obligations.NopOnlyCounts := by
  refine ⟨fun _ => exec_of_ok (i := .nop) rfl, fun a b => ?_⟩
  split
  next hzero =>
    obtain ⟨rfl, rfl⟩ := hzero
    exact decode_encode .nop
  next hfields => exact decode_of_reserved (f := .z) rfl (by simpa [formatAdmits] using hfields)

/-- Settles O11: the one test of CFG.FRAME is against PIX_SIZE, and past it the command is `setFrame`. -/
theorem cfgFrameDeclaresTheFrame : Obligations.CfgFrameDeclaresTheFrame := by
  intro s w h
  refine ⟨decode_encode (.cfgFrame w h), fun hlarge => ?large, fun hfits => ?fits⟩
  case large =>
    exact exec_of_raised (i := .cfgFrame w h) (e := .operandFrameSize) (if_pos (decide_eq_true hlarge))
  case fits =>
    have hsmall : ¬ frameTooLarge s w h = true := by simpa [frameTooLarge] using hfits
    exact exec_of_ok (i := .cfgFrame w h) (u := s.setFrame w h) (if_neg hsmall)

/-- The operands 1 and 2 are all that declare a layout (R252, R274). -/
theorem channelsOf_eq_none {c : Word} (hmono : c ≠ 1#32) (hstereo : c ≠ 2#32) : channelsOf c = none := by
  have hone : c.toNat ≠ 1 := fun h => hmono (BitVec.eq_of_toNat_eq h)
  have htwo : c.toNat ≠ 2 := fun h => hstereo (BitVec.eq_of_toNat_eq h)
  simp [channelsOf, hone, htwo]

theorem commandFlow_cfgAudio_of_none {c : Word} (h : channelsOf c = none) (s : State) :
    commandFlow (.cfgAudio c) s = .raised .operandChannels c s := by
  simp [commandFlow, h]

/-- Settles O12: 1 and 2 declare their layouts, and every other operand declares none. -/
theorem cfgAudioDeclaresTheLayout : Obligations.CfgAudioDeclaresTheLayout := by
  intro s c
  refine ⟨decode_encode (.cfgAudio c), ?mono, ?stereo, fun hmono hstereo => ?other⟩
  case mono =>
    rintro rfl
    exact exec_of_ok (i := .cfgAudio 1#32) rfl
  case stereo =>
    rintro rfl
    exact exec_of_ok (i := .cfgAudio 2#32) rfl
  case other => exact exec_of_raised (commandFlow_cfgAudio_of_none (channelsOf_eq_none hmono hstereo) s)

end Sys2Proof.Machine
end

section
/-! PROOFS. What a step does with each host move but an issued word (45_system.md R257 to R261). -/

namespace Sys2Proof.Machine

section
variable {s : State} {ms : List HostMove}

/-! ### Input (R257, R258, R322) -/

theorem step_writeIbuf_of_busy {o : Nat} {b : Byte} (h : s.moves = .writeIbuf o b :: ms) (hbusy : s.busy = true) :
    step s = .refused .inputWriteWhileBusy := by
  rw [step_cons h]; exact if_pos hbusy

theorem step_writeIbuf_of_idle {o : Nat} {b : Byte} (h : s.moves = .writeIbuf o b :: ms) (hidle : s.busy = false) :
    step s = if o < s.cfg.ibufSize then .next (State.loadByte { s with moves := ms } o b)
      else .fault .noSuchIbufOffset := by
  rw [step_cons h]; exact if_neg (ne_true_of_eq_false hidle)

theorem step_declareLength_of_busy {v : Word} (h : s.moves = .writeCr 11 v :: ms) (hbusy : s.busy = true) :
    step s = .refused .inputWriteWhileBusy := by
  rw [step_cons h]; exact if_pos hbusy

theorem step_declareLength_of_idle {v : Word} (h : s.moves = .writeCr 11 v :: ms) (hidle : s.busy = false) :
    step s = .next (State.declareLength { s with moves := ms } (cappedLength s v)) := by
  rw [step_cons h]; exact if_neg (ne_true_of_eq_false hidle)

/-! ### Control registers (R37, R259) -/

/-- A write of a read-only register is ignored (R33). -/
theorem step_writeCr_of_readOnly {n : Fin 16} {v : Word} (h : s.moves = .writeCr n v :: ms) (h11 : n ≠ 11)
    (h12 : n ≠ 12) : step s = .next { s with moves := ms } := by
  rw [step_cons h]; exact (if_neg h11).trans (if_neg h12)

theorem step_readCr {n : Fin 16} (h : s.moves = .readCr n :: ms) :
    step s = .next (if s.busy && n != 1
      then State.replyFree { s with moves := ms } (.cr (Config.freeCrWord s.freeNext))
      else State.reply { s with moves := ms } (.cr (readCr s n))) := by
  rw [step_cons h]; exact (apply_ite Host.Outcome.next _ _ _).symm

/-! ### Pixels (R73, R260) -/

theorem step_readPix_of_outside {o : Nat} (h : s.moves = .readPix o :: ms) (ho : s.cfg.pixSize ≤ o) :
    step s = .fault .noSuchPixOffset := by
  rw [step_cons h]; exact if_neg (Nat.not_lt.2 ho)

theorem hostReadPix_of_defined {o : Nat} {b : Byte} (ho : o < s.cfg.pixSize) (hidle : s.busy = false)
    (hb : s.pixDefined? o = some b) : hostReadPix o s = .next (s.reply (.pixel b)) := by
  simp [hostReadPix, ho, hidle, hb]

theorem hostReadPix_of_undefined {o : Nat} (ho : o < s.cfg.pixSize)
    (hnone : s.busy = true ∨ s.pixDefined? o = none) :
    hostReadPix o s = .next (s.replyFree (.pixel (Config.freePixByte s.freeNext))) := by
  rcases hnone with h | h <;> simp [hostReadPix, ho, h]

theorem step_readPix_of_defined {o : Nat} {b : Byte} (h : s.moves = .readPix o :: ms) (ho : o < s.cfg.pixSize)
    (hidle : s.busy = false) (hb : s.pixDefined? o = some b) :
    step s = .next (State.reply { s with moves := ms } (.pixel b)) :=
  (step_cons h).trans (hostReadPix_of_defined ho hidle hb)

theorem step_readPix_of_undefined {o : Nat} (h : s.moves = .readPix o :: ms) (ho : o < s.cfg.pixSize)
    (hnone : s.busy = true ∨ s.pixDefined? o = none) :
    step s = .next (State.replyFree { s with moves := ms } (.pixel (Config.freePixByte s.freeNext))) :=
  (step_cons h).trans (hostReadPix_of_undefined ho hnone)

theorem step_readPix_next {o : Nat} (h : s.moves = .readPix o :: ms) (ho : o < s.cfg.pixSize) :
    ∃ t, step s = .next t := by
  by_cases hnone : s.busy = true ∨ s.pixDefined? o = none
  · exact ⟨_, step_readPix_of_undefined h ho hnone⟩
  · obtain ⟨hidle, hsome⟩ := not_or.1 hnone
    obtain ⟨b, hb⟩ := Option.ne_none_iff_exists'.1 hsome
    exact ⟨_, step_readPix_of_defined h ho (eq_false_of_ne_true hidle) hb⟩

/-! ### Samples (R261, R328) -/

theorem step_drainPcm_of_busy {k : Nat} (h : s.moves = .drainPcm k :: ms) (hbusy : s.busy = true) :
    step s = .refused .drainWhileBusy := by
  rw [step_cons h]; exact if_pos hbusy

theorem step_drainPcm_of_idle {k : Nat} (h : s.moves = .drainPcm k :: ms) (hidle : s.busy = false) :
    step s = .next (State.reply { s with moves := ms, pcmout := s.pcmout.drop k } (.samples (s.pcmout.take k))) := by
  rw [step_cons h]; exact if_neg (ne_true_of_eq_false hidle)

end

end Sys2Proof.Machine
end

section
/-! PROOFS. The step: issued words, and where a step stops (45_system.md R256, 70_reset_and_hazards.md R322 to R331). -/

namespace Sys2Proof.Machine

/-- A word is accepted when the block is neither busy nor faulted (R31, R256). -/
theorem accepts_iff {s : State} : s.accepts = true ↔ s.busy = false ∧ s.errCode = 0#8 := by
  simp [State.accepts, State.faulted]

theorem accepts_eq_false_iff {s : State} : s.accepts = false ↔ s.busy = true ∨ s.errCode ≠ 0#8 := by
  rw [← Bool.not_eq_true, accepts_iff, not_and_or, Bool.not_eq_false]

/-- An accepted word runs its command in the accepted state, and the step ends with BUSY = 0. -/
theorem step_runs_command {s : State} {w : CommandWord} {i : Instr} {ms : List HostMove}
    (hm : s.moves = .issue w :: ms) (ha : s.accepts = true) (hd : decode w = .command i)
    (hslice : s.sliceRewritten = false ∨ usesSlice s i = false) :
    ∃ t, exec i (accepted s ms) = .next t ∧ step s = .next { t with busy := false } := by
  obtain ⟨t, he⟩ := exec_total i (accepted s ms)
  have hstep := step_issue_command hm ha hd hslice
  exact ⟨t, he, hstep.trans (congrArg settle he)⟩

/-- What `withFetchWord` places for the word of a command is that word. -/
theorem withFetchWord_encode (s : State) (i : Instr) :
    s.withFetchWord 64 (encode i).toNat = s.placeWord (encode i) := by
  rw [State.withFetchWord, Nat.mod_eq_of_lt (encode i).isLt, BitVec.ofNat_toNat, BitVec.setWidth_eq]

/-- Settles O6: `withFetchWord` prepares a state in which the first part's hypotheses hold. -/
theorem stepRunsTheDecodedCommand : Obligations.StepRunsTheDecodedCommand := by
  refine ⟨fun s w i ms hm hidle hclear => step_runs_command hm (accepts_iff.2 ⟨hidle, hclear⟩), fun s i => ?_⟩
  rw [withFetchWord_encode]
  exact step_runs_command (s := s.placeWord (encode i)) rfl (accepts_iff.2 ⟨rfl, rfl⟩) (decode_encode i) (.inl rfl)

/-- A run with a step before it. -/
theorem Steps.head {s t u : State} (hstep : step s = .next t) (hrun : Steps t u) : Steps s u := by
  induction hrun with
  | refl => exact .tail (.refl s) hstep
  | tail _ hlast ih => exact .tail ih hlast

/-- Settles O8: dropping a word leaves the block busy or faulted, so the next one is dropped too. -/
theorem wordsAreDroppedWhileBusyOrFaulted : Obligations.WordsAreDroppedWhileBusyOrFaulted := by
  intro s ws hbusy
  induction ws with
  | nil => exact .refl _
  | cons w ws ih =>
    have hdropped : State.accepts { s with moves := (w :: ws).map .issue } = false := accepts_eq_false_iff.2 hbusy
    exact .head (step_issue_dropped rfl hdropped) ih

/-- An issued word stops a step only when its command uses a slice whose input was moved (R323). -/
theorem step_issue_stops {s : State} {w : CommandWord} {ms : List HostMove} (hm : s.moves = .issue w :: ms) :
    (∃ t, step s = .next t) ∨
    (step s = .refused .sliceRewritten ∧ s.sliceRewritten = true ∧
      ∃ i, decode w = .command i ∧ usesSlice s i = true) := by
  cases ha : s.accepts with
  | false => exact .inl ⟨_, step_issue_dropped hm ha⟩
  | true =>
    cases hd : decode w with
    | illegal c => exact .inl ⟨_, step_issue_illegal hm ha hd⟩
    | command i =>
      by_cases hkept : s.sliceRewritten = false ∨ usesSlice s i = false
      · obtain ⟨t, -, ht⟩ := step_runs_command hm ha hd hkept
        exact .inl ⟨_, ht⟩
      · obtain ⟨hr, hu⟩ : s.sliceRewritten = true ∧ usesSlice s i = true := by simpa using hkept
        exact .inr ⟨step_issue_rewritten hm ha hd hr hu, hr, i, rfl, hu⟩

/-- Settles O9: every command answers a next state; of the host's moves, each has its own reason to stop, or none. -/
theorem stepStopsOnlyAtAForbiddenHostMove : Obligations.StepStopsOnlyAtAForbiddenHostMove := by
  refine ⟨fun s => step_nil, exec_total, fun s => ?_⟩
  cases hm : s.moves with
  | nil => exact .inl ⟨s, step_nil hm⟩
  | cons m ms =>
    cases m with
    | issue w =>
      rcases step_issue_stops hm with hnext | ⟨hstop, hr, i, hd, hu⟩
      · exact .inl hnext
      · exact .inr (.inr (.inr (.inl ⟨hstop, hr, w, i, ms, rfl, hd, hu⟩)))
    | writeIbuf o b =>
      cases hbusy : s.busy with
      | true =>
        exact .inr (.inr (.inr (.inr (.inl ⟨step_writeIbuf_of_busy hm hbusy, rfl, .inl ⟨o, b, ms, rfl⟩⟩))))
      | false =>
        have hstep := step_writeIbuf_of_idle hm hbusy
        by_cases ho : o < s.cfg.ibufSize
        · exact .inl ⟨_, hstep.trans (if_pos ho)⟩
        · exact .inr (.inl ⟨hstep.trans (if_neg ho), o, b, ms, rfl, Nat.not_lt.1 ho⟩)
    | writeCr n v =>
      by_cases h11 : n = 11
      · subst h11
        cases hbusy : s.busy with
        | true =>
          exact .inr (.inr (.inr (.inr (.inl ⟨step_declareLength_of_busy hm hbusy, rfl, .inr ⟨v, ms, rfl⟩⟩))))
        | false => exact .inl ⟨_, step_declareLength_of_idle hm hbusy⟩
      · by_cases h12 : n = 12
        · subst h12
          exact .inl ⟨_, step_writeCtrl hm⟩
        · exact .inl ⟨_, step_writeCr_of_readOnly hm h11 h12⟩
    | readCr n => exact .inl ⟨_, step_readCr hm⟩
    | readPix o =>
      by_cases ho : o < s.cfg.pixSize
      · exact .inl (step_readPix_next hm ho)
      · have hout := Nat.not_lt.1 ho
        exact .inr (.inr (.inl ⟨step_readPix_of_outside hm hout, o, ms, rfl, hout⟩))
    | drainPcm k =>
      cases hbusy : s.busy with
      | true => exact .inr (.inr (.inr (.inr (.inr ⟨step_drainPcm_of_busy hm hbusy, rfl, k, ms, rfl⟩))))
      | false => exact .inl ⟨_, step_drainPcm_of_idle hm hbusy⟩

end Sys2Proof.Machine
end

section
/-! PROOFS. Loading input, and what the host reads (45_system.md R257 to R261). -/

namespace Sys2Proof.Machine

/-- Settles O48: the reply is the register's value, since the block is idle or the register is STATUS. -/
theorem controlRegisterReadsChangeNothing : Obligations.ControlRegisterReadsChangeNothing := by
  intro s n v ms
  refine ⟨fun hm hready => ?read, step_writeCr_of_readOnly⟩
  case read =>
    have hdefined : ¬ (s.busy && n != 1) = true := by rcases hready with h | h <;> simp [h]
    rw [step_readCr hm, if_neg hdefined]
    rfl

/-- Settles O49: a byte is defined for the host when its offset is fresh and PIX lists it. -/
theorem pixReadsGiveTheLastWrittenByte : Obligations.PixReadsGiveTheLastWrittenByte := by
  intro s o ms hm hidle ho
  refine ⟨fun b hfresh hread => ?defined, fun hstale => ?undefined⟩
  case defined =>
    have hdefined : s.pixDefined? o = some b := by simp [State.pixDefined?, hfresh, hread]
    exact step_readPix_of_defined hm ho hidle hdefined
  case undefined =>
    have hundefined : s.pixDefined? o = none := by rcases hstale with h | h <;> simp [State.pixDefined?, h]
    exact step_readPix_of_undefined hm ho (.inr hundefined)

/-- A written byte moves the slice's input exactly when it lies inside the active slice (R323). -/
theorem loadByte_sliceRewritten_iff (s : State) (o : Nat) (b : Byte) :
    (s.loadByte o b).sliceRewritten = true ↔ s.sliceRewritten = true ∨
      (s.brActive = true ∧ s.brBase.toNat ≤ o ∧ o < sliceEnd s) := by
  simp [and_assoc]

/-- A declared length moves the slice's input exactly when it is lowered to below the end of the active slice
(R323). -/
theorem declareLength_sliceRewritten_iff (s : State) (n : Word) :
    (s.declareLength n).sliceRewritten = true ↔ s.sliceRewritten = true ∨
      (s.brActive = true ∧ n.toNat < s.ibufLen.toNat ∧ n.toNat < sliceEnd s) := by
  simp [and_assoc]

/-- The cap of R32 on IBUF_LEN; an IBUF_SIZE below a 32-bit value fits 32 bits. -/
theorem cappedLength_toNat (s : State) (v : Word) : (cappedLength s v).toNat = min v.toNat s.cfg.ibufSize := by
  have hv := v.isLt
  unfold cappedLength
  split
  next habove => rw [BitVec.toNat_ofNat, Nat.mod_eq_of_lt (habove.trans hv), Nat.min_eq_right habove.le]
  next hbelow => rw [Nat.min_eq_left (Nat.not_lt.1 hbelow)]

/-- Settles O50: the two input moves are `loadByte` and `declareLength` of the capped value. -/
theorem hostLoadsInput : Obligations.HostLoadsInput := by
  intro s ms hidle
  refine ⟨fun o b hm ho => ?load, fun v hm => ?declare⟩
  case load =>
    exact ⟨_, (step_writeIbuf_of_idle hm hidle).trans (if_pos ho), rfl, ibufRead_loadByte _ o b,
      loadByte_sliceRewritten_iff _ o b⟩
  case declare =>
    exact ⟨_, step_declareLength_of_idle hm hidle, rfl, cappedLength_toNat s v,
      declareLength_sliceRewritten_iff _ _⟩

/-- The two bytes of sample `j` (R64). -/
theorem pcmBytes_getElem? (l : List Half) (j : Nat) :
    (pcmBytes l)[2 * j]? = l[j]?.map (·.extractLsb' 0 8) ∧
      (pcmBytes l)[2 * j + 1]? = l[j]?.map (·.extractLsb' 8 8) := by
  induction l generalizing j with
  | nil => simp [pcmBytes]
  | cons v t ih =>
    cases j with
    | zero => simp [pcmBytes]
    | succ j => simpa [pcmBytes, Nat.mul_succ] using ih j

/-- Settles O51: PCMOUT is what was taken and what is left, and taking k gives at most what there is. -/
theorem drainTakesFromTheFront : Obligations.DrainTakesFromTheFront := by
  intro s k ms hm hidle
  refine ⟨s.pcmout.take k, s.pcmout.drop k, (List.take_append_drop k s.pcmout).symm, List.length_take,
    step_drainPcm_of_idle hm hidle, fun j _ v hv => ?_⟩
  obtain ⟨hlow, hhigh⟩ := pcmBytes_getElem? (s.pcmout.take k) j
  rw [hv] at hlow hhigh
  exact ⟨hlow, hhigh⟩

end Sys2Proof.Machine
end

section
/-! PROOFS. Exceptions: which command raises what, what a raise leaves behind, and the fault of an illegal word
(60_exceptions.md R270 to R281). -/

namespace Sys2Proof.Machine

/-! ### What a piece of pseudocode raises, and in which state -/

/-- If `f` raises, its exception and the state it is raised in satisfy `P`. -/
def Flow.RaisesOnly {α : Type} (P : Exc → State → Prop) : Flow α → Prop
  | .ok _ _       => True
  | .raised e _ t => P e t

section
variable {α β : Type} {P : Exc → State → Prop} {s : State} {short : Exc} {n : Nat}

theorem Flow.RaisesOnly.bind {f : Flow α} {k : α → State → Flow β} (hf : f.RaisesOnly P)
    (hk : ∀ a t, f = .ok a t → (k a t).RaisesOnly P) : (flowBind f k).RaisesOnly P := by
  cases f with
  | ok a t => exact hk a t rfl
  | raised e info t => exact hf

/-- Past the gate of a command that needs a slice (R276). -/
theorem raisesOnly_needSlice {info : Word} {k : Unit → State → Flow α} (hgate : P .sequenceBrInactive s)
    (hk : (k () s).RaisesOnly P) : (flowBind (needSlice info s) k).RaisesOnly P := by
  rcases needSlice_cases info s with ⟨-, e⟩ | ⟨-, e⟩ <;> rw [e]
  · exact hk
  · exact hgate

/-- Past the operand check of BR.PEEK and BR.CONSUME (R274). -/
theorem raisesOnly_needCount {w : Word} {k : Unit → State → Flow α} (hgate : P .operandNRange s)
    (hk : (k () s).RaisesOnly P) : (flowBind (needCount w s) k).RaisesOnly P := by
  rcases needCount_cases w s with ⟨-, e⟩ | ⟨-, e⟩ <;> rw [e]
  · exact hk
  · exact hgate

theorem raisesOnly_brPeek {k : Nat → State → Flow α} (hshort : P short (ensure n s))
    (hk : ∀ v, (k v (ensure n s)).RaisesOnly P) : (flowBind (brPeek short n s) k).RaisesOnly P := by
  rcases brPeek_cases short n s with ⟨-, e⟩ | ⟨-, e⟩ <;> rw [e]
  · exact hk _
  · exact hshort

theorem raisesOnly_brConsume (hshort : P short (ensure n s)) : (brConsume short n s).RaisesOnly P := by
  rcases brConsume_cases short n s with ⟨-, e⟩ | ⟨-, e⟩ <;> rw [e]
  · trivial
  · exact hshort

theorem raisesOnly_decodeGroups (hreserved : ∀ t, P .corruptAdpcmRange t) (count g : Nat) (s : State) :
    (decodeGroups count g s).RaisesOnly P := by
  induction count generalizing g s with
  | zero => trivial
  | succ count ih =>
    refine .bind ?_ fun _ t _ => ih (g + 128) t
    rcases decodeGroup_cases g s with ⟨-, e⟩ | ⟨-, e⟩ <;> rw [e]
    · trivial
    · exact hreserved s

end

/-! ### The faults of each command (R277, R281) -/

/-- The commands that leave nothing behind when they raise: all but VLD.MB and ADPCM.DEC (R281). -/
def IsAtomic (i : Instr) : Prop := i ≠ .vldMb ∧ ∀ groups base, i ≠ .adpcmDec groups base

/-- What is known of command `i`, begun in `s`, when it raises `e` in `t`: the exception stands in its row of R277's
matrix, and an atomic command has changed the hidden accumulator at most. -/
def FaultOf (i : Instr) (s : State) (e : Exc) (t : State) : Prop :=
  (excCode e, excCause e) ∈ allowedFaults i ∧ (IsAtomic i → HiddenOnly s t)

section
variable {i : Instr} {s t : State} {e : Exc}

theorem FaultOf.of_hidden (hrow : (allowedFaults i).contains (excCode e, excCause e) = true) (h : HiddenOnly s t) :
    FaultOf i s e t := ⟨List.contains_iff_mem.1 hrow, fun _ => h⟩

theorem FaultOf.of_not_atomic (hrow : (excCode e, excCause e) ∈ allowedFaults i) (h : ¬ IsAtomic i) :
    FaultOf i s e t := ⟨hrow, fun ha => absurd ha h⟩

end

theorem not_isAtomic_vldMb : ¬ IsAtomic .vldMb := fun h => h.1 rfl

theorem not_isAtomic_adpcmDec (groups : BitVec 24) (base : Word) : ¬ IsAtomic (.adpcmDec groups base) :=
  fun h => h.2 groups base rfl

/-- CorruptFrame with a cause of 1 to 5 stands in VLD.MB's row (R277). -/
theorem IsVldCorrupt.mem_allowedFaults {e : Exc} (h : IsVldCorrupt e) :
    (excCode e, excCause e) ∈ allowedFaults .vldMb := by
  obtain ⟨hcode, hcause⟩ := h
  simpa [allowedFaults, hcode] using hcause

/-- Each command raises its row of R277's matrix, and an atomic one raises before it has written anything that shows:
its checks all stand before its first write (R141, R281). -/
theorem commandFlow_raisesOnly (i : Instr) (s : State) : (commandFlow i s).RaisesOnly (FaultOf i s) := by
  cases i with
  | nop | idctMb | cscMb | adpcmInit => trivial
  | cfgFrame | cfgAudio | brInit | idctBlk =>
    simp only [commandFlow]
    split
    · exact .of_hidden rfl (.refl s)
    · trivial
  | brPeek n =>
    refine raisesOnly_needCount (.of_hidden rfl (.refl s)) (raisesOnly_needSlice (.of_hidden rfl (.refl s)) ?_)
    exact raisesOnly_brPeek (.of_hidden rfl (ensure_hidden _ s)) fun _ => trivial
  | brConsume n =>
    refine raisesOnly_needCount (.of_hidden rfl (.refl s)) (raisesOnly_needSlice (.of_hidden rfl (.refl s)) ?_)
    exact raisesOnly_brConsume (.of_hidden rfl (ensure_hidden _ s))
  | brRefill => exact raisesOnly_needSlice (.of_hidden rfl (.refl s)) trivial
  | vldHdr =>
    refine raisesOnly_needSlice (.of_hidden rfl (.refl s)) ?_
    split
    · exact .of_hidden rfl (.refl s)
    · refine raisesOnly_brPeek (.of_hidden rfl (ensure_hidden 16 s)) fun q => ?_
      split
      · have htwice : HiddenOnly s (ensure 16 (ensure 16 s)) := (ensure_hidden 16 s).trans (ensure_hidden 16 _)
        exact .bind (raisesOnly_brConsume (.of_hidden rfl htwice)) fun _ _ _ => trivial
      · exact .of_hidden rfl (ensure_hidden 16 s)
  | vldMb =>
    refine raisesOnly_needSlice (.of_hidden rfl (.refl s)) ?_
    split
    · have hraise := decodeBlocks_raisesCorrupt [0, 1, 2, 3, 4, 5] s.clearCoef
      cases hblocks : decodeBlocks [0, 1, 2, 3, 4, 5] s.clearCoef with
      | ok _ t => trivial
      | raised e info t =>
        rw [hblocks] at hraise
        obtain ⟨hcorrupt, -⟩ := hraise
        exact .of_not_atomic hcorrupt.mem_allowedFaults not_isAtomic_vldMb
    · exact .of_hidden rfl (.refl s)
  | adpcmDec groups base =>
    simp only [commandFlow]
    split
    · exact .of_hidden rfl (.refl s)
    · split
      · exact .of_hidden rfl (.refl s)
      · have hrow : (3#8, 7#8) ∈ allowedFaults (.adpcmDec groups base) := List.contains_iff_mem.1 rfl
        exact raisesOnly_decodeGroups (fun _ => .of_not_atomic hrow (not_isAtomic_adpcmDec groups base)) _ _ s

/-- A command that does not count has raised, and its end is the fault entry (R24, R280). -/
theorem exec_of_not_counted {i : Instr} {s t : State} (he : exec i s = .next t) (hcnt : t.cmdcnt = s.cmdcnt) :
    ∃ e info u, FaultOf i s e u ∧ t = faultedAs u i.opcode (excCode e) (excCause e) info := by
  have hframe := commandFlow_frame i s
  have hraise := commandFlow_raisesOnly i s
  rcases exec_next he with ⟨u, hu, rfl⟩ | ⟨e, info, u, hu, rfl⟩
  · rw [hu, Flow.state_ok] at hframe
    rw [hframe] at hcnt
    exact absurd hcnt (by simp)
  · rw [hu] at hraise
    exact ⟨e, info, u, hraise, rfl⟩

/-! ### The statements -/

/-- Settles O7: R95's decode gives the cause, and fault entry changes the fault registers only. -/
theorem stepFaultsOnAnIllegalWord : Obligations.StepFaultsOnAnIllegalWord := by
  intro s op a b ms hm hidle hclear
  have hfault : ∀ c, decode (commandWord op a b) = .illegal c → step s = .next
      (faultedAs { s with moves := ms } op (excCode (excOfIllegal c)) (excCause (excOfIllegal c)) b) := by
    intro c hd
    rw [step_issue_illegal hm (accepts_iff.2 ⟨hidle, hclear⟩) hd, commandWord, cwOp_append, cwB_append]
    rfl
  obtain ⟨hundefined, hz, hb, -⟩ := decodeIsTheTotalFunction op a b
  refine ⟨fun hop => hfault .opcode (hundefined hop), ?_⟩
  rintro (⟨hop, hfields⟩ | ⟨hop, ha⟩)
  · exact hfault .reservedField (hz hop hfields)
  · exact hfault .reservedField (hb hop ha)

/-- An opcode has words with a reserved field that is not zero exactly when its format reserves one (R91, R275). -/
theorem exists_reservedField_iff {op : Byte} (hop : op ∈ opcodesZ ++ opcodesB ++ opcodesAB) :
    (∃ (a : BitVec 24) (b : Word), decode (commandWord op a b) = .illegal .reservedField) ↔ op ∉ opcodesAB := by
  constructor
  · rintro ⟨a, b, hreserved⟩ hAB
    obtain ⟨-, -, -, hcommand⟩ := decodeIsTheTotalFunction op a b
    obtain ⟨i, hi, -⟩ := hcommand (.inr (.inr hAB))
    rw [hi] at hreserved
    cases hreserved
  · intro hAB
    obtain ⟨-, hz, hb, -⟩ := decodeIsTheTotalFunction op 1#24 0#32
    refine ⟨1#24, 0#32, ?_⟩
    rw [List.mem_append, List.mem_append] at hop
    rcases hop with (hZ | hB) | hAB'
    · exact hz hZ (.inl (by decide))
    · exact hb hB (by decide)
    · exact absurd hAB' hAB

/-- Settles O41: `commandFlow_raisesOnly` for the codes and causes, R95's decode for the I column. -/
theorem faultsAreThoseOfTheMatrix : Obligations.FaultsAreThoseOfTheMatrix := by
  refine ⟨fun i s t he hcnt => ?_, fun op => exists_reservedField_iff⟩
  obtain ⟨e, info, u, ⟨hrow, -⟩, rfl⟩ := exec_of_not_counted he hcnt
  exact hrow

/-- Settles O42: an atomic command raises in a state that differs in the hidden accumulator only. -/
theorem faultingCommandsAreAtomic : Obligations.FaultingCommandsAreAtomic := by
  intro i s t hvld hadpcm he hcnt
  obtain ⟨e, info, u, ⟨-, hatomic⟩, rfl⟩ := exec_of_not_counted he hcnt
  have hidden : HiddenOnly s u := hatomic ⟨hvld, hadpcm⟩
  rw [hidden]
  rfl

end Sys2Proof.Machine
end

section
/-! PROOFS. The audio path and the video path share no state but IBUF, CMDCNT and the fault registers (R313): a
command of one path runs the same, whatever the other path's fields hold. -/

namespace Sys2Proof.Machine

/-! ### A piece of pseudocode and a change of state it does not see -/

/-- The same end, in the state changed by `φ`. -/
def Flow.mapState {α : Type} (φ : State → State) : Flow α → Flow α
  | .ok a s          => .ok a (φ s)
  | .raised e info s => .raised e info (φ s)

section
variable {α β : Type} {φ : State → State}

@[simp] theorem Flow.mapState_ok (a : α) (s : State) : (Flow.ok a s).mapState φ = .ok a (φ s) := rfl

/-- A sequence does not see `φ` when neither of its parts does. -/
theorem flowBind_mapState {f f' : Flow α} {k k' : α → State → Flow β} (hf : f' = f.mapState φ)
    (hk : ∀ a s, k' a (φ s) = (k a s).mapState φ) : flowBind f' k' = (flowBind f k).mapState φ := by
  subst hf
  cases f with
  | ok a s => exact hk a s
  | raised e info s => rfl

/-- A choice does not see `φ` when neither of its branches does. -/
theorem ite_mapState {c : Prop} [Decidable c] {f f' g g' : Flow α} (hf : f' = f.mapState φ)
    (hg : g' = g.mapState φ) : (if c then f' else g') = (if c then f else g).mapState φ := by
  rw [hf, hg, apply_ite (Flow.mapState φ)]

end

/-! ### The two paths -/

/-- `s` with the audio path's registers and PCMOUT (R29, R30, R64) taken from `t`, and `n` in CMDCNT. -/
def State.withSound (s t : State) (n : Word) : State :=
  { s with
    channels := t.channels, prev1 := t.prev1, prev2 := t.prev2, pcmcnt := t.pcmcnt, pcmout := t.pcmout, cmdcnt := n }

/-- `s` with the video path's registers, work arrays and PIX (R21 to R23, R25 to R28, R63) taken from `t`, and `n` in
CMDCNT. -/
def State.withVideo (s t : State) (n : Word) : State :=
  { s with
    coef := t.coef, spat := t.spat, result := t.result
    brActive := t.brActive, brBase := t.brBase, brNbits := t.brNbits, bitpos := t.bitpos
    acc := t.acc, nvalid := t.nvalid, wptr := t.wptr
    hdrOk := t.hdrOk, qscale := t.qscale
    vstate := t.vstate, blk := t.blk, pos := t.pos, accnt := t.accnt, escrun := t.escrun
    frameW := t.frameW, frameH := t.frameH, pix := t.pix, pixFresh := t.pixFresh
    sliceRewritten := t.sliceRewritten, cmdcnt := n }

/-- An audio command writes in its own path only. -/
theorem Writes.withSound {a : Instr} {s t : State} (ha : isAudio a = true) (h : Writes a s t) :
    t = s.withSound t s.cmdcnt := by
  unfold Writes at h
  cases a with
  | cfgAudio _ | adpcmInit | adpcmDec _ _ => rw [h]; rfl
  | _ => cases ha

/-- A video command writes in its own path only. -/
theorem Writes.withVideo {v : Instr} {s t : State} (hv : isVideo v = true) (h : Writes v s t) :
    t = s.withVideo t s.cmdcnt := by
  unfold Writes at h
  cases v with
  | nop | cfgAudio _ | adpcmInit | adpcmDec _ _ => cases hv
  | _ => rw [h]; rfl

/-! ### The audio path does not see the video path -/

section
variable (t : State) (n : Word)

theorem foldl_groupSample_withVideo (g : Nat) (l : List (Nat × Nat × Nat)) (s : State) :
    l.foldl (State.groupSample g) (s.withVideo t n) = (l.foldl (State.groupSample g) s).withVideo t n :=
  List.foldl_hom (State.withVideo · t n) fun _ _ => rfl

theorem decodeGroup_withVideo (g : Nat) (s : State) :
    decodeGroup g (s.withVideo t n) = (decodeGroup g s).mapState (State.withVideo · t n) :=
  ite_mapState rfl (congrArg (Flow.ok ()) (foldl_groupSample_withVideo t n g (groupOrder s.channels) s))

theorem decodeGroups_withVideo (count g : Nat) (s : State) :
    decodeGroups count g (s.withVideo t n) = (decodeGroups count g s).mapState (State.withVideo · t n) := by
  induction count generalizing g s with
  | zero => rfl
  | succ count ih => exact flowBind_mapState (decodeGroup_withVideo t n g s) fun _ u => ih (g + 128) u

/-- An audio command runs the same, whatever the video path holds. -/
theorem commandFlow_withVideo {a : Instr} (ha : isAudio a = true) (s : State) :
    commandFlow a (s.withVideo t n) = (commandFlow a s).mapState (State.withVideo · t n) := by
  cases a with
  | cfgAudio c => simp only [commandFlow]; cases channelsOf c <;> rfl
  | adpcmInit => rfl
  | adpcmDec groups base => exact ite_mapState rfl (ite_mapState rfl (decodeGroups_withVideo t n _ _ s))
  | _ => cases ha

end

/-! ### The video path does not see the audio path -/

section
variable (t : State) (n : Word)

/-! The BitReader (R125, R126). -/

theorem pullIfWords_withSound (s : State) : pullIfWords (s.withSound t n) = (pullIfWords s).withSound t n :=
  (apply_ite (State.withSound · t n) _ (pull s) s).symm

theorem refill_withSound (s : State) : refill (s.withSound t n) = (refill s).withSound t n := by
  unfold refill
  rw [pullIfWords_withSound, pullIfWords_withSound]
  exact (apply_ite (State.withSound · t n) (s.nvalid < 16) _ s).symm

theorem pullUntil_withSound (bits fuel : Nat) (s : State) :
    pullUntil bits fuel (s.withSound t n) = (pullUntil bits fuel s).withSound t n := by
  induction fuel generalizing s with
  | zero => rfl
  | succ fuel ih =>
    have hpull : pullUntil bits fuel (pull (s.withSound t n)) = (pullUntil bits fuel (pull s)).withSound t n :=
      ih (pull s)
    rw [pullUntil, hpull, pullUntil]
    exact (apply_ite (State.withSound · t n) (s.nvalid < bits ∧ s.wptr.toNat < sliceWords s) _ s).symm

theorem ensure_withSound (bits : Nat) (s : State) : ensure bits (s.withSound t n) = (ensure bits s).withSound t n := by
  rw [ensure, refill_withSound, pullUntil_withSound, ensure]

theorem brPeek_withSound (short : Exc) (bits : Nat) (s : State) :
    brPeek short bits (s.withSound t n) = (brPeek short bits s).mapState (State.withSound · t n) := by
  unfold brPeek
  rw [ensure_withSound]
  exact ite_mapState rfl rfl

theorem brConsume_withSound (short : Exc) (bits : Nat) (s : State) :
    brConsume short bits (s.withSound t n) = (brConsume short bits s).mapState (State.withSound · t n) := by
  unfold brConsume
  rw [ensure_withSound]
  exact ite_mapState rfl rfl

theorem brRead_withSound (short : Exc) (bits : Nat) (s : State) :
    brRead short bits (s.withSound t n) = (brRead short bits s).mapState (State.withSound · t n) :=
  flowBind_mapState (brPeek_withSound t n short bits s) fun _ u =>
    flowBind_mapState (brConsume_withSound t n short bits u) fun _ _ => rfl

theorem needSlice_withSound (info : Word) (s : State) :
    needSlice info (s.withSound t n) = (needSlice info s).mapState (State.withSound · t n) := ite_mapState rfl rfl

theorem needCount_withSound (w : Word) (s : State) :
    needCount w (s.withSound t n) = (needCount w s).mapState (State.withSound · t n) := ite_mapState rfl rfl

/-! The entropy decoder (R142 to R150). -/

theorem storeDeq_withSound (b i : Nat) (v : Int) (p : Plane) (k : Nat) (s : State) :
    storeDeq b i v p k (s.withSound t n) = (storeDeq b i v p k s).mapState (State.withSound · t n) :=
  ite_mapState rfl rfl

theorem startBlock_withSound (b : Nat) (p : Plane) (s : State) :
    startBlock b p (s.withSound t n) = (startBlock b p s).mapState (State.withSound · t n) :=
  flowBind_mapState (brRead_withSound t n vldShort s.cfg.dcBits s) fun _ u => storeDeq_withSound t n b 0 _ p 0 u

theorem peekPadValue_withSound (bits : Nat) (s : State) :
    peekPadValue bits (s.withSound t n) = peekPadValue bits s := rfl

theorem lookupCode_withSound (bits : Nat) (entry : Nat → TableEntry) (s : State) :
    lookupCode bits entry (s.withSound t n) = (lookupCode bits entry s).mapState (State.withSound · t n) := by
  have hconsume : ∀ e : TableEntry,
      flowBind (brConsume vldShort e.len ((ensure bits s).withSound t n)) (fun _ u => Flow.ok e u) =
        (flowBind (brConsume vldShort e.len (ensure bits s)) fun _ u => .ok e u).mapState (State.withSound · t n) :=
    fun e => flowBind_mapState (brConsume_withSound t n vldShort e.len (ensure bits s)) fun _ _ => rfl
  simp only [lookupCode, peekPadValue_withSound, ensure_withSound]
  cases (entry (peekPadValue bits s)).kind with
  | invalid => rfl
  | pair => exact hconsume _
  | escapePrefix => exact hconsume _

theorem decodePair_withSound (s : State) :
    decodePair (s.withSound t n) = (decodePair s).mapState (State.withSound · t n) := by
  refine flowBind_mapState (lookupCode_withSound t n 8 s.cfg.entryA s) fun e u => ?_
  cases e.kind with
  | escapePrefix => exact lookupCode_withSound t n u.cfg.wB u.cfg.entryB u
  | pair => rfl
  | invalid => rfl

theorem pairValue_withSound (e : TableEntry) (s : State) :
    pairValue e (s.withSound t n) = (pairValue e s).mapState (State.withSound · t n) := by
  refine ite_mapState ?escape rfl
  exact flowBind_mapState (brRead_withSound t n vldShort s.cfg.rawBits
    { s with vstate := .readEscape, escrun := BitVec.ofNat 6 e.run }) fun _ _ => rfl

theorem place_withSound (b : Nat) (p : Plane) (run : Nat) (v : Int) (s : State) :
    place b p run v (s.withSound t n) = (place b p run v s).mapState (State.withSound · t n) :=
  ite_mapState rfl <| ite_mapState rfl <| storeDeq_withSound t n b _ v p _
    { s with accnt := s.accnt + 1#7, pos := BitVec.ofNat 6 (s.pos.toNat + run) }

theorem oneCode_withSound (b : Nat) (p : Plane) (s : State) :
    oneCode b p (s.withSound t n) = (oneCode b p s).mapState (State.withSound · t n) :=
  flowBind_mapState (decodePair_withSound t n s) fun e u =>
    ite_mapState rfl (flowBind_mapState (pairValue_withSound t n e u) fun v w =>
      flowBind_mapState (place_withSound t n b p e.run v w) fun _ _ => rfl)

theorem codeLoop_withSound (b : Nat) (p : Plane) (room : Nat) (s : State) :
    codeLoop b p room (s.withSound t n) = (codeLoop b p room s).mapState (State.withSound · t n) := by
  induction room generalizing s with
  | zero => exact flowBind_mapState (oneCode_withSound t n b p s) fun _ _ => rfl
  | succ room ih =>
    exact flowBind_mapState (oneCode_withSound t n b p s) fun _ u => ite_mapState rfl (ih u)

theorem decodeBlocks_withSound (bs : List Nat) (s : State) :
    decodeBlocks bs (s.withSound t n) = (decodeBlocks bs s).mapState (State.withSound · t n) := by
  induction bs generalizing s with
  | nil => rfl
  | cons b bs ih =>
    refine flowBind_mapState ?block fun _ u => ih u
    exact flowBind_mapState (startBlock_withSound t n b (planeOf b) (s.openBlock b)) fun _ u =>
      codeLoop_withSound t n b (planeOf b) 63 u

/-! The inverse DCT and colour conversion (R184, R206). -/

theorem foldl_transform_withSound (bs : List Nat) (s : State) :
    bs.foldl State.transform (s.withSound t n) = (bs.foldl State.transform s).withSound t n :=
  List.foldl_hom (State.withSound · t n) fun _ _ => rfl

theorem cscPixel_withSound (mbx mby px py : Nat) (s : State) :
    (s.withSound t n).cscPixel mbx mby px py = (s.cscPixel mbx mby px py).withSound t n :=
  (apply_ite (State.withSound · t n) _ (s.storePixel (pixelOffset s (16 * mbx + px) (16 * mby + py)) (ySample s px py)
    (cbSample s px py) (crSample s px py)) s).symm

theorem cscMacroblock_withSound (mbx mby : Nat) (s : State) :
    (s.withSound t n).cscMacroblock mbx mby = (s.cscMacroblock mbx mby).withSound t n :=
  List.foldl_hom (State.withSound · t n) fun u k => cscPixel_withSound t n mbx mby (k % 16) (k / 16) u

/-- A video command runs the same, whatever the audio path holds. -/
theorem commandFlow_withSound {v : Instr} (hv : isVideo v = true) (s : State) :
    commandFlow v (s.withSound t n) = (commandFlow v s).mapState (State.withSound · t n) := by
  cases v with
  | nop | cfgAudio _ | adpcmInit | adpcmDec _ _ => cases hv
  | cfgFrame w h => exact ite_mapState rfl rfl
  | brInit len base => exact ite_mapState rfl rfl
  | brPeek w =>
    exact flowBind_mapState (needCount_withSound t n w s) fun _ u =>
      flowBind_mapState (needSlice_withSound t n w u) fun _ u =>
      flowBind_mapState (brPeek_withSound t n .eosBits w.toNat u) fun _ _ => rfl
  | brConsume w =>
    exact flowBind_mapState (needCount_withSound t n w s) fun _ u =>
      flowBind_mapState (needSlice_withSound t n w u) fun _ u => brConsume_withSound t n .eosBits w.toNat u
  | brRefill =>
    exact flowBind_mapState (needSlice_withSound t n 0#32 s) fun _ u =>
      congrArg (Flow.ok ()) (refill_withSound t n u)
  | vldHdr =>
    exact flowBind_mapState (needSlice_withSound t n 0#32 s) fun _ u =>
      ite_mapState rfl (flowBind_mapState (brPeek_withSound t n vldShort 16 u) fun _ u =>
        ite_mapState (flowBind_mapState (brConsume_withSound t n vldShort 16 u) fun _ _ => rfl) rfl)
  | vldMb =>
    exact flowBind_mapState (needSlice_withSound t n 0#32 s) fun _ u =>
      ite_mapState (decodeBlocks_withSound t n [0, 1, 2, 3, 4, 5] u.clearCoef) rfl
  | idctBlk b => exact ite_mapState rfl rfl
  | idctMb => exact congrArg (Flow.ok ()) (foldl_transform_withSound t n [0, 1, 2, 3, 4, 5] s)
  | cscMb mbx mby => exact congrArg (Flow.ok ()) (cscMacroblock_withSound t n mbx.toNat mby.toNat s)

end

/-! ### The statement -/

/-- A command that counts went through its pseudocode to the end. -/
theorem commandFlow_of_counted {i : Instr} {s t : State} (he : exec i s = .next t) (hcnt : t.cmdcnt = s.cmdcnt + 1#32) :
    ∃ u, commandFlow i s = .ok () u ∧ t = u.complete := by
  have hframe := commandFlow_frame i s
  rcases exec_next he with hdone | ⟨e, info, u, hu, rfl⟩
  · exact hdone
  · rw [hu, Flow.state_raised] at hframe
    rw [State.takeFault_cmdcnt, hframe] at hcnt
    exact absurd hcnt (by simp)

/-- An audio command that counts: it ran to its end, and `t` is `s` with another audio path and the next CMDCNT. -/
theorem audio_of_counted {a : Instr} {s t : State} (ha : isAudio a = true) (he : exec a s = .next t)
    (hcnt : t.cmdcnt = s.cmdcnt + 1#32) :
    ∃ u, commandFlow a s = .ok () u ∧ u = s.withSound u s.cmdcnt ∧ t = s.withSound u (s.cmdcnt + 1#32) := by
  obtain ⟨u, hu, rfl⟩ := commandFlow_of_counted he hcnt
  have hwrites := commandFlow_writes a s
  rw [hu] at hwrites
  have hown : u = s.withSound u s.cmdcnt := hwrites.withSound ha
  exact ⟨u, hu, hown, congrArg State.complete hown⟩

/-- A video command that counts: it ran to its end, and `t` is `s` with another video path and the next CMDCNT. -/
theorem video_of_counted {v : Instr} {s t : State} (hv : isVideo v = true) (he : exec v s = .next t)
    (hcnt : t.cmdcnt = s.cmdcnt + 1#32) :
    ∃ u, commandFlow v s = .ok () u ∧ u = s.withVideo u s.cmdcnt ∧ t = s.withVideo u (s.cmdcnt + 1#32) := by
  obtain ⟨u, hu, rfl⟩ := commandFlow_of_counted he hcnt
  have hwrites := commandFlow_writes v s
  rw [hu] at hwrites
  have hown : u = s.withVideo u s.cmdcnt := hwrites.withVideo hv
  exact ⟨u, hu, hown, congrArg State.complete hown⟩

/-- Settles O44: each command writes in its own path only and runs the same whatever the other path holds, so either
order ends with the video command's video path, the audio command's audio path and CMDCNT two on. -/
theorem audioAndVideoCommandsCommute : Obligations.AudioAndVideoCommandsCommute := by
  intro a v s sa sv ha hv hea hca hev hcv
  obtain ⟨ua, hflowA, hownA, rfl⟩ := audio_of_counted ha hea hca
  obtain ⟨uv, hflowV, hownV, rfl⟩ := video_of_counted hv hev hcv
  have hva : commandFlow v (s.withSound ua (s.cmdcnt + 1#32)) = .ok () (uv.withSound ua (s.cmdcnt + 1#32)) := by
    rw [commandFlow_withSound _ _ hv, hflowV, Flow.mapState_ok]
  have hav : commandFlow a (s.withVideo uv (s.cmdcnt + 1#32)) = .ok () (ua.withVideo uv (s.cmdcnt + 1#32)) := by
    rw [commandFlow_withVideo _ _ ha, hflowA, Flow.mapState_ok]
  have hsame : ua.withVideo uv (s.cmdcnt + 1#32) = uv.withSound ua (s.cmdcnt + 1#32) := by
    rw [hownA, hownV]; rfl
  exact ⟨_, exec_of_ok hva, by rw [exec_of_ok hav, hsame]⟩

end Sys2Proof.Machine
end
